-- ==== Sys2Proof/Word.lean ====
section
/-! DEFINITION. The sizes of the words the block holds and moves (spec/10_state.md rule R20, spec/20_memory.md rule R62).
Every value is unsigned (spec/00_scope.md rule R9): bit 0 is the least significant bit. -/

namespace Sys2Proof

/-- A byte of a Modbus frame, and the width of SADDR, WPDU_LEN, RPDU_LEN and EXC_CODE. -/
abbrev Byte := BitVec 8

/-- A 16-bit value: the CRC register, a Modbus register address, count or value. -/
abbrev Half := BitVec 16

/-- The 9-bit byte counts TX_COUNT and RX_COUNT. -/
abbrev Count := BitVec 9

/-- A word of the 32-bit host bus: a command word or the data of one host access (R62, R80). -/
abbrev Word := BitVec 32

/-- An offset into the 4 KiB register window (R60). -/
abbrev Offset := BitVec 12

end Sys2Proof
end

