-- ==== Sys2Proof/Config.lean ====
section
/-! DEFINITION. What the spec leaves OPEN (spec/00_scope.md rule R7, spec/92_eei_decisions.md D4 and D22).
Every constant here is opaque: it has no body, so no proof can lean on a value of it. -/

namespace Sys2Proof

/-- The number of the 4 KiB page the register window stands in. OPEN (D4, U9): the platform decides. Notes 7. -/
opaque Config.basePage : Nat

/-- BASE, the bus address of the register window: "a multiple of 0x1000" (R7, R60). -/
def Config.base : Nat := 0x1000 * Config.basePage

/-- What BACKOFF adds to the read timeout constant beyond the least growth, on the given attempt from the given constant.
OPEN (R193, R198, D22, U10). A host parameter, no part of the block. Notes 13. -/
opaque Config.backoffExtra (attempt constant : Nat) : Nat

/-- The interval BACKOFF sets; whether it changes is left open (spec/90_conflicts.md C5, D22). Notes 13. -/
opaque Config.backoffInterval (attempt interval : Nat) : Nat

/-- The multiplier BACKOFF sets; whether it changes is left open (spec/90_conflicts.md C5, D22). Notes 13. -/
opaque Config.backoffMultiplier (attempt multiplier : Nat) : Nat

/-- The name the host logs for an exception code outside the source's list, in the given entry of its log: "any value"
(R183, spec/93_implementation_defined.md U2). Codes 0, 9 and 12 to 255. Notes 21. -/
opaque Config.otherExceptionName (entry : Nat) (code : Byte) : String

end Sys2Proof
end

