-- ==== Sys2Proof/Syntax.lean ====
section
/-! DEFINITION. The commands of the block: one constructor per row of spec/opcode_table.json (spec/30_encoding.md rule R83),
with the operand its format gives it (rules R81, R82). Every other operand of a command is a register of the block. -/

namespace Sys2Proof

/-- A command, as the host writes it to CMD. ARG8 is a byte of data; LEN9 is a byte count, so a number. -/
inductive Instr where
  /-- NOP (R106). -/
  | nop
  /-- CRC_INIT (R102). -/
  | crcInit
  /-- CRC_BYTE with its data byte ARG8 (R103). -/
  | crcByte (b : Byte)
  /-- CRC_TX with its byte count LEN9 (R104). -/
  | crcTx (len : Nat)
  /-- CRC_RX with its byte count LEN9 (R105). -/
  | crcRx (len : Nat)
  /-- FRAME_BUILD (R122). -/
  | frameBuild
  /-- FRAME_PARSE (R124). -/
  | frameParse
  /-- ENC_READ (R150). -/
  | encRead
  /-- ENC_WRITE (R154). -/
  | encWrite
  /-- DEC_READ (R152). -/
  | decRead
  /-- DEC_WRITE (R156). -/
  | decWrite
  deriving DecidableEq, Repr

end Sys2Proof
end

