-- ==== Sys2Proof/WellFormed.lean ====
section
/-! DEFINITION. Which commands have an encoding: `<imm8>` is 0 to 255 (true of every byte) and `<len>` is 0 to 511
(spec/30_encoding.md rules R82 and R91). -/

namespace Sys2Proof

/-- A byte count fits LEN9, 9 bits: 0 to 511 (R82). A count above 256 is still a legal word; the command then reports
E_RANGE (R104, R105). -/
def fitsLen9 (len : Nat) : Bool := len ≤ 511

/-- The operand of a command fits its field of the command word. -/
def Instr.wellFormed : Instr → Bool
  | .nop => true
  | .crcInit => true
  | .crcByte _ => true
  | .crcTx len => fitsLen9 len
  | .crcRx len => fitsLen9 len
  | .frameBuild => true
  | .frameParse => true
  | .encRead => true
  | .encWrite => true
  | .decRead => true
  | .decWrite => true

end Sys2Proof
end

