-- ==== Sys2Proof/Decode.lean ====
section
/-! DEFINITION. Command words: the decoder, then the encoder, both written from spec/30_encoding.md rules R80 to R85. -/

namespace Sys2Proof

/-- ARG8: the byte w[15:8], used with no extension (R82). -/
def arg8 (w : Word) : Byte := w.extractLsb' 8 8

/-- LEN9: the unsigned value w[24:16], 0 to 511 (R82). -/
def len9 (w : Word) : Nat := (w.extractLsb' 16 9).toNat

/-- A row of the opcode map (R83): a word w selects the command when `(w and mask) == match`; `instr` assembles the
operand its format gives it (R81, R82). -/
structure OpcodeRow where
  matchWord : Word
  mask      : Word
  instr     : Word → Instr

/-- The condition of R83 under which a word selects a row. -/
def OpcodeRow.selects (r : OpcodeRow) (w : Word) : Bool := w &&& r.mask == r.matchWord

/-- The opcode map (R83), row for row. -/
def opcodeMap : List OpcodeRow :=
  [ ⟨0x00000000, 0xFFFFFFFF, fun _ => .nop⟩,
    ⟨0x00000001, 0xFFFFFFFF, fun _ => .crcInit⟩,
    ⟨0x00000002, 0xFFFF00FF, fun w => .crcByte (arg8 w)⟩,
    ⟨0x00000003, 0xFE00FFFF, fun w => .crcTx (len9 w)⟩,
    ⟨0x00000004, 0xFE00FFFF, fun w => .crcRx (len9 w)⟩,
    ⟨0x00000010, 0xFFFFFFFF, fun _ => .frameBuild⟩,
    ⟨0x00000011, 0xFFFFFFFF, fun _ => .frameParse⟩,
    ⟨0x00000020, 0xFFFFFFFF, fun _ => .encRead⟩,
    ⟨0x00000021, 0xFFFFFFFF, fun _ => .encWrite⟩,
    ⟨0x00000022, 0xFFFFFFFF, fun _ => .decRead⟩,
    ⟨0x00000023, 0xFFFFFFFF, fun _ => .decWrite⟩ ]

/-- Why a word is illegal; R84 names both ways. The block answers both alike (E_OPCODE). -/
inductive IllegalWord where
  /-- OP is not in the table: 0x05 to 0x0F, 0x12 to 0x1F, 0x24 to 0xFF. -/
  | unassignedOp
  /-- A listed OP with a nonzero bit in a field its format requires to be 0. -/
  | nonzeroField
  deriving DecidableEq, Repr

/-- The name of the rejection of a word that selects no row (R84). -/
def illegalWord (w : Word) : IllegalWord :=
  if opcodeMap.any (fun r => r.matchWord &&& 0xFF == w &&& 0xFF) then .nonzeroField else .unassignedOp

/-- Decoding (R85): take the row the word selects, else the word is illegal. Total on every 32-bit word. -/
def decode (w : Word) : Except IllegalWord Instr :=
  match opcodeMap.find? (·.selects w) with
  | some r => .ok (r.instr w)
  | none => .error (illegalWord w)

/-- A command word with no operand (format F0, R81). -/
def wordF0 (op : Byte) : Word := op.setWidth 32

/-- A command word with a byte operand in ARG8 (format FB, R81). -/
def wordFB (op : Byte) (b : Byte) : Word := op.setWidth 32 ||| b.setWidth 32 <<< 8

/-- A command word with a byte count in LEN9 (format FL, R81). -/
def wordFL (op : Byte) (len : Nat) : Word := op.setWidth 32 ||| BitVec.ofNat 32 len <<< 16

/-- The command word of a command (R81, R83, R91). -/
def encode : Instr → Word
  | .nop => wordF0 0x00
  | .crcInit => wordF0 0x01
  | .crcByte b => wordFB 0x02 b
  | .crcTx len => wordFL 0x03 len
  | .crcRx len => wordFL 0x04 len
  | .frameBuild => wordF0 0x10
  | .frameParse => wordF0 0x11
  | .encRead => wordF0 0x20
  | .encWrite => wordF0 0x21
  | .decRead => wordF0 0x22
  | .decWrite => wordF0 0x23

/-- The decoder on a word numbered as spec/opcode_table.json numbers it. A command is one 32-bit word (R80), so every
row has 32 bits and a word with a bit above them is no command word. -/
def decodeTableWord (nbits w : Nat) : Option Instr :=
  if w % 2 ^ nbits < 2 ^ 32 then
    match decode (BitVec.ofNat 32 (w % 2 ^ nbits)) with
    | .ok i => some i
    | .error _ => none
  else none

end Sys2Proof
end

