-- ==== Sys2Proof/Machine/Operands.lean ====
section
/-! DEFINITION. The forms in which operands stand: the two halves of a 16-bit value, the big-endian fields of a PDU and the
little-endian lanes of the bus (spec/20_memory.md rules R61 and R64), and the lengths computed from registers. -/

namespace Sys2Proof.Machine

/-- v[7:0]. -/
def lowByte (v : Half) : Byte := v.extractLsb' 0 8

/-- v[15:8]. -/
def highByte (v : Half) : Byte := v.extractLsb' 8 8

/-- A 16-bit field of a PDU on the wire: big-endian, high byte first (R64). -/
def beBytes (v : Half) : List Byte := [highByte v, lowByte v]

/-- The CRC on the wire: low byte first (R64). -/
def crcBytes (k : Half) : List Byte := [lowByte k, highByte k]

/-- `hi || lo`: the 16-bit value of two consecutive big-endian bytes (R64, spec/42_register_ops.md R153). -/
def beHalf (hi lo : Byte) : Half := hi ++ lo

/-- The registers of a run of response bytes, two bytes each, high byte first (R153). -/
def beHalves : List Byte → List Half
  | hi :: lo :: rest => beHalf hi lo :: beHalves rest
  | _ => []

/-- Lane i of a bus word: bits [8i+7:8i] (R61). -/
def lane (i : Nat) (w : Word) : Byte := w.extractLsb' (8 * i) 8

/-- The four lanes of a bus word, the byte with the lowest index first (R61). -/
def laneBytes (w : Word) : List Byte := [lane 0 w, lane 1 w, lane 2 w, lane 3 w]

/-- The bus word with the given bytes in its lanes, the first byte in bits [7:0] (R61). -/
def lanesWord (bytes : List Byte) : Word := bytes.foldr (fun b w => w <<< 8 ||| b.setWidth 32) 0

/-- The expected response ADU length E = RPDU_LEN + 3 (spec/41_framer.md R123). -/
def expectedAdu (rpduLen : Byte) : Nat := rpduLen.toNat + 3

/-- The response PDU length of a read of n registers, 2 + 2n (spec/30_encoding.md R88). -/
def readPduLen (n : Nat) : Nat := 2 + 2 * n

end Sys2Proof.Machine
end

