-- ==== Sys2Proof/Machine/Crc16.lean ====
section
/-! DEFINITION. The CRC function of the block (spec/40_crc.md rules R100 and R101): Modbus CRC-16, polynomial 0xA001
(reflected 0x8005), initial value 0xFFFF, no final XOR. -/

namespace Sys2Proof.Machine

/-- The polynomial in reflected form (spec/00_scope.md R6). -/
def crcPoly : Half := 0xA001

/-- The initial value (R6, R101). -/
def crcInitial : Half := 0xFFFF

/-- One iteration of R100: shift right by one, and xor the polynomial when the bit shifted out is 1. -/
def crcShift (c : Half) : Half :=
  if c.getLsbD 0 then c >>> 1 ^^^ crcPoly else c >>> 1

/-- k iterations of R100. -/
def crcShifts : Nat → Half → Half
  | 0, c => c
  | k + 1, c => crcShifts k (crcShift c)

/-- `crc_update(c, b)`: xor the byte into the low byte, then 8 iterations (R100). -/
def crcUpdate (c : Half) (b : Byte) : Half := crcShifts 8 (c ^^^ b.setWidth 16)

/-- crc_update folded over bytes, from the first to the last (R101, R110). -/
def crcFold (c : Half) (bytes : List Byte) : Half := bytes.foldl crcUpdate c

/-- `crc16(bytes)`: the fold from the initial value, with no final XOR (R101). -/
def crc16 (bytes : List Byte) : Half := crcFold crcInitial bytes

/-- The last two bytes of a frame are the CRC of the bytes before them, low byte first (spec/30_encoding.md R86): the CRC
check of a received frame (spec/41_framer.md R124). -/
def frameCrcOk (adu : List Byte) : Bool :=
  let k := crc16 (adu.take (adu.length - 2))
  adu.drop (adu.length - 2) == crcBytes k

end Sys2Proof.Machine
end

