-- ==== Sys2Proof/Machine/State.lean ====
section
/-! DEFINITION. The state of the block (spec/10_state.md rule R20: "exactly the following, and nothing else"), the host
accesses that reach it, and the ways a step can stop. -/

namespace Sys2Proof.Machine

/-- The command error codes of STATUS.ERR (spec/10_state.md R23, spec/60_exceptions.md R180). Values 9 to 15 "are never
produced", so they have no constructor. -/
inductive Err where
  | ok | eOpcode | eRange | eAddr | eCount | eWrap | eFrame | eByteCount | eEcho
  deriving DecidableEq, Repr

/-- The verdicts of STATUS.VERDICT (spec/10_state.md R24). Values 7 to 15 "are never produced". -/
inductive Verdict where
  | vNone | vOk | vNoResponse | vException | vBadLength | vCrcError | vAddrMismatch
  deriving DecidableEq, Repr

/-- The memories whose bytes or entries carry a written/unwritten mark (spec/10_state.md R33). -/
inductive Buffer where
  | tx | rx | regdata
  deriving DecidableEq, Repr

/-- A memory in one canonical form: pairs of an index and its content, indexes strictly rising. An index that is not
listed is unwritten and holds no value (spec/10_state.md R33). -/
abbrev Store (α : Type) := List (Nat × α)

/-- TXBUF or RXBUF: the written bytes (spec/10_state.md R32, R34). -/
abbrev Memory := Store Byte

/-- What one host access does (spec/00_scope.md R10: MemRead, MemWrite). -/
inductive BusOp where
  | read
  | write (w : Word)
  deriving DecidableEq, Repr

/-- One host access to the window (spec/20_memory.md R60, R62): its width in bits, its offset from BASE and what it does.
An access of another width is a bus error whatever its data, so the data is kept as 32 bits. Notes 17, 18. -/
structure Access where
  bits : Nat
  off  : Offset
  op   : BusOp
  deriving DecidableEq, Repr

/-- What reaches the block from outside: a host access (spec/00_scope.md R8) or a reset (spec/70_reset_and_hazards.md R220). -/
inductive Input where
  | access (a : Access)
  | reset
  deriving DecidableEq, Repr

/-- What the last step answered the host: nothing, a write taken, or the word of a read (spec/20_memory.md R61, R67). -/
inductive Reply where
  | none
  | done
  | data (w : Word)
  deriving DecidableEq, Repr

/-- Why the machine stops. -/
inductive Fault where
  /-- `fault UNWRITTEN` (spec/10_state.md R33, U1): entry `i` of `b` holds no value and a command or a host read uses it.
  Raised by CRC_TX, CRC_RX, FRAME_BUILD, FRAME_PARSE, DEC_READ, DEC_WRITE and by reads of TXBUF, RXBUF, REGDATA.
  Safe: hardware goes on with an unspecified value. -/
  | unwritten (b : Buffer) (i : Nat)
  /-- `bus_error` (spec/20_memory.md R63): an access the window does not admit. "The model's outcome is a fault of the
  host access." Raised by host accesses only, never by a command. Safe: hardware changes no state and goes on. -/
  | busError
  deriving DecidableEq, Repr

/-- Why a command has no meaning. No arm of exec answers this: every command has its meaning. -/
inductive Refusal where
  /-- A command of the opcode table with no meaning yet. Raised by nothing. Safe. -/
  | notModelled (mnemonic : String)
  deriving DecidableEq, Repr

/-- The state of the block, then two fields of the model's own: what waits on the bus and the last reply. -/
structure State where
  /-- STATUS.ERR (R23). -/
  err      : Err
  /-- STATUS.VERDICT (R24). -/
  verdict  : Verdict
  /-- STATUS.EXC_CODE (R25). -/
  excCode  : Byte
  /-- STATUS.EXC_KNOWN (R25). -/
  excKnown : Bool
  /-- CRC, the register of the CRC16 Engine (R26). -/
  crc      : Half
  /-- SADDR, the target server address (R27). -/
  saddr    : Byte
  /-- WPDU_LEN, the request PDU length (R28). -/
  wpduLen  : Byte
  /-- RPDU_LEN, the expected response PDU length (R29). -/
  rpduLen  : Byte
  /-- TX_COUNT, the ADU bytes ready to send (R30). -/
  txCount  : Count
  /-- RX_COUNT, the bytes received (R31). -/
  rxCount  : Count
  /-- REG_ADDR (R36). -/
  regAddr  : Half
  /-- REG_COUNT (R37). -/
  regCount : Half
  /-- REG_VALUE (R38). -/
  regValue : Half
  /-- TXBUF, the request ADU buffer: 256 bytes (R32). -/
  txbuf    : Memory
  /-- RXBUF, the response ADU buffer: 256 bytes (R34). -/
  rxbuf    : Memory
  /-- REGDATA, the decoded registers: 125 entries (R35). -/
  regdata  : Store Half
  /-- The model's own: accesses and resets the block has not taken yet, in arrival order (R8, R68). Notes 1. -/
  bus      : List Input
  /-- The model's own: the answer to the last input. Notes 2. -/
  reply    : Reply
  deriving DecidableEq, Repr

/-- The block right after reset (spec/70_reset_and_hazards.md R220): STATUS 0, CRC 0xFFFF (R221), every other register 0,
every buffer byte and entry unwritten. No access waits and none has been answered (notes 1, 2). -/
def State.reset : State where
  err := .ok
  verdict := .vNone
  excCode := 0
  excKnown := false
  crc := 0xFFFF
  saddr := 0
  wpduLen := 0
  rpduLen := 0
  txCount := 0
  rxCount := 0
  regAddr := 0
  regCount := 0
  regValue := 0
  txbuf := []
  rxbuf := []
  regdata := []
  bus := []
  reply := .none

end Sys2Proof.Machine
end

