-- ==== Sys2Proof/Machine/Flags.lean ====
section
/-! DEFINITION. What STATUS reports: the code numbers of its fields, the KNOWN bit of an exception code, and the word a host
reads (spec/10_state.md rules R22 to R25, R39). -/

namespace Sys2Proof.Machine

/-- The number of an error code (spec/60_exceptions.md R180). -/
def Err.code : Err → BitVec 4
  | .ok => 0
  | .eOpcode => 1
  | .eRange => 2
  | .eAddr => 3
  | .eCount => 4
  | .eWrap => 5
  | .eFrame => 6
  | .eByteCount => 7
  | .eEcho => 8

/-- The number of a verdict (spec/10_state.md R24). -/
def Verdict.code : Verdict → BitVec 4
  | .vNone => 0
  | .vOk => 1
  | .vNoResponse => 2
  | .vException => 3
  | .vBadLength => 4
  | .vCrcError => 5
  | .vAddrMismatch => 6

/-- The Modbus exception codes the source names (spec/41_framer.md R120, spec/60_exceptions.md R183). -/
def knownCodes : List Byte := [1, 2, 3, 4, 5, 6, 7, 8, 10, 11]

/-- Whether an exception code is one the source names (R183): the value of EXC_KNOWN. -/
def isKnownCode (code : Byte) : Bool := knownCodes.contains code

/-- A fixed field of STATUS placed with its lowest bit at `lo`. -/
def fieldAt {n : Nat} (lo : Nat) (v : BitVec n) : Word := v.setWidth 32 <<< lo

/-- STATUS as a host reads it: ERR[3:0], VERDICT[11:8], EXC_CODE[23:16], EXC_KNOWN[24]; the reserved bits read 0 (R22, R39). -/
def statusWord (s : State) : Word :=
  fieldAt 0 s.err.code ||| fieldAt 8 s.verdict.code ||| fieldAt 16 s.excCode ||| fieldAt 24 (BitVec.ofBool s.excKnown)

end Sys2Proof.Machine
end

