-- ==== Sys2Proof/Machine/Ops.lean ====
section
/-! DEFINITION. The shared operations: reading and writing the buffers, recording an error or a verdict, and completing a
request ADU (spec/00_scope.md rule R10, spec/10_state.md rule R33, spec/41_framer.md rules R120 and R121). -/

namespace Sys2Proof.Machine

/-! ### The canonical stores -/

/-- The content at an index; none where nothing has written it (R33). -/
def Store.read {α : Type} (i : Nat) : Store α → Option α
  | [] => none
  | (j, v) :: rest => if i = j then some v else Store.read i rest

/-- Writing one index: the entry becomes written and holds v. Keeps the indexes strictly rising. -/
def Store.write {α : Type} (i : Nat) (v : α) : Store α → Store α
  | [] => [(i, v)]
  | (j, u) :: rest =>
    if i < j then (i, v) :: (j, u) :: rest
    else if i = j then (i, v) :: rest
    else (j, u) :: Store.write i v rest

/-- Writing consecutive indexes from i up. -/
def Store.writeRun {α : Type} (i : Nat) : List α → Store α → Store α
  | [], m => m
  | v :: vs, m => Store.writeRun (i + 1) vs (Store.write i v m)

/-- The indexes rise strictly, from `lo` up, and stay below `size`. -/
def Store.rises {α : Type} (lo size : Nat) : Store α → Bool
  | [] => true
  | (j, _) :: rest => lo ≤ j && j < size && Store.rises (j + 1) size rest

/-- The canonical form of a store of `size` entries: equal contents are equal lists. -/
def Store.wf {α : Type} (size : Nat) (m : Store α) : Bool := Store.rises 0 size m

/-- TXBUF and RXBUF are 256 bytes (spec/10_state.md R32, R34). -/
def bufferSize : Nat := 256

/-- REGDATA is 125 entries (R35). -/
def regdataSize : Nat := 125

/-- The canonical form of TXBUF and RXBUF. -/
def Memory.wf (m : Memory) : Bool := Store.wf bufferSize m

/-! ### Reading a buffer in a command -/

/-- Entry i of a store; an unwritten one is `fault UNWRITTEN` (R33). -/
def readEntry {α : Type} (b : Buffer) (m : Store α) (i : Nat) : Except Fault α :=
  match Store.read i m with
  | some v => .ok v
  | none => .error (.unwritten b i)

/-- n entries from index i up, in order; the first unwritten one is `fault UNWRITTEN` (R33). -/
def readRun {α : Type} (b : Buffer) (m : Store α) : (i n : Nat) → Except Fault (List α)
  | _, 0 => .ok []
  | i, n + 1 =>
    match readEntry b m i with
    | .error f => .error f
    | .ok v =>
      match readRun b m (i + 1) n with
      | .error f => .error f
      | .ok vs => .ok (v :: vs)

/-- TX[i..i+n). -/
def readTx (i n : Nat) (s : State) : Except Fault (List Byte) := readRun .tx s.txbuf i n

/-- RX[i..i+n). -/
def readRx (i n : Nat) (s : State) : Except Fault (List Byte) := readRun .rx s.rxbuf i n

/-! ### Writing the status and the registers -/

/-- `STATUS.ERR <- e`. -/
def State.setErr (e : Err) (s : State) : State := { s with err := e }

/-- `CRC <- c`. -/
def State.setCrc (c : Half) (s : State) : State := { s with crc := c }

/-- `TX_COUNT <- n`. -/
def State.setTxCount (n : Nat) (s : State) : State := { s with txCount := BitVec.ofNat 9 n }

/-- `set_verdict(v, code)`: the only way VERDICT is written; the exception fields follow it (spec/41_framer.md R120). -/
def State.setVerdict (v : Verdict) (code : Byte) (s : State) : State :=
  match v with
  | .vException => { s with verdict := v, excCode := code, excKnown := isKnownCode code }
  | _ => { s with verdict := v, excCode := 0, excKnown := false }

/-- The ADU bytes a PDU of `len` bytes leaves in TXBUF around itself: TX[0], TX[len+1], TX[len+2] (R121). -/
def frameAround (len : Nat) (saddr : Byte) (k : Half) (m : Memory) : Memory :=
  Store.writeRun (len + 1) (crcBytes k) (Store.write 0 saddr m)

/-! ### Ending a command -/

/-- The command completed: `STATUS.ERR <- 0`. -/
def complete (s : State) : Host.Outcome State Fault Refusal := .next (s.setErr .ok)

/-- `raise Err(code)`: the error is recorded in STATUS.ERR and nothing else changes (spec/00_scope.md R10,
spec/60_exceptions.md R181). The block's form of taking an exception: no trap, nothing saved, the next host access is
taken normally (R186, R187). -/
def raiseErr (e : Err) (s : State) : Host.Outcome State Fault Refusal := .next (s.setErr e)

/-- `TX_COUNT <- 0; raise Err(code)`: how FRAME_BUILD, ENC_READ and ENC_WRITE fail (R151, R181). -/
def raiseNoFrame (e : Err) (s : State) : Host.Outcome State Fault Refusal := raiseErr e (s.setTxCount 0)

/-- `SADDR > 247`, the check of every command that uses SADDR (spec/10_state.md R27). -/
def badServerAddress (s : State) : Bool := 247 < s.saddr.toNat

/-- A PDU length the framer refuses: 0 or above 253 (spec/10_state.md R28, R29). -/
def badPduLen (len : Byte) : Bool := len == 0 || 253 < len.toNat

/-- A register count the register operations refuse: not 1 to 125 (spec/10_state.md R37). -/
def badRegCount (n : Half) : Bool := n.toNat < 1 || 125 < n.toNat

/-- `build_adu(len)` and then `STATUS.ERR <- 0` (R121): completes a request ADU around the PDU in TX[1..len+1). The
unwritten check comes before any write. -/
def buildAdu (len : Nat) (s : State) : Host.Outcome State Fault Refusal :=
  match readTx 1 len s with
  | .error f => .fault f
  | .ok pdu =>
    complete
      ((({ s with txbuf := frameAround len s.saddr (crc16 (s.saddr :: pdu)) s.txbuf }).setTxCount (len + 3)).setVerdict .vNone 0)

end Sys2Proof.Machine
end

