-- ==== Sys2Proof/Machine/CrcEngine.lean ====
section
/-! DEFINITION. The CRC16 Engine and the control command (spec/40_crc.md rules R102 to R106). -/

namespace Sys2Proof.Machine

/-- Folds the n bytes `bytes` yields into the CRC register; n above 256 is E_RANGE (R104, R105). -/
def crcSpan (n : Nat) (bytes : State → Except Fault (List Byte)) (s : State) : Host.Outcome State Fault Refusal :=
  if 256 < n then raiseErr .eRange s
  else
    match bytes s with
    | .error f => .fault f
    | .ok bs => complete (s.setCrc (crcFold s.crc bs))

/-- NOP (R106): clears ERR. -/
def execNop (s : State) : Host.Outcome State Fault Refusal := complete s

/-- CRC_INIT (R102): `CRC <- 0xFFFF`. -/
def execCrcInit (s : State) : Host.Outcome State Fault Refusal := complete (s.setCrc crcInitial)

/-- CRC_BYTE (R103): feeds one byte into the CRC register. -/
def execCrcByte (b : Byte) (s : State) : Host.Outcome State Fault Refusal := complete (s.setCrc (crcUpdate s.crc b))

/-- CRC_TX (R104): feeds TX[0..n) into the CRC register. -/
def execCrcTx (n : Nat) (s : State) : Host.Outcome State Fault Refusal := crcSpan n (readTx 0 n) s

/-- CRC_RX (R105): feeds RX[0..n) into the CRC register. -/
def execCrcRx (n : Nat) (s : State) : Host.Outcome State Fault Refusal := crcSpan n (readRx 0 n) s

end Sys2Proof.Machine
end

