-- ==== Sys2Proof/Machine/Framer.lean ====
section
/-! DEFINITION. The Modbus RTU framer and parser (spec/41_framer.md rules R122 to R125). -/

namespace Sys2Proof.Machine

/-- FRAME_BUILD (R122): turns the PDU in TX[1..WPDU_LEN+1) into a complete ADU. -/
def execFrameBuild (s : State) : Host.Outcome State Fault Refusal :=
  if badServerAddress s then raiseNoFrame .eAddr s
  else if badPduLen s.wpduLen then raiseNoFrame .eRange s
  else buildAdu s.wpduLen.toNat s

/-- The verdict on a frame of the full expected length: the CRC is checked before the address, and nothing else is
(R124, R125). -/
def classifyFull (saddr : Byte) (adu : List Byte) : Verdict × Byte :=
  if !frameCrcOk adu then (.vCrcError, 0)
  else if adu.head? != some saddr then (.vAddrMismatch, 0)
  else (.vOk, 0)

/-- The verdict on a short frame of exactly 5 bytes: an exception response when its CRC is valid over RX[0..3) and its
function byte is above 0x80, strictly (R124, spec/90_conflicts.md C1, C3). Neither its address nor its function code is
compared with the request (R125). -/
def classifyShort (adu : List Byte) : Verdict × Byte :=
  match adu with
  | [_, fn, code, _, _] =>
    if frameCrcOk adu && decide (0x80 < fn.toNat) then (.vException, code) else (.vBadLength, 0)
  | _ => (.vBadLength, 0)

/-- The verdict on RX[0..RX_COUNT), with the exception code that goes with it (R123, R124). The branch that a count
chooses reads all its bytes, and an unwritten one is a fault (notes 5); the other branches read none. -/
def parseFrame (s : State) : Except Fault (Verdict × Byte) :=
  let e := expectedAdu s.rpduLen
  let c := s.rxCount.toNat
  if c = 0 then .ok (.vNoResponse, 0)
  else if c = e then
    match readRx 0 e s with
    | .error f => .error f
    | .ok adu => .ok (classifyFull s.saddr adu)
  else if c = 5 ∧ c < e then
    match readRx 0 5 s with
    | .error f => .error f
    | .ok adu => .ok (classifyShort adu)
  else .ok (.vBadLength, 0)

/-- FRAME_PARSE (R124): records the verdict on the received bytes. A bad frame is a verdict, not an error. -/
def execFrameParse (s : State) : Host.Outcome State Fault Refusal :=
  if badServerAddress s then raiseErr .eAddr s
  else if badPduLen s.rpduLen || decide (256 < s.rxCount.toNat) then raiseErr .eRange s
  else
    match parseFrame s with
    | .error f => .fault f
    | .ok (v, code) => complete (s.setVerdict v code)

end Sys2Proof.Machine
end

