-- ==== Sys2Proof/Machine/RegisterOps.lean ====
section
/-! DEFINITION. The register operations: Read Holding Registers (0x03) and Write Single Register (0x06), each an encode and a
decode command (spec/42_register_ops.md rules R150 to R156). -/

namespace Sys2Proof.Machine

/-- The 5-byte PDU of both requests: function code, then two big-endian 16-bit fields (spec/30_encoding.md R87, R89). -/
def requestPdu (fn : Byte) (a v : Half) : List Byte := fn :: (beBytes a ++ beBytes v)

/-- Writes a request PDU to TX[1..6), sets WPDU_LEN to 5 and RPDU_LEN to the response's length, and builds the ADU. -/
def encodeRequest (fn : Byte) (a v : Half) (rpduLen : Nat) (s : State) : Host.Outcome State Fault Refusal :=
  buildAdu 5
    { s with
      txbuf := Store.writeRun 1 (requestPdu fn a v) s.txbuf
      wpduLen := 5
      rpduLen := BitVec.ofNat 8 rpduLen }

/-- The last register address of a read, a + n - 1, is above 0xFFFF, computed without wrap-around (R150). -/
def wrapsPastEnd (a n : Half) : Bool := 0xFFFF < a.toNat + n.toNat - 1

/-- ENC_READ (R150): builds a Read Holding Registers request for REG_COUNT registers from REG_ADDR. -/
def execEncRead (s : State) : Host.Outcome State Fault Refusal :=
  if badServerAddress s then raiseNoFrame .eAddr s
  else if badRegCount s.regCount then raiseNoFrame .eCount s
  else if wrapsPastEnd s.regAddr s.regCount then raiseNoFrame .eWrap s
  else encodeRequest 0x03 s.regAddr s.regCount (readPduLen s.regCount.toNat) s

/-- ENC_WRITE (R154, R155): builds a Write Single Register request. SADDR is its only check. -/
def execEncWrite (s : State) : Host.Outcome State Fault Refusal :=
  if badServerAddress s then raiseNoFrame .eAddr s
  else encodeRequest 0x06 s.regAddr s.regValue 5 s

/-- The registers of an accepted read response: the byte-count field RX[2], then n big-endian registers from RX[3]
(R152, R153). None when the byte count is not 2n; the register bytes are then not read. -/
def responseRegisters (n : Nat) (s : State) : Except Fault (Option (List Half)) :=
  match readEntry .rx s.rxbuf 2 with
  | .error f => .error f
  | .ok byteCount =>
    if byteCount.toNat = 2 * n then
      match readRx 3 (2 * n) s with
      | .error f => .error f
      | .ok bytes => .ok (some (beHalves bytes))
    else .ok none

/-- DEC_READ (R152): decodes the registers of a V_OK read response into REGDATA[0..REG_COUNT). -/
def execDecRead (s : State) : Host.Outcome State Fault Refusal :=
  if s.verdict ≠ .vOk then raiseErr .eFrame s
  else if badRegCount s.regCount then raiseErr .eCount s
  else if s.rpduLen.toNat ≠ readPduLen s.regCount.toNat then raiseErr .eFrame s
  else
    match responseRegisters s.regCount.toNat s with
    | .error f => .fault f
    | .ok none => raiseErr .eByteCount s
    | .ok (some regs) => complete { s with regdata := Store.writeRun 0 regs s.regdata }

/-- Whether RX[i..i+n) equals TX[i..i+n), compared byte by byte up to the first difference (R156); an unwritten byte that
the comparison reaches is a fault. Notes 6. -/
def echoes (s : State) : (i n : Nat) → Except Fault Bool
  | _, 0 => .ok true
  | i, n + 1 =>
    match readEntry .rx s.rxbuf i with
    | .error f => .error f
    | .ok r =>
      match readEntry .tx s.txbuf i with
      | .error f => .error f
      | .ok t => if r = t then echoes s (i + 1) n else .ok false

/-- DEC_WRITE (R156): checks that a V_OK response echoes the request PDU, TX[1..6) as TXBUF holds it now (R226). -/
def execDecWrite (s : State) : Host.Outcome State Fault Refusal :=
  if s.verdict ≠ .vOk then raiseErr .eFrame s
  else if s.rpduLen.toNat ≠ 5 then raiseErr .eFrame s
  else
    match echoes s 1 5 with
    | .error f => .fault f
    | .ok false => raiseErr .eEcho s
    | .ok true => complete s

end Sys2Proof.Machine
end

