-- ==== Sys2Proof/Machine/Dispatch.lean ====
section
/-! DEFINITION. One arm per command (spec/30_encoding.md rule R83): which meaning it has. -/

namespace Sys2Proof.Machine

def exec (i : Instr) (s : State) : Host.Outcome State Fault Refusal :=
  match i with
  | .nop => Sys2Proof.Machine.execNop s
  | .crcInit => Sys2Proof.Machine.execCrcInit s
  | .crcByte b => Sys2Proof.Machine.execCrcByte b s
  | .crcTx len => Sys2Proof.Machine.execCrcTx len s
  | .crcRx len => Sys2Proof.Machine.execCrcRx len s
  | .frameBuild => Sys2Proof.Machine.execFrameBuild s
  | .frameParse => Sys2Proof.Machine.execFrameParse s
  | .encRead => Sys2Proof.Machine.execEncRead s
  | .encWrite => Sys2Proof.Machine.execEncWrite s
  | .decRead => Sys2Proof.Machine.execDecRead s
  | .decWrite => Sys2Proof.Machine.execDecWrite s

end Sys2Proof.Machine
end

