-- ==== Sys2Proof/Machine/Bus.lean ====
section
/-! DEFINITION. The register window: which offset is which register, what a host read returns and what a host write does
(spec/10_state.md rules R20 to R40, spec/20_memory.md rules R60 to R72), and the command a CMD write runs (R21, R66). -/

namespace Sys2Proof.Machine

/-- What stands at an offset of the window (R20). A word of TXBUF or RXBUF and an entry of REGDATA carry their number. -/
inductive Slot where
  | cmd | status | crc | saddr | wpduLen | rpduLen | txCount | rxCount | regAddr | regCount | regValue
  | tx (k : Nat)
  | rx (k : Nat)
  | regdata (j : Nat)
  deriving DecidableEq, Repr

/-- The registers of the map of R20, each with its offset. -/
def registerMap : List (Nat × Slot) :=
  [ (0x000, .cmd), (0x004, .status), (0x008, .crc), (0x00C, .saddr), (0x010, .wpduLen), (0x014, .rpduLen),
    (0x018, .txCount), (0x01C, .rxCount), (0x020, .regAddr), (0x024, .regCount), (0x028, .regValue) ]

/-- The offset of a slot (R20, R35, R61). -/
def Slot.offset : Slot → Nat
  | .cmd => 0x000
  | .status => 0x004
  | .crc => 0x008
  | .saddr => 0x00C
  | .wpduLen => 0x010
  | .rpduLen => 0x014
  | .txCount => 0x018
  | .rxCount => 0x01C
  | .regAddr => 0x020
  | .regCount => 0x024
  | .regValue => 0x028
  | .tx k => 0x100 + 4 * k
  | .rx k => 0x200 + 4 * k
  | .regdata j => 0x400 + 4 * j

/-- The slot at an aligned offset; none at a reserved one (R20, R63). -/
def alignedSlot (o : Nat) : Option Slot :=
  if o < 0x02C then registerMap.lookup o
  else if o < 0x100 then none
  else if o < 0x200 then some (.tx ((o - 0x100) / 4))
  else if o < 0x300 then some (.rx ((o - 0x200) / 4))
  else if o < 0x400 then none
  else if o < 0x5F4 then some (.regdata ((o - 0x400) / 4))
  else none

/-- The slot an access addresses; none at an offset that is not a multiple of 4 or is reserved (R62, R63). -/
def slotAt (off : Offset) : Option Slot :=
  if off.toNat % 4 = 0 then alignedSlot off.toNat else none

/-- The word k of a 256-byte buffer, its four bytes in the lanes of R61. -/
def readLanes (b : Buffer) (m : Memory) (k : Nat) : Except Fault Word :=
  match readRun b m (4 * k) 4 with
  | .error f => .error f
  | .ok bytes => .ok (lanesWord bytes)

/-- Storing a bus word as word k of a 256-byte buffer: all four bytes are written (R61). -/
def writeLanes (k : Nat) (w : Word) (m : Memory) : Memory := Store.writeRun (4 * k) (laneBytes w) m

/-- What a host read of a slot returns: the register zero-extended (R26 to R39), CMD as 0 (R21), four buffer bytes (R61) or
an entry (R35). It changes nothing (R65). -/
def readSlot (slot : Slot) (s : State) : Except Fault Word :=
  match slot with
  | .cmd => .ok 0
  | .status => .ok (statusWord s)
  | .crc => .ok (s.crc.setWidth 32)
  | .saddr => .ok (s.saddr.setWidth 32)
  | .wpduLen => .ok (s.wpduLen.setWidth 32)
  | .rpduLen => .ok (s.rpduLen.setWidth 32)
  | .txCount => .ok (s.txCount.setWidth 32)
  | .rxCount => .ok (s.rxCount.setWidth 32)
  | .regAddr => .ok (s.regAddr.setWidth 32)
  | .regCount => .ok (s.regCount.setWidth 32)
  | .regValue => .ok (s.regValue.setWidth 32)
  | .tx k => readLanes .tx s.txbuf k
  | .rx k => readLanes .rx s.rxbuf k
  | .regdata j =>
    match readEntry .regdata s.regdata j with
    | .error f => .error f
    | .ok v => .ok (v.setWidth 32)

/-- A host write of a word to CMD runs the command it encodes (R21); an illegal word does `STATUS.ERR <- E_OPCODE` and
nothing else (R84). The word is not stored. -/
def runCommand (w : Word) (s : State) : Host.Outcome State Fault Refusal :=
  match decode w with
  | .ok i => exec i s
  | .error _ => raiseErr .eOpcode s

/-- A host write to a slot: the register keeps its low bits (R26 to R39), a buffer word its four bytes (R61), with the side
effects of R40. A write that R63 does not admit is a bus error. -/
def writeSlot (slot : Slot) (w : Word) (s : State) : Host.Outcome State Fault Refusal :=
  match slot with
  | .cmd => runCommand w s
  | .status => .fault .busError
  | .crc => .next { s with crc := w.setWidth 16 }
  | .saddr => .next (({ s with saddr := w.setWidth 8 } : State).setVerdict .vNone 0)
  | .wpduLen => .next (({ s with wpduLen := w.setWidth 8 } : State).setTxCount 0)
  | .rpduLen => .next (({ s with rpduLen := w.setWidth 8 } : State).setVerdict .vNone 0)
  | .txCount => .fault .busError
  | .rxCount => .next (({ s with rxCount := w.setWidth 9 } : State).setVerdict .vNone 0)
  | .regAddr => .next { s with regAddr := w.setWidth 16 }
  | .regCount => .next { s with regCount := w.setWidth 16 }
  | .regValue => .next { s with regValue := w.setWidth 16 }
  | .tx k => .next (({ s with txbuf := writeLanes k w s.txbuf } : State).setTxCount 0)
  | .rx k => .next (({ s with rxbuf := writeLanes k w s.rxbuf } : State).setVerdict .vNone 0)
  | .regdata _ => .fault .busError

/-- `REPLY <- r`: what the block answers the host. -/
def State.setReply (r : Reply) (s : State) : State := { s with reply := r }

/-- A host access that is 32 bits wide and addresses a slot. -/
def slotAccess (op : BusOp) (slot : Slot) (s : State) : Host.Outcome State Fault Refusal :=
  match op with
  | .read =>
    match readSlot slot s with
    | .error f => .fault f
    | .ok w => .next (s.setReply (.data w))
  | .write w => writeSlot slot w (s.setReply .done)

/-- One host access (R8, R62, R63): a bus error unless it is 32 bits wide and addresses a slot. -/
def access (a : Access) (s : State) : Host.Outcome State Fault Refusal :=
  if a.bits = 32 then
    match slotAt a.off with
    | some slot => slotAccess a.op slot s
    | none => .fault .busError
  else .fault .busError

/-- A reset, one atomic step (R220): every element of the block takes its reset value. What the host asks for afterwards
still waits (notes 8). -/
def takeReset (s : State) : State := { State.reset with bus := s.bus }

/-- Taking one input from outside. -/
def takeInput (input : Input) (s : State) : Host.Outcome State Fault Refusal :=
  match input with
  | .access a => access a s
  | .reset => .next (takeReset s)

/-- The window offset of a bus address: BASE + off for off from 0x000 to 0xFFF (R60); any other address is another
device's and does not reach the block (notes 7). -/
def windowOffset (addr : Nat) : Option Offset :=
  if Config.base ≤ addr ∧ addr < Config.base + 0x1000 then some (BitVec.ofNat 12 (addr - Config.base)) else none

/-- A host access at a bus address (`MemRead`, `MemWrite`, spec/00_scope.md R10) arrives at the block: it waits behind the
accesses before it (R68). -/
def State.request (bits addr : Nat) (op : BusOp) (s : State) : State :=
  match windowOffset addr with
  | some off => { s with bus := s.bus ++ [.access { bits := bits, off := off, op := op }] }
  | none => s

end Sys2Proof.Machine
end

