-- ==== Sys2Proof/Machine/Step.lean ====
section
/-! DEFINITION. One step of the machine: one host access (spec/00_scope.md rule R8), taken from the front of what waits on
the bus (spec/20_memory.md rule R68), or nothing where none waits. -/

namespace Sys2Proof.Machine

/-- One step: the oldest waiting input is taken; with none waiting the block does nothing (notes 1). -/
def step (s : State) : Host.Outcome State Fault Refusal :=
  match s.bus with
  | [] => .next s
  | input :: rest => takeInput input { s with bus := rest }

/-- s with the host about to write the command word w to CMD: the next step runs exactly it. The block fetches nothing
(spec/10_state.md R41); a program is the host's sequence of accesses (spec/30_encoding.md R92). Notes 1. -/
def State.withFetchWord (s : State) (nbits w : Nat) : State :=
  { s with bus := .access { bits := 32, off := 0, op := .write (BitVec.ofNat 32 (w % 2 ^ nbits)) } :: s.bus }

end Sys2Proof.Machine
end

