-- ==== Sys2Proof/Machine/Program.lean ====
section
/-! DEFINITION. Host programs: the syntax of spec/30_encoding.md rule R92 and the pseudo-instructions of rule R93, as lists of
host accesses. -/

namespace Sys2Proof.Machine

/-- `WR <reg>, <imm32>`: a 32-bit write at the register's offset (R92). -/
def wr (slot : Slot) (imm : Word) : Access :=
  { bits := 32, off := BitVec.ofNat 12 slot.offset, op := .write imm }

/-- `RD <reg>`: a 32-bit read at the register's offset (R92). -/
def rd (slot : Slot) : Access := { bits := 32, off := BitVec.ofNat 12 slot.offset, op := .read }

/-- `CMD <command>`: a write of its encoding to CMD (R92). -/
def cmd (i : Instr) : Access := wr .cmd (encode i)

/-- The bus address of an access: BASE + off (R60, R92). -/
def Access.address (a : Access) : Nat := Config.base + a.off.toNat

/-- The words that hold bytes from lane 0 of word k up; the last one padded with 0x00 bytes (R93). -/
def padWords (k : Nat) : List Byte → List (Nat × Word)
  | [] => []
  | [b0] => [(k, lanesWord [b0, 0x00, 0x00, 0x00])]
  | [b0, b1] => [(k, lanesWord [b0, b1, 0x00, 0x00])]
  | [b0, b1, b2] => [(k, lanesWord [b0, b1, b2, 0x00])]
  | b0 :: b1 :: b2 :: b3 :: rest => (k, lanesWord [b0, b1, b2, b3]) :: padWords (k + 1) rest

/-- `LOADTX b0, b1, ...` (R93). -/
def loadTx (bytes : List Byte) : List Access := (padWords 0 bytes).map fun kw => wr (.tx kw.1) kw.2

/-- `LOADRX b0, ..., b(c-1)`: the bytes, then RX_COUNT (R93). -/
def loadRx (bytes : List Byte) : List Access :=
  (padWords 0 bytes).map (fun kw => wr (.rx kw.1) kw.2) ++ [wr .rxCount (BitVec.ofNat 32 bytes.length)]

/-- `CRC16_TX <len>` (R93). -/
def crc16Tx (len : Nat) : List Access := [cmd .crcInit, cmd (.crcTx len)]

/-- `CRC16_RX <len>` (R93). -/
def crc16Rx (len : Nat) : List Access := [cmd .crcInit, cmd (.crcRx len)]

/-- `READREGS <addr>, <n>` (R93). -/
def readRegs (addr n : Half) : List Access :=
  [wr .regAddr (addr.setWidth 32), wr .regCount (n.setWidth 32), cmd .encRead]

/-- `WRITEREG <addr>, <value>` (R93). -/
def writeReg (addr value : Half) : List Access :=
  [wr .regAddr (addr.setWidth 32), wr .regValue (value.setWidth 32), cmd .encWrite]

/-- The effect of a program on the block when nothing else waits: its accesses, one after the other (R68). -/
def accesses : List Access → State → Host.Outcome State Fault Refusal
  | [], s => .next s
  | a :: rest, s =>
    match access a s with
    | .next s' => accesses rest s'
    | .fault f => .fault f
    | .refused r => .refused r

/-- The host's program waits on the bus, behind what waits there already. -/
def State.load (program : List Access) (s : State) : State := { s with bus := s.bus ++ program.map Input.access }

end Sys2Proof.Machine
end

