-- ==== Sys2Proof/Machine/Protocol.lean ====
section
/-! DEFINITION. The host protocol of spec/60_exceptions.md section 5 (rules R193 to R200): the transaction engine of the host,
which drives the block through bus accesses. It binds the host, not the block: nothing of it stands in State, and no
command uses it. What the serial channel answers in each attempt is data the environment chooses (U13). -/

namespace Sys2Proof.Machine

/-- The read timeouts of the channel, in milliseconds (R193, `setReadTimeouts`). -/
structure Timeouts where
  interval   : Nat
  multiplier : Nat
  constant   : Nat
  deriving DecidableEq, Repr

/-- The total timeout of a read of the given number of bytes (R193). -/
def Timeouts.total (t : Timeouts) (expectedBytes : Nat) : Nat := t.multiplier * expectedBytes + t.constant

/-- BACKOFF after attempt k: the constant grows; by how much, and whether the others change, is OPEN (R198, D22, notes 13). -/
def Timeouts.backoff (k : Nat) (t : Timeouts) : Timeouts where
  interval := Config.backoffInterval k t.interval
  multiplier := Config.backoffMultiplier k t.multiplier
  constant := t.constant + 1 + Config.backoffExtra k t.constant

/-- What the channel answers in one attempt: the count its write returns (-1 on error), whether clearReadBuffer succeeds,
and the bytes its read returns (none for -1, a hard I/O error) (R194 to R196). -/
structure ChannelAttempt where
  written  : Int
  clearOk  : Bool
  received : Option (List Byte)
  deriving DecidableEq, Repr

/-- The exception names the source lists, in its words, each with its code (R183). -/
def listedExceptionNames : List (Byte × String) :=
  [ (1, "ILLEGAL FUNCTION"), (2, "ILLEGAL DATA ADDRESS"), (3, "ILLEGAL DATA VALUE"), (4, "SLAVE/SERVER FAILURE"),
    (5, "ACKNOWLEDGE"), (6, "SLAVE/SERVER BUSY"), (7, "NEGATIVE ACKNOWLEDGE"), (8, "MEMORY PARITY"),
    (10, "GATEWAY PATH UNAVAILABLE"), (11, "GATEWAY TARGET FAILED TO RESPOND") ]

/-- The name the host logs for an exception code in the given entry of its log: the source's name, and any value where the
source leaves the name undefined (R183, U2, notes 21). -/
def exceptionName (entry : Nat) (code : Byte) : String :=
  match listedExceptionNames.lookup code with
  | some name => name
  | none => Config.otherExceptionName entry code

/-- The host's transaction engine with its block: the timeouts in force (R230), the frames it handed to the channel and the
exception names it logged, each oldest first. -/
structure Engine where
  block    : State
  timeouts : Timeouts
  sent     : List (List Byte)
  log      : List String
  deriving DecidableEq, Repr

/-- How one attempt ends (R194 to R197). -/
inductive AttemptEnd where
  | success | retry | fatal
  deriving DecidableEq, Repr

/-- How a transaction ends (R199); waiting: the channel has not answered the next attempt yet. -/
inductive TransactionEnd where
  | success | failed | waiting
  deriving DecidableEq, Repr

/-- A result of the engine over the block, or the block's own stop. -/
abbrev Engine.Result (α : Type) := Host.Outcome (α × Engine) Fault Refusal

/-- The transmit-attempt budget: a configured value below 1 acts as 1 (R193, D23). -/
def attemptBudget (configured : Int) : Nat := max 1 configured.toNat

/-- The default of the transmit-attempt budget (R193). -/
def defaultAttempts : Int := 5

/-- Acting on the verdict of attempt k (R197). V_NONE is no verdict of a completed parse; it ends the transaction
(notes 14). -/
def actOnVerdict (k : Nat) (e : Engine) : AttemptEnd × Engine :=
  match e.block.verdict with
  | .vOk => (.success, e)
  | .vNoResponse => (.fatal, e)
  | .vException => (.retry, { e with log := e.log ++ [exceptionName e.log.length e.block.excCode] })
  | .vBadLength => (.retry, { e with timeouts := e.timeouts.backoff k })
  | .vCrcError => (.retry, e)
  | .vAddrMismatch => (.retry, e)
  | .vNone => (.fatal, e)

/-- Receiving in attempt k (R196): -1 ends the attempt with no write to the block; else at most E bytes go to RXBUF, their
count to RX_COUNT, and FRAME_PARSE runs. An error of FRAME_PARSE itself ends the transaction (notes 14). -/
def receive (k : Nat) (received : Option (List Byte)) (e : Engine) : Engine.Result AttemptEnd :=
  match received with
  | none => .next (.retry, e)
  | some bytes =>
    match accesses (loadRx (bytes.take (expectedAdu e.block.rpduLen)) ++ [cmd .frameParse]) e.block with
    | .fault f => .fault f
    | .refused r => .refused r
    | .next s =>
      if s.err = .ok then .next (actOnVerdict k { e with block := s }) else .next (.fatal, { e with block := s })

/-- Attempt k (R194 to R197): send TX[0..TX_COUNT), clear the channel's read buffer, receive. Notes 15. -/
def attempt (k : Nat) (ch : ChannelAttempt) (e : Engine) : Engine.Result AttemptEnd :=
  match readTx 0 e.block.txCount.toNat e.block with
  | .error f => .fault f
  | .ok frame =>
    if ch.written ≠ frame.length then .next (.retry, { e with sent := e.sent ++ [frame] })
    else if ch.clearOk then receive k ch.received { e with sent := e.sent ++ [frame] }
    else .next (.fatal, { e with sent := e.sent ++ [frame] })

/-- Attempts from number k on, at most `left` of them, against the channel's answers in order (R197, R199). -/
def attempts : (left k : Nat) → List ChannelAttempt → Engine → Engine.Result TransactionEnd
  | 0, _, _, e => .next (.failed, e)
  | _ + 1, _, [], e => .next (.waiting, e)
  | left + 1, k, ch :: chs, e =>
    match attempt k ch e with
    | .fault f => .fault f
    | .refused r => .refused r
    | .next (.success, e') => .next (.success, e')
    | .next (.fatal, e') => .next (.failed, e')
    | .next (.retry, e') => attempts left (k + 1) chs e'

/-- A transaction (R194 to R199): with TX_COUNT = 0 it fails at once, with no attempt and no transmission. -/
def transaction (configured : Int) (chs : List ChannelAttempt) (e : Engine) : Engine.Result TransactionEnd :=
  if e.block.txCount = 0 then .next (.failed, e) else attempts (attemptBudget configured) 1 chs e

/-- A whole register operation: an encode, the transaction, and on success the decode command, whose error fails the
operation with no retry (R157, R199, spec/90_conflicts.md C6). -/
def operation (encoding : List Access) (decoding : Instr) (configured : Int) (chs : List ChannelAttempt) (e : Engine) :
    Engine.Result TransactionEnd :=
  match accesses encoding e.block with
  | .fault f => .fault f
  | .refused r => .refused r
  | .next s =>
    match transaction configured chs { e with block := s } with
    | .next (.success, e') =>
      match access (cmd decoding) e'.block with
      | .fault f => .fault f
      | .refused r => .refused r
      | .next t => .next (if t.err = .ok then .success else .failed, { e' with block := t })
    | other => other

/-- ReadHoldingRegisters(addr, n) (R157). Its result is REGDATA[0..n). -/
def readHoldingRegisters (addr n : Half) : Int → List ChannelAttempt → Engine → Engine.Result TransactionEnd :=
  operation (readRegs addr n) .decRead

/-- WriteSingleRegister(addr, value) (R157). -/
def writeSingleRegister (addr value : Half) : Int → List ChannelAttempt → Engine → Engine.Result TransactionEnd :=
  operation (writeReg addr value) .decWrite

end Sys2Proof.Machine
end

