-- ==== Sys2Proof/Safety.lean ====
section
/-! DEFINITION. What counts as a safe state of the block, and the words in which claims speak of its memories. -/

namespace Sys2Proof.Machine

/-! ### Memories -/

/-- Entries i, i+1, ... of m are written and hold the listed values (spec/00_scope.md R9: B[i..i+n)). -/
def Store.Holds {α : Type} (i : Nat) (vs : List α) (m : Store α) : Prop :=
  ∀ k < vs.length, Store.read (i + k) m = vs[k]?

/-- Every entry from index i up reads the same in both. -/
def Store.SameFrom {α : Type} (i : Nat) (m m' : Store α) : Prop := ∀ j, i ≤ j → Store.read j m' = Store.read j m

/-- Every written entry of m is written in m' (spec/10_state.md R33: "stays written until the next reset"). -/
def Store.StaysWritten {α : Type} (m m' : Store α) : Prop := ∀ j, (Store.read j m).isSome → (Store.read j m').isSome

/-! ### Invariants -/

/-- The exception fields are nonzero only under V_EXCEPTION, and EXC_KNOWN follows EXC_CODE (spec/10_state.md R25). -/
def ExceptionFieldsFit (s : State) : Prop :=
  if s.verdict = .vException then s.excKnown = isKnownCode s.excCode else s.excCode = 0 ∧ s.excKnown = false

/-- TXBUF holds a frame ready to send: TX_COUNT is WPDU_LEN + 3, from 4 to 256, and TX[0..TX_COUNT) is written and ends in
the CRC of what comes before (spec/10_state.md R30, R40, spec/30_encoding.md R86). -/
def FrameReady (s : State) : Prop :=
  s.txCount.toNat = s.wpduLen.toNat + 3 ∧ 4 ≤ s.txCount.toNat ∧ s.txCount.toNat ≤ 256 ∧
    ∃ adu, readTx 0 s.txCount.toNat s = .ok adu ∧ frameCrcOk adu = true

/-- The verdict and exception code are what FRAME_PARSE would find now: a parse result stands only for the RXBUF, RX_COUNT,
RPDU_LEN and SADDR it was computed from (spec/70_reset_and_hazards.md R227). -/
def VerdictStands (s : State) : Prop :=
  badServerAddress s = false ∧ badPduLen s.rpduLen = false ∧ s.rxCount.toNat ≤ 256 ∧
    parseFrame s = .ok (s.verdict, s.excCode)

/-- The invariant of the block: its memories are in canonical form and within their sizes, the exception fields fit the
verdict, a nonzero TX_COUNT marks a valid frame, and a verdict other than V_NONE still stands. -/
structure Inv (s : State) : Prop where
  txbuf_wf : Memory.wf s.txbuf = true
  rxbuf_wf : Memory.wf s.rxbuf = true
  regdata_wf : Store.wf regdataSize s.regdata = true
  exception_fields : ExceptionFieldsFit s
  frame_ready : s.txCount ≠ 0 → FrameReady s
  verdict_stands : s.verdict ≠ .vNone → VerdictStands s

/-! ### Steps by the host -/

/-- A host access that writes a word to CMD which decodes to FRAME_PARSE. -/
def Access.parses (a : Access) : Bool :=
  match a.op with
  | .read => false
  | .write w => a.off == 0 && decide (encode .frameParse = w)

/-- The state in which the host's next access is the given one. -/
def State.facing (a : Access) (rest : List Input) (s : State) : State := { s with bus := .access a :: rest }

end Sys2Proof.Machine
end

