-- ==== Sys2Proof/Certificates/Slice0/Obligations.lean ====
section
/-! DEFINITION. The statements for the provers. Each docstring names the rule of spec/ it formalises. Where a statement
rests on the model's own choice, its docstring says so and names the log entry. -/

open Sys2Proof Sys2Proof.Machine

/-! ### Encoding (spec/30_encoding.md) -/

/-- R80 to R83, R91: no bit of a command word is dropped. -/
def Obligations.DecodeOfEncode : Prop :=
  ∀ i : Instr, i.wellFormed = true → decode (encode i) = .ok i

/-- R85: each legal word has one meaning, so encoding what was decoded gives the word back. -/
def Obligations.EncodeOfDecode : Prop :=
  ∀ (w : Word) (i : Instr), decode w = .ok i → encode i = w ∧ i.wellFormed = true

/-- R85: "at most one row of rule R83 matches, because the match values differ in w[7:0] and every mask covers w[7:0]"; the
row that matches gives the command, and with none the word is illegal. -/
def Obligations.DecodingIsTotalAndUnambiguous : Prop :=
  (opcodeMap.map fun r => r.matchWord.extractLsb' 0 8).Nodup ∧
  (∀ r ∈ opcodeMap, r.mask.extractLsb' 0 8 = 0xFF) ∧
  ∀ w : Word,
    (opcodeMap.filter (·.selects w)).length ≤ 1 ∧
    (∀ r ∈ opcodeMap, r.selects w = true → decode w = .ok (r.instr w)) ∧
    ((∀ r ∈ opcodeMap, r.selects w = false) → ∃ why, decode w = .error why)

/-- R91 and the rules of the commands: command words written out from the spec. -/
def Obligations.CommandWordsDecode : Prop :=
  decode 0x00000000 = .ok .nop ∧ decode 0x00000001 = .ok .crcInit ∧ decode 0x00005A02 = .ok (.crcByte 0x5A) ∧
  decode 0x00060003 = .ok (.crcTx 6) ∧ decode 0x01FF0003 = .ok (.crcTx 511) ∧ decode 0x00050004 = .ok (.crcRx 5) ∧
  decode 0x00000010 = .ok .frameBuild ∧ decode 0x00000011 = .ok .frameParse ∧ decode 0x00000020 = .ok .encRead ∧
  decode 0x00000021 = .ok .encWrite ∧ decode 0x00000022 = .ok .decRead ∧ decode 0x00000023 = .ok .decWrite

/-- R84: a word that matches no row is illegal, which covers an unassigned OP and a listed OP with a nonzero bit where its
format requires 0; the step that takes such a word writes E_OPCODE and changes no other state (`bus` and `reply` are the
model's own fields, notes 1 and 2). -/
def Obligations.IllegalWordOnlyWritesErr : Prop :=
  ∀ w : Word,
    ((let op := w.extractLsb' 0 8
      let arg8 := w.extractLsb' 8 8
      let len9 := w.extractLsb' 16 9
      let top := w.extractLsb' 25 7
      op ∉ ([0x00, 0x01, 0x02, 0x03, 0x04, 0x10, 0x11, 0x20, 0x21, 0x22, 0x23] : List Byte) ∨
      top ≠ 0 ∨ (op ≠ 0x02 ∧ arg8 ≠ 0) ∨ (op ≠ 0x03 ∧ op ≠ 0x04 ∧ len9 ≠ 0)) →
      ∀ r ∈ opcodeMap, r.selects w = false) ∧
    ((∀ r ∈ opcodeMap, r.selects w = false) → ∀ (s : State) (rest : List Input),
      step (s.facing ⟨32, 0x000, .write w⟩ rest) = .next { s with bus := rest, reply := .done, err := .eOpcode })

/-! ### Steps, reset and the bus (spec/10_state.md, spec/20_memory.md, spec/70_reset_and_hazards.md) -/

/-- R21: "A host write of a 32-bit word w to CMD runs the command that w encodes", and the word is not stored. Around exec,
the step takes the access off the bus and answers it (the model's own fields, notes 1 and 2). R21 also: a read of CMD returns 0 and changes nothing. -/
def Obligations.StepRunsDecodedCommand : Prop :=
  ∀ (s : State) (rest : List Input),
    (∀ (w : Word) (i : Instr), decode w = .ok i →
      step (s.facing ⟨32, 0x000, .write w⟩ rest) = exec i { s with bus := rest, reply := .done }) ∧
    step (s.facing ⟨32, 0x000, .read⟩ rest) = .next { s with bus := rest, reply := .data 0 }

/-- The model's choice (notes 1): with no access waiting, a step changes nothing. -/
def Obligations.IdleStepChangesNothing : Prop :=
  ∀ s : State, s.bus = [] → step s = .next s

/-- R220: reset puts every state element to its reset value, in one step, and no host access is taken during it (the
accesses behind it still wait: notes 8). -/
def Obligations.ResetStepRestoresResetValues : Prop :=
  ∀ (s : State) (rest : List Input), s.bus = .reset :: rest →
    ∃ t, step s = .next t ∧ t = { State.reset with bus := rest } ∧ statusWord t = 0x00000000 ∧
      t.err = .ok ∧ t.verdict = .vNone ∧ t.excCode = 0 ∧ t.excKnown = false ∧ t.crc = 0xFFFF ∧
      t.saddr = 0 ∧ t.wpduLen = 0 ∧ t.rpduLen = 0 ∧ t.txCount = 0 ∧ t.rxCount = 0 ∧
      t.regAddr = 0 ∧ t.regCount = 0 ∧ t.regValue = 0 ∧
      (∀ i, Store.read i t.txbuf = none) ∧ (∀ i, Store.read i t.rxbuf = none) ∧ (∀ j, Store.read j t.regdata = none)

/-- R66, R68: the block takes accesses one at a time, in the order it receives them; running the steps of a program that
waits on the bus is running its accesses one after the other. -/
def Obligations.StepsTakeAccessesInOrder : Prop :=
  ∀ (program : List Access) (s : State), s.bus = [] →
    Host.Core.run core program.length (s.load program) = accesses program s

/-- R63: exactly the accesses the window does not admit are bus errors. -/
def Obligations.BusErrorExactlyWhenNotAdmitted : Prop :=
  ∀ (a : Access) (s : State) (rest : List Input),
    let o := a.off.toNat
    step (s.facing a rest) = .fault .busError ↔
      a.bits ≠ 32 ∨ o % 4 ≠ 0 ∨
      (0x02C ≤ o ∧ o ≤ 0x0FF) ∨ (0x300 ≤ o ∧ o ≤ 0x3FF) ∨ (0x5F4 ≤ o ∧ o ≤ 0xFFF) ∨
      ((∃ w, a.op = .write w) ∧ (o = 0x004 ∨ o = 0x018 ∨ (0x400 ≤ o ∧ o ≤ 0x5F3)))

/-- R60: the window is the bus addresses BASE to BASE + 0xFFF, whatever multiple of 0x1000 BASE is. -/
def Obligations.WindowIsFourKiBAtBase : Prop :=
  Config.base % 0x1000 = 0 ∧
  (∀ off : Offset, windowOffset (Config.base + off.toNat) = some off) ∧
  (∀ addr, addr < Config.base ∨ Config.base + 0x1000 ≤ addr → windowOffset addr = none) ∧
  (∀ (a : Access) (s : State), s.request a.bits a.address a.op = { s with bus := s.bus ++ [.access a] })

/-- R22: the layout of STATUS as a host reads it, with its reserved bits 0; a host write to it is a bus error. -/
def Obligations.StatusLayout : Prop :=
  ∀ (s : State) (rest : List Input), (∀ w, step (s.facing ⟨32, 0x004, .write w⟩ rest) = .fault .busError) ∧ ∃ w : Word,
    step (s.facing ⟨32, 0x004, .read⟩ rest) = .next { s with bus := rest, reply := .data w } ∧
    w.extractLsb' 0 4 = s.err.code ∧ w.extractLsb' 4 4 = 0 ∧ w.extractLsb' 8 4 = s.verdict.code ∧
    w.extractLsb' 12 4 = 0 ∧ w.extractLsb' 16 8 = s.excCode ∧ w.getLsbD 24 = s.excKnown ∧ w.extractLsb' 25 7 = 0

/-- R26 to R31, R36 to R39: what a host read of each register returns, zero-extended. -/
def Obligations.RegisterReadsReturnZeroExtended : Prop :=
  ∀ (s : State) (rest : List Input),
    let answers (off : Offset) (w : Word) : Prop :=
      step (s.facing ⟨32, off, .read⟩ rest) = .next { s with bus := rest, reply := .data w }
    answers 0x008 (BitVec.ofNat 32 s.crc.toNat) ∧ answers 0x00C (BitVec.ofNat 32 s.saddr.toNat) ∧
    answers 0x010 (BitVec.ofNat 32 s.wpduLen.toNat) ∧ answers 0x014 (BitVec.ofNat 32 s.rpduLen.toNat) ∧
    answers 0x018 (BitVec.ofNat 32 s.txCount.toNat) ∧ answers 0x01C (BitVec.ofNat 32 s.rxCount.toNat) ∧
    answers 0x020 (BitVec.ofNat 32 s.regAddr.toNat) ∧ answers 0x024 (BitVec.ofNat 32 s.regCount.toNat) ∧
    answers 0x028 (BitVec.ofNat 32 s.regValue.toNat)

/-- R40: the side effects of host writes, and that no other host write changes any state except its own target; a host
read changes nothing. -/
def Obligations.HostWritesHaveOnlyTheListedSideEffects : Prop :=
  ∀ (s : State) (rest : List Input) (w : Word),
    let s' := { s with bus := rest, reply := .done }
    let noVerdict (t : State) : State := { t with verdict := .vNone, excCode := 0, excKnown := false }
    let writes (off : Offset) (t : State) : Prop := step (s.facing ⟨32, off, .write w⟩ rest) = .next t
    writes 0x008 { s' with crc := w.extractLsb' 0 16 } ∧
    writes 0x00C (noVerdict { s' with saddr := w.extractLsb' 0 8 }) ∧
    writes 0x010 { s' with wpduLen := w.extractLsb' 0 8, txCount := 0 } ∧
    writes 0x014 (noVerdict { s' with rpduLen := w.extractLsb' 0 8 }) ∧
    writes 0x01C (noVerdict { s' with rxCount := w.extractLsb' 0 9 }) ∧
    writes 0x020 { s' with regAddr := w.extractLsb' 0 16 } ∧
    writes 0x024 { s' with regCount := w.extractLsb' 0 16 } ∧
    writes 0x028 { s' with regValue := w.extractLsb' 0 16 } ∧
    (∀ k < 64, ∃ t, writes (BitVec.ofNat 12 (0x100 + 4 * k)) t ∧
      { t with txbuf := s.txbuf } = { s' with txCount := 0 }) ∧
    (∀ k < 64, ∃ t, writes (BitVec.ofNat 12 (0x200 + 4 * k)) t ∧ { t with rxbuf := s.rxbuf } = noVerdict s') ∧
    (∀ (a : Access) (t : State), a.op = .read → step (s.facing a rest) = .next t →
      { t with reply := s.reply } = { s with bus := rest })

/-- R61: the byte lanes of TXBUF and RXBUF, written and read by words. A read with an unwritten byte ends in fault
UNWRITTEN. -/
def Obligations.BufferWordsUseLittleEndianLanes : Prop :=
  ∀ (s : State) (rest : List Input) (k : Nat), k < 64 →
    (∀ w : Word, ∃ t, step (s.facing ⟨32, BitVec.ofNat 12 (0x100 + 4 * k), .write w⟩ rest) = .next t ∧
      Store.Holds (4 * k) [w.extractLsb' 0 8, w.extractLsb' 8 8, w.extractLsb' 16 8, w.extractLsb' 24 8] t.txbuf ∧
      (∀ j, j < 4 * k ∨ 4 * k + 4 ≤ j → Store.read j t.txbuf = Store.read j s.txbuf) ∧ t.rxbuf = s.rxbuf) ∧
    (∀ w : Word, ∃ t, step (s.facing ⟨32, BitVec.ofNat 12 (0x200 + 4 * k), .write w⟩ rest) = .next t ∧
      Store.Holds (4 * k) [w.extractLsb' 0 8, w.extractLsb' 8 8, w.extractLsb' 16 8, w.extractLsb' 24 8] t.rxbuf ∧
      (∀ j, j < 4 * k ∨ 4 * k + 4 ≤ j → Store.read j t.rxbuf = Store.read j s.rxbuf) ∧ t.txbuf = s.txbuf) ∧
    (∀ b0 b1 b2 b3 : Byte, Store.Holds (4 * k) [b0, b1, b2, b3] s.txbuf →
      step (s.facing ⟨32, BitVec.ofNat 12 (0x100 + 4 * k), .read⟩ rest) =
        .next { s with bus := rest, reply := .data (b3 ++ b2 ++ b1 ++ b0) }) ∧
    (∀ b0 b1 b2 b3 : Byte, Store.Holds (4 * k) [b0, b1, b2, b3] s.rxbuf →
      step (s.facing ⟨32, BitVec.ofNat 12 (0x200 + 4 * k), .read⟩ rest) =
        .next { s with bus := rest, reply := .data (b3 ++ b2 ++ b1 ++ b0) }) ∧
    ((∃ i, 4 * k ≤ i ∧ i < 4 * k + 4 ∧ Store.read i s.txbuf = none) →
      ∃ i, step (s.facing ⟨32, BitVec.ofNat 12 (0x100 + 4 * k), .read⟩ rest) = .fault (.unwritten .tx i)) ∧
    ((∃ i, 4 * k ≤ i ∧ i < 4 * k + 4 ∧ Store.read i s.rxbuf = none) →
      ∃ i, step (s.facing ⟨32, BitVec.ofNat 12 (0x200 + 4 * k), .read⟩ rest) = .fault (.unwritten .rx i))

/-- R61, R71: a word written to TXBUF or RXBUF is what the next read of it returns. -/
def Obligations.BufferReadAfterWrite : Prop :=
  ∀ (s t : State) (rest rest' : List Input) (k : Nat) (base : Nat) (w : Word), k < 64 → base = 0x100 ∨ base = 0x200 →
    step (s.facing ⟨32, BitVec.ofNat 12 (base + 4 * k), .write w⟩ rest) = .next t →
    step (t.facing ⟨32, BitVec.ofNat 12 (base + 4 * k), .read⟩ rest') =
      .next { t with bus := rest', reply := .data w }

/-- R35: entry j of REGDATA is read at 0x400 + 4j, zero-extended; only DEC_READ writes entries, those below
REG_COUNT, all of them; a host write is a bus error; an unwritten entry is fault UNWRITTEN (R33). -/
def Obligations.RegdataIsReadOnlyEntries : Prop :=
  (∀ (s : State) (rest : List Input) (j : Nat), j < 125 →
    let off : Offset := BitVec.ofNat 12 (0x400 + 4 * j)
    (∀ v, Store.read j s.regdata = some v →
      step (s.facing ⟨32, off, .read⟩ rest) = .next { s with bus := rest, reply := .data (BitVec.ofNat 32 v.toNat) }) ∧
    (Store.read j s.regdata = none → step (s.facing ⟨32, off, .read⟩ rest) = .fault (.unwritten .regdata j)) ∧
    (∀ w, step (s.facing ⟨32, off, .write w⟩ rest) = .fault .busError)) ∧
  (∀ (s t : State), step s = .next t → t.regdata ≠ s.regdata →
    (∃ rest, s.bus = .reset :: rest) ∨
    (∃ rest, s.bus = .access ⟨32, 0x000, .write (encode .decRead)⟩ :: rest ∧
      (∀ j < s.regCount.toNat, (Store.read j t.regdata).isSome = true) ∧
      ∀ j, s.regCount.toNat ≤ j → Store.read j t.regdata = Store.read j s.regdata))

/-- R39: in a read/write register the bits above its width are ignored on a host write and read as 0: the next read returns
the low bits written. In STATUS the reserved bits read as 0. -/
def Obligations.UpperBitsAreIgnoredAndReadAsZero : Prop :=
  (∀ (s : State) (w : Word) (rest rest' : List Input),
    ∀ reg ∈ ([(0x008, 16), (0x00C, 8), (0x010, 8), (0x014, 8), (0x01C, 9), (0x020, 16), (0x024, 16), (0x028, 16)] :
        List (Offset × Nat)),
      ∃ t, step (s.facing ⟨32, reg.1, .write w⟩ rest) = .next t ∧
        step (t.facing ⟨32, reg.1, .read⟩ rest') =
          .next { t with bus := rest', reply := .data (BitVec.ofNat 32 (w.toNat % 2 ^ reg.2)) }) ∧
  (∀ s : State, statusWord s &&& 0xFE00F0F0 = 0)

/-- R65: a host read has no side effect, and a second read of the same offset, with no write between, returns the same
value. -/
def Obligations.RepeatedReadsAgree : Prop :=
  ∀ (a : Access) (s t : State) (rest rest' : List Input), a.op = .read → step (s.facing a rest) = .next t →
    ∃ w, t = { s with bus := rest, reply := .data w } ∧
      step (t.facing a rest') = .next { t with bus := rest', reply := .data w }

/-! ### Rules about every command -/

/-- R23: STATUS.ERR is written by every command (the old value has no influence) and only by commands; it is not sticky;
its codes are 0 to 8, never 9 to 15. -/
def Obligations.ErrIsWrittenByEveryCommandAndOnlyByCommands : Prop :=
  (∀ (i : Instr) (s t : State) (e : Err), exec i s = .next t → exec i { s with err := e } = .next t) ∧
  (∀ (a : Access) (s t : State) (rest : List Input), ¬ (a.off = 0 ∧ ∃ w, a.op = .write w) →
    step (s.facing a rest) = .next t → t.err = s.err) ∧
  Err.ok.code = 0 ∧ Err.eOpcode.code = 1 ∧ Err.eRange.code = 2 ∧ Err.eAddr.code = 3 ∧ Err.eCount.code = 4 ∧
  Err.eWrap.code = 5 ∧ Err.eFrame.code = 6 ∧ Err.eByteCount.code = 7 ∧ Err.eEcho.code = 8 ∧
  ∀ e : Err, e.code.toNat ≤ 8

/-- R181: a failed command writes its code, TX_COUNT <- 0 if it is FRAME_BUILD, ENC_READ or ENC_WRITE, and nothing else. -/
def Obligations.FailedCommandChangesNothingElse : Prop :=
  ∀ (i : Instr) (s t : State), exec i s = .next t → t.err ≠ .ok →
    t = if i = .frameBuild ∨ i = .encRead ∨ i = .encWrite then { s with err := t.err, txCount := 0 }
        else { s with err := t.err }

/-- R182: a command ends in a next state or in fault UNWRITTEN, never in a bus error or a refusal. -/
def Obligations.CommandsOnlyFaultOnUnwritten : Prop :=
  ∀ (i : Instr) (s : State),
    (∃ t, exec i s = .next t) ∨
    (∃ b j, exec i s = .fault (.unwritten b j) ∧
      ((b = .tx ∧ Store.read j s.txbuf = none) ∨ (b = .rx ∧ Store.read j s.rxbuf = none)))

/-- R24: only FRAME_PARSE writes a verdict other than V_NONE; FRAME_BUILD, ENC_READ and ENC_WRITE write V_NONE when they
complete, and so do the host writes of R40; the codes are 0 to 6, never 7 to 15. -/
def Obligations.OnlyFrameParseSetsAVerdict : Prop :=
  (∀ (a : Access) (s t : State) (rest : List Input), a.parses = false → step (s.facing a rest) = .next t →
    t.verdict = s.verdict ∨ t.verdict = .vNone) ∧
  (∀ (i : Instr) (s t : State), i = .frameBuild ∨ i = .encRead ∨ i = .encWrite → exec i s = .next t →
    t.err = .ok → t.verdict = .vNone) ∧
  (∀ (a : Access) (s t : State) (rest : List Input) (w : Word), a.op = .write w →
    a.off = 0x00C ∨ a.off = 0x014 ∨ a.off = 0x01C ∨ (0x200 ≤ a.off.toNat ∧ a.off.toNat ≤ 0x2FF) →
    step (s.facing a rest) = .next t → t.verdict = .vNone) ∧
  Verdict.vNone.code = 0 ∧ Verdict.vOk.code = 1 ∧ Verdict.vNoResponse.code = 2 ∧ Verdict.vException.code = 3 ∧
  Verdict.vBadLength.code = 4 ∧ Verdict.vCrcError.code = 5 ∧ Verdict.vAddrMismatch.code = 6 ∧
  ∀ v : Verdict, v.code.toNat ≤ 6

/-- R25, R120: EXC_CODE and EXC_KNOWN are nonzero only while VERDICT is V_EXCEPTION, and EXC_KNOWN is 1 exactly for the
codes the source names: true after reset, written so by set_verdict, and kept by every step from every state. A step
leaves the three fields alone or writes them as set_verdict does. -/
def Obligations.ExceptionFieldsFollowVerdict : Prop :=
  let fit (s : State) : Prop :=
    (s.verdict ≠ .vException → s.excCode = 0 ∧ s.excKnown = false) ∧
    (s.verdict = .vException →
      (s.excKnown = true ↔ s.excCode ∈ ([1, 2, 3, 4, 5, 6, 7, 8, 10, 11] : List Byte)))
  fit State.reset ∧ (∀ s t : State, fit s → step s = .next t → fit t) ∧
  (∀ s t : State, step s = .next t →
    (t.verdict = s.verdict ∧ t.excCode = s.excCode ∧ t.excKnown = s.excKnown) ∨
    ∃ v code, t.verdict = (s.setVerdict v code).verdict ∧ t.excCode = (s.setVerdict v code).excCode ∧
      t.excKnown = (s.setVerdict v code).excKnown) ∧
  (∀ (s : State) (v : Verdict) (code : Byte),
    (v ≠ .vException → s.setVerdict v code = { s with verdict := v, excCode := 0, excKnown := false }) ∧
    s.setVerdict .vException code =
      { s with verdict := .vException, excCode := code
               excKnown := decide (code ∈ ([1, 2, 3, 4, 5, 6, 7, 8, 10, 11] : List Byte)) })

/-- R26: the CRC commands alone use the CRC register. The framer and register commands neither read nor write it: with
another value in it they do the same to everything else and leave that value. -/
def Obligations.FrameCommandsIgnoreCrcRegister : Prop :=
  ∀ (i : Instr) (s t : State),
    i = .frameBuild ∨ i = .frameParse ∨ i = .encRead ∨ i = .encWrite ∨ i = .decRead ∨ i = .decWrite →
    exec i s = .next t → t.crc = s.crc ∧ ∀ c, exec i { s with crc := c } = .next { t with crc := c }

/-- R34: no command writes RXBUF; a step changes it only in a host write to it or a reset. -/
def Obligations.OnlyTheHostWritesRxbuf : Prop :=
  (∀ (i : Instr) (s t : State), exec i s = .next t → t.rxbuf = s.rxbuf) ∧
  (∀ (a : Access) (s t : State) (rest : List Input), step (s.facing a rest) = .next t → t.rxbuf ≠ s.rxbuf →
    (∃ w, a.op = .write w) ∧ 0x200 ≤ a.off.toNat ∧ a.off.toNat ≤ 0x2FF)

/-- R33: a byte or entry stays written until the next reset, and is unwritten after it. -/
def Obligations.WrittenStaysWrittenUntilReset : Prop :=
  (∀ (a : Access) (s t : State) (rest : List Input), step (s.facing a rest) = .next t →
    Store.StaysWritten s.txbuf t.txbuf ∧ Store.StaysWritten s.rxbuf t.rxbuf ∧ Store.StaysWritten s.regdata t.regdata) ∧
  (∀ i, Store.read i State.reset.txbuf = none ∧ Store.read i State.reset.rxbuf = none ∧
    Store.read i State.reset.regdata = none)

/-- R27: SADDR stores any 8-bit value, and the four commands that use it fail with E_ADDR while it is 248 to 255. -/
def Obligations.ServerAddressRange : Prop :=
  (∀ (s : State) (rest : List Input) (w : Word), ∃ t,
    step (s.facing ⟨32, 0x00C, .write w⟩ rest) = .next t ∧ t.saddr = w.extractLsb' 0 8) ∧
  (∀ (i : Instr) (s : State), i = .frameBuild ∨ i = .frameParse ∨ i = .encRead ∨ i = .encWrite →
    ((∃ t, exec i s = .next t ∧ t.err = .eAddr) ↔ 248 ≤ s.saddr.toNat))

/-! ### CRC16 Engine (spec/40_crc.md) -/

/-- R106: NOP clears ERR and does nothing else. -/
def Obligations.NopOnlyClearsErr : Prop :=
  decode 0x00000000 = .ok .nop ∧ ∀ s : State, exec .nop s = .next { s with err := .ok }

/-- R102: CRC_INIT. -/
def Obligations.CrcInitLoadsInitialValue : Prop :=
  decode 0x00000001 = .ok .crcInit ∧ ∀ s : State, exec .crcInit s = .next { s with crc := 0xFFFF, err := .ok }

/-- R103: CRC_BYTE, its encoding, its effect, the words it makes illegal and its corner cases. -/
def Obligations.CrcByteFeedsOneByte : Prop :=
  (∀ (b : Byte) (s : State),
    decode (0x00000002 ||| BitVec.ofNat 32 (b.toNat * 256)) = .ok (.crcByte b) ∧
    exec (.crcByte b) s = .next { s with crc := crcUpdate s.crc b, err := .ok }) ∧
  (∀ (w : Word) (s : State), w.extractLsb' 0 8 = (0x02 : Byte) → w.extractLsb' 16 16 ≠ (0 : Half) →
    runCommand w s = .next { s with err := .eOpcode }) ∧
  crcUpdate 0xFFFF 0xFF = 0x00FF ∧ crcUpdate 0xFFFF 0x00 = 0x40BF ∧ crcUpdate 0xFFFF 0x01 = 0x807E

/-- R104: CRC_TX over n bytes: its encoding and the words it makes illegal; the fold of the written bytes; E_RANGE above
256; fault UNWRITTEN on an unwritten byte; its example. -/
def Obligations.CrcTxFoldsTransmitBuffer : Prop :=
  (∀ n ≤ 511, decode (0x00000003 ||| BitVec.ofNat 32 (n * 0x10000)) = .ok (.crcTx n)) ∧
  (∀ (w : Word) (s : State), w.extractLsb' 0 8 = (0x03 : Byte) →
    w.extractLsb' 8 8 ≠ (0 : Byte) ∨ w.extractLsb' 25 7 ≠ (0 : BitVec 7) → runCommand w s = .next { s with err := .eOpcode }) ∧
  [0x01, 0x03, 0x21, 0x02, 0x00, 0x02].foldl crcUpdate 0xFFFF = (0xF76F : Half) ∧
  (∀ (n : Nat) (s : State),
    (256 < n → exec (.crcTx n) s = .next { s with err := .eRange }) ∧
    (∀ bs : List Byte, n ≤ 256 → bs.length = n → Store.Holds 0 bs s.txbuf →
      exec (.crcTx n) s = .next { s with crc := bs.foldl crcUpdate s.crc, err := .ok }) ∧
    (n ≤ 256 → (∃ i < n, Store.read i s.txbuf = none) →
      ∃ i < n, Store.read i s.txbuf = none ∧ exec (.crcTx n) s = .fault (.unwritten .tx i)))

/-- R105: CRC_RX over n bytes: the same over RXBUF, with VERDICT unchanged; its example. -/
def Obligations.CrcRxFoldsReceiveBuffer : Prop :=
  (∀ n ≤ 511, decode (0x00000004 ||| BitVec.ofNat 32 (n * 0x10000)) = .ok (.crcRx n)) ∧
  (∀ (w : Word) (s : State), w.extractLsb' 0 8 = (0x04 : Byte) →
    w.extractLsb' 8 8 ≠ (0 : Byte) ∨ w.extractLsb' 25 7 ≠ (0 : BitVec 7) → runCommand w s = .next { s with err := .eOpcode }) ∧
  [0x01, 0x83, 0x02, 0xC0, 0xF1].foldl crcUpdate 0xFFFF = (0x0000 : Half) ∧
  (∀ (n : Nat) (s : State),
    (256 < n → exec (.crcRx n) s = .next { s with err := .eRange }) ∧
    (∀ bs : List Byte, n ≤ 256 → bs.length = n → Store.Holds 0 bs s.rxbuf →
      exec (.crcRx n) s = .next { s with crc := bs.foldl crcUpdate s.crc, err := .ok }) ∧
    (n ≤ 256 → (∃ i < n, Store.read i s.rxbuf = none) →
      ∃ i < n, Store.read i s.rxbuf = none ∧ exec (.crcRx n) s = .fault (.unwritten .rx i)))

/-- R100, R101, R110: the algorithm of crc_update, the fold of crc16 from 0xFFFF, and its computation in pieces: CRC_INIT,
CRC_TX, any number of CRC_BYTE, then CRC_RX give the crc16 of all the bytes in a row. -/
def Obligations.CrcFollowsTheAlgorithmInPieces : Prop :=
  (∀ (c : Half) (b : Byte),
    crcUpdate c b =
      Nat.iterate (fun c : Half => if c.getLsbD 0 then c >>> 1 ^^^ 0xA001 else c >>> 1) 8 (c ^^^ BitVec.ofNat 16 b.toNat)) ∧
  crc16 [] = 0xFFFF ∧ (∀ (bytes : List Byte) (b : Byte), crc16 (bytes ++ [b]) = crcUpdate (crc16 bytes) b) ∧
  (∀ a b : List Byte, b.foldl crcUpdate (crc16 a) = crc16 (a ++ b)) ∧
  (∀ (s : State) (tx mid rx : List Byte), tx.length ≤ 256 → rx.length ≤ 256 →
    Store.Holds 0 tx s.txbuf → Store.Holds 0 rx s.rxbuf →
    ∃ t, accesses (crc16Tx tx.length ++ mid.map (fun b => cmd (.crcByte b)) ++ [cmd (.crcRx rx.length)]) s = .next t ∧
      t.crc = crc16 (tx ++ mid ++ rx))

/-- R221: right after reset CRC_BYTE, CRC_TX and CRC_RX compute crc16 from the start, with no CRC_INIT. -/
def Obligations.CrcStartsAtInitialValueAfterReset : Prop :=
  State.reset.crc = 0xFFFF ∧
  ∀ s : State, s.crc = State.reset.crc →
    (∀ b, exec (.crcByte b) s = .next { s with crc := crc16 [b], err := .ok }) ∧
    (∀ bs : List Byte, bs.length ≤ 256 → Store.Holds 0 bs s.txbuf →
      exec (.crcTx bs.length) s = .next { s with crc := crc16 bs, err := .ok }) ∧
    (∀ bs : List Byte, bs.length ≤ 256 → Store.Holds 0 bs s.rxbuf →
      exec (.crcRx bs.length) s = .next { s with crc := crc16 bs, err := .ok })

/-- R108: crc16 is "equivalent to CRC-16/MODBUS, poly 0x8005 reflected": the division by 0x8005, high bit first, of the bit
reversed bytes from 0xFFFF, bit reversed at the end; and its check value over "123456789" is 0x4B37. -/
def Obligations.CrcEqualsUnreflectedDivision : Prop :=
  let shift (c : Half) : Half := if c.getMsbD 0 then c <<< 1 ^^^ 0x8005 else c <<< 1
  let update (c : Half) (b : Byte) : Half := Nat.iterate shift 8 (c ^^^ b.reverse.setWidth 16 <<< 8)
  (∀ bytes : List Byte, crc16 bytes = (bytes.foldl update 0xFFFF).reverse) ∧
  crc16 [0x31, 0x32, 0x33, 0x34, 0x35, 0x36, 0x37, 0x38, 0x39] = 0x4B37

/-- R109: a frame that carries its CRC low byte first has residue 0. -/
def Obligations.CrcResidueIsZero : Prop :=
  ∀ m : List Byte, crc16 (m ++ [(crc16 m).extractLsb' 0 8, (crc16 m).extractLsb' 8 8]) = 0x0000

/-! ### Framer and parser (spec/41_framer.md) -/

/-- R121, R122: FRAME_BUILD. Its checks in order, the frame it leaves, and that TXBUF beyond it and all other state are as
before; an unwritten PDU byte is a fault. -/
def Obligations.FrameBuildCompletesTheAdu : Prop :=
  decode 0x00000010 = .ok .frameBuild ∧
  ∀ s : State,
    let len := s.wpduLen.toNat
    (247 < s.saddr.toNat → exec .frameBuild s = .next { s with txCount := 0, err := .eAddr }) ∧
    (s.saddr.toNat ≤ 247 → len = 0 ∨ 253 < len →
      exec .frameBuild s = .next { s with txCount := 0, err := .eRange }) ∧
    (∀ pdu : List Byte, s.saddr.toNat ≤ 247 → 1 ≤ len → len ≤ 253 → pdu.length = len → Store.Holds 1 pdu s.txbuf →
      let k := crc16 (s.saddr :: pdu)
      ∃ t, exec .frameBuild s = .next t ∧
        Store.Holds 0 (s.saddr :: (pdu ++ [k.extractLsb' 0 8, k.extractLsb' 8 8])) t.txbuf ∧
        Store.SameFrom (len + 3) s.txbuf t.txbuf ∧
        { t with txbuf := s.txbuf } =
          { s with
            txCount := BitVec.ofNat 9 (len + 3), verdict := .vNone, excCode := 0, excKnown := false, err := .ok }) ∧
    (s.saddr.toNat ≤ 247 → 1 ≤ len → len ≤ 253 → (∃ i, 1 ≤ i ∧ i ≤ len ∧ Store.read i s.txbuf = none) →
      ∃ i, 1 ≤ i ∧ i ≤ len ∧ Store.read i s.txbuf = none ∧ exec .frameBuild s = .fault (.unwritten .tx i))

/-- R123, R124, R125: FRAME_PARSE. Its errors in order, and the verdict of each branch; nothing but STATUS changes. The
bytes each branch reads without doubt are faults when unwritten (notes 5 has the last CRC byte). -/
def Obligations.FrameParseClassifies : Prop :=
  decode 0x00000011 = .ok .frameParse ∧
  ∀ s : State,
    let e := s.rpduLen.toNat + 3
    let c := s.rxCount.toNat
    let legal := s.saddr.toNat ≤ 247 ∧ 1 ≤ s.rpduLen.toNat ∧ s.rpduLen.toNat ≤ 253 ∧ c ≤ 256
    let verdict (v : Verdict) : Prop :=
      exec .frameParse s = .next { s with verdict := v, excCode := 0, excKnown := false, err := .ok }
    (247 < s.saddr.toNat → exec .frameParse s = .next { s with err := .eAddr }) ∧
    (s.saddr.toNat ≤ 247 → s.rpduLen.toNat = 0 ∨ 253 < s.rpduLen.toNat ∨ 256 < c →
      exec .frameParse s = .next { s with err := .eRange }) ∧
    (legal → c = 0 → verdict .vNoResponse) ∧
    (∀ adu : List Byte, legal → c = e → adu.length = e → Store.Holds 0 adu s.rxbuf →
      let k := crc16 (adu.take (e - 2))
      let crcValid := adu[e - 2]? = some (k.extractLsb' 0 8) ∧ adu[e - 1]? = some (k.extractLsb' 8 8)
      (¬ crcValid → verdict .vCrcError) ∧
      (crcValid → adu[0]? ≠ some s.saddr → verdict .vAddrMismatch) ∧
      (crcValid → adu[0]? = some s.saddr → verdict .vOk)) ∧
    (∀ b0 b1 b2 b3 b4 : Byte, legal → c = 5 → c < e → Store.Holds 0 [b0, b1, b2, b3, b4] s.rxbuf →
      let k := crc16 [b0, b1, b2]
      let isException := b3 = k.extractLsb' 0 8 ∧ b4 = k.extractLsb' 8 8 ∧ 0x80 < b1.toNat
      (isException →
        exec .frameParse s =
          .next { s with
            verdict := .vException, excCode := b2, err := .ok
            excKnown := decide (b2 ∈ ([1, 2, 3, 4, 5, 6, 7, 8, 10, 11] : List Byte)) }) ∧
      (¬ isException → verdict .vBadLength)) ∧
    (legal → c ≠ 0 → c ≠ e → ¬ (c = 5 ∧ c < e) → verdict .vBadLength) ∧
    (legal → c = e → (∃ i < e - 1, Store.read i s.rxbuf = none) →
      ∃ i, exec .frameParse s = .fault (.unwritten .rx i)) ∧
    (∀ pre : List Byte, legal → c = e → pre.length = e - 1 → Store.Holds 0 pre s.rxbuf →
      pre[e - 2]? = some ((crc16 (pre.take (e - 2))).extractLsb' 0 8) → Store.read (e - 1) s.rxbuf = none →
      ∃ i, exec .frameParse s = .fault (.unwritten .rx i)) ∧
    (legal → c = 5 → c < e → (∃ i < 4, Store.read i s.rxbuf = none) →
      ∃ i, exec .frameParse s = .fault (.unwritten .rx i)) ∧
    (∀ b0 b1 b2 b3 : Byte, legal → c = 5 → c < e → Store.Holds 0 [b0, b1, b2, b3] s.rxbuf →
      b3 = (crc16 [b0, b1, b2]).extractLsb' 0 8 → Store.read 4 s.rxbuf = none →
      ∃ i, exec .frameParse s = .fault (.unwritten .rx i))

/-- The model's reading of R124 (notes 5): the branch a count chooses reads both CRC bytes, so an unwritten last byte is a
fault too, whatever the other bytes are. -/
def Obligations.FrameParseReadsTheWholeFrame : Prop :=
  ∀ (s : State) (i : Nat), s.saddr.toNat ≤ 247 → 1 ≤ s.rpduLen.toNat → s.rpduLen.toNat ≤ 253 →
    s.rxCount.toNat = s.rpduLen.toNat + 3 ∨ (s.rxCount.toNat = 5 ∧ 5 < s.rpduLen.toNat + 3) →
    i < s.rxCount.toNat → Store.read i s.rxbuf = none →
    ∃ j < s.rxCount.toNat, Store.read j s.rxbuf = none ∧ exec .frameParse s = .fault (.unwritten .rx j)

/-- R126: the frame round trip. After FRAME_BUILD completes, a block that received the built frame, expects its length and
has the same SADDR parses it to V_OK. -/
def Obligations.BuiltFrameParsesToOk : Prop :=
  ∀ s t u : State, exec .frameBuild s = .next t → t.err = .ok →
    u.saddr = s.saddr → u.rpduLen = s.wpduLen → u.rxCount = t.txCount →
    (∀ i < s.wpduLen.toNat + 3, Store.read i u.rxbuf = Store.read i t.txbuf) →
    exec .frameParse u = .next { u with verdict := .vOk, excCode := 0, excKnown := false, err := .ok }

/-! ### Register operations (spec/42_register_ops.md) -/

/-- R150: ENC_READ. Its checks in order, the request ADU, RPDU_LEN, and that nothing else changes. -/
def Obligations.EncReadBuildsTheRequest : Prop :=
  decode 0x00000020 = .ok .encRead ∧
  ∀ s : State,
    let a := s.regAddr
    let n := s.regCount
    let fails (e : Err) : Prop := exec .encRead s = .next { s with txCount := 0, err := e }
    (247 < s.saddr.toNat → fails .eAddr) ∧
    (s.saddr.toNat ≤ 247 → n.toNat < 1 ∨ 125 < n.toNat → fails .eCount) ∧
    (s.saddr.toNat ≤ 247 → 1 ≤ n.toNat → n.toNat ≤ 125 → 0xFFFF < a.toNat + n.toNat - 1 → fails .eWrap) ∧
    (s.saddr.toNat ≤ 247 → 1 ≤ n.toNat → n.toNat ≤ 125 → a.toNat + n.toNat - 1 ≤ 0xFFFF →
      let frame : List Byte :=
        [s.saddr, 0x03, a.extractLsb' 8 8, a.extractLsb' 0 8, n.extractLsb' 8 8, n.extractLsb' 0 8]
      let k := crc16 frame
      ∃ t, exec .encRead s = .next t ∧
        Store.Holds 0 (frame ++ [k.extractLsb' 0 8, k.extractLsb' 8 8]) t.txbuf ∧
        Store.SameFrom 8 s.txbuf t.txbuf ∧
        { t with txbuf := s.txbuf } =
          { s with
            wpduLen := 5, rpduLen := BitVec.ofNat 8 (2 + 2 * n.toNat), txCount := 8, verdict := .vNone
            excCode := 0, excKnown := false, err := .ok })

/-- R154, R155: ENC_WRITE. E_ADDR is its only error; every address and value is legal. -/
def Obligations.EncWriteBuildsTheRequest : Prop :=
  decode 0x00000021 = .ok .encWrite ∧
  ∀ s : State,
    let a := s.regAddr
    let v := s.regValue
    (247 < s.saddr.toNat → exec .encWrite s = .next { s with txCount := 0, err := .eAddr }) ∧
    (s.saddr.toNat ≤ 247 →
      let frame : List Byte :=
        [s.saddr, 0x06, a.extractLsb' 8 8, a.extractLsb' 0 8, v.extractLsb' 8 8, v.extractLsb' 0 8]
      let k := crc16 frame
      ∃ t, exec .encWrite s = .next t ∧
        Store.Holds 0 (frame ++ [k.extractLsb' 0 8, k.extractLsb' 8 8]) t.txbuf ∧
        Store.SameFrom 8 s.txbuf t.txbuf ∧
        { t with txbuf := s.txbuf } =
          { s with
            wpduLen := 5, rpduLen := 5, txCount := 8, verdict := .vNone, excCode := 0, excKnown := false, err := .ok })

/-- R152, R153: DEC_READ. Its checks in order, the registers it decodes, big-endian, and that only REGDATA[0..n) and ERR
change; and that under V_OK the bytes FRAME_PARSE read are written (in a state that meets the invariant). -/
def Obligations.DecReadDecodesTheRegisters : Prop :=
  decode 0x00000022 = .ok .decRead ∧
  (∀ s : State, Inv s → s.verdict = .vOk → ∀ i < s.rpduLen.toNat + 3, (Store.read i s.rxbuf).isSome = true) ∧
  ∀ s : State,
    let n := s.regCount.toNat
    let fails (e : Err) : Prop := exec .decRead s = .next { s with err := e }
    let accepted := s.verdict = .vOk ∧ 1 ≤ n ∧ n ≤ 125 ∧ s.rpduLen.toNat = 2 + 2 * n
    (s.verdict ≠ .vOk → fails .eFrame) ∧
    (s.verdict = .vOk → n < 1 ∨ 125 < n → fails .eCount) ∧
    (s.verdict = .vOk → 1 ≤ n → n ≤ 125 → s.rpduLen.toNat ≠ 2 + 2 * n → fails .eFrame) ∧
    (∀ b : Byte, accepted → Store.read 2 s.rxbuf = some b → b.toNat ≠ 2 * n → fails .eByteCount) ∧
    (∀ (b : Byte) (hi lo : Nat → Byte), accepted → Store.read 2 s.rxbuf = some b → b.toNat = 2 * n →
      (∀ j < n, Store.read (3 + 2 * j) s.rxbuf = some (hi j) ∧ Store.read (4 + 2 * j) s.rxbuf = some (lo j)) →
      ∃ t, exec .decRead s = .next t ∧ (∀ j < n, Store.read j t.regdata = some (hi j ++ lo j)) ∧
        Store.SameFrom n s.regdata t.regdata ∧ { t with regdata := s.regdata } = { s with err := .ok }) ∧
    (accepted → Store.read 2 s.rxbuf = none → exec .decRead s = .fault (.unwritten .rx 2)) ∧
    (∀ b : Byte, accepted → Store.read 2 s.rxbuf = some b → b.toNat = 2 * n →
      (∃ i, 3 ≤ i ∧ i < 3 + 2 * n ∧ Store.read i s.rxbuf = none) →
      ∃ i, 3 ≤ i ∧ i < 3 + 2 * n ∧ Store.read i s.rxbuf = none ∧ exec .decRead s = .fault (.unwritten .rx i))

/-- R156: DEC_WRITE. E_FRAME, then the comparison of RX[1..6) with TX[1..6) as TXBUF holds it now, up to the first
difference. -/
def Obligations.DecWriteChecksTheEcho : Prop :=
  decode 0x00000023 = .ok .decWrite ∧
  ∀ s : State,
    let ends (e : Err) : Prop := exec .decWrite s = .next { s with err := e }
    let accepted := s.verdict = .vOk ∧ s.rpduLen.toNat = 5
    let same (i : Nat) : Prop := ∃ b : Byte, Store.read i s.rxbuf = some b ∧ Store.read i s.txbuf = some b
    (s.verdict ≠ .vOk → ends .eFrame) ∧
    (s.verdict = .vOk → s.rpduLen.toNat ≠ 5 → ends .eFrame) ∧
    (accepted → (∀ i, 1 ≤ i → i ≤ 5 → same i) → ends .ok) ∧
    (∀ (i : Nat) (r t : Byte), accepted → 1 ≤ i → i ≤ 5 → (∀ j, 1 ≤ j → j < i → same j) →
      Store.read i s.rxbuf = some r → Store.read i s.txbuf = some t → r ≠ t → ends .eEcho) ∧
    (∀ i, accepted → 1 ≤ i → i ≤ 5 → (∀ j, 1 ≤ j → j < i → same j) →
      Store.read i s.rxbuf = none ∨ Store.read i s.txbuf = none →
      ∃ b, exec .decWrite s = .fault (.unwritten b i))

/-- R151: no frame is ready after a failed encode, and the host protocol then sends nothing. -/
def Obligations.FailedEncodeLeavesNothingToSend : Prop :=
  ∀ (i : Instr) (s t : State), i = .encRead ∨ i = .encWrite ∨ i = .frameBuild → exec i s = .next t → t.err ≠ .ok →
    t.txCount = 0 ∧
    ∀ (budget : Int) (chs : List ChannelAttempt) (e : Engine), e.block = t →
      transaction budget chs e = .next (.failed, e)

/-- R227: a host write to SADDR, RPDU_LEN, RX_COUNT or RXBUF sets VERDICT to V_NONE, and DEC_READ and DEC_WRITE then fail
with E_FRAME, whatever the host does, until FRAME_PARSE runs again. -/
def Obligations.StaleVerdictRefusesDecoding : Prop :=
  ∀ (program : List Access) (s t u : State) (rest : List Input) (a : Access) (w : Word), a.op = .write w →
    a.off = 0x00C ∨ a.off = 0x014 ∨ a.off = 0x01C ∨ (0x200 ≤ a.off.toNat ∧ a.off.toNat ≤ 0x2FF) →
    step (s.facing a rest) = .next t → (∀ p ∈ program, p.parses = false) → accesses program t = .next u →
    t.verdict = .vNone ∧
    exec .decRead u = .next { u with err := .eFrame } ∧ exec .decWrite u = .next { u with err := .eFrame }

/-- R152 ("Under V_OK, RX[0..RPDU_LEN+3) were all read by FRAME_PARSE, so they are written"): in a state that meets the
invariant DEC_READ never faults, and DEC_WRITE never faults on RXBUF. -/
def Obligations.AcceptedResponseNeverFaults : Prop :=
  ∀ s : State, Inv s →
    (∃ t, exec .decRead s = .next t) ∧ (∀ i, exec .decWrite s ≠ .fault (.unwritten .rx i))

/-- The read operation end to end (R150, R124, R152, R157): from any state with a legal request, ENC_READ, then the host's
writes of a well-formed response of n registers, FRAME_PARSE and DEC_READ leave those registers in REGDATA. -/
def Obligations.ReadResponseIsDecoded : Prop :=
  ∀ (s : State) (addr : Half) (regs : List Half),
    s.saddr.toNat ≤ 247 → 1 ≤ regs.length → regs.length ≤ 125 → addr.toNat + regs.length - 1 ≤ 0xFFFF →
    let pdu : List Byte :=
      0x03 :: BitVec.ofNat 8 (2 * regs.length) :: regs.flatMap fun v => [v.extractLsb' 8 8, v.extractLsb' 0 8]
    let k := crc16 (s.saddr :: pdu)
    let response := s.saddr :: (pdu ++ [k.extractLsb' 0 8, k.extractLsb' 8 8])
    ∃ t, accesses
        (readRegs addr (BitVec.ofNat 16 regs.length) ++ loadRx response ++ [cmd .frameParse, cmd .decRead]) s = .next t ∧
      t.err = .ok ∧ t.verdict = .vOk ∧ Store.Holds 0 regs t.regdata ∧ Store.SameFrom regs.length s.regdata t.regdata

/-- The write operation end to end (R154, R124, R156, R157): a response equal to the request is accepted, and one with a
valid CRC whose PDU differs fails with E_ECHO. -/
def Obligations.WriteEchoIsChecked : Prop :=
  ∀ (s : State) (addr value : Half) (pdu : List Byte), s.saddr.toNat ≤ 247 → pdu.length = 5 →
    let request : List Byte :=
      [0x06, addr.extractLsb' 8 8, addr.extractLsb' 0 8, value.extractLsb' 8 8, value.extractLsb' 0 8]
    let k := crc16 (s.saddr :: pdu)
    let response := s.saddr :: (pdu ++ [k.extractLsb' 0 8, k.extractLsb' 8 8])
    ∃ t, accesses (writeReg addr value ++ loadRx response ++ [cmd .frameParse, cmd .decWrite]) s = .next t ∧
      t.verdict = .vOk ∧ t.err = if pdu = request then .ok else .eEcho

/-! ### The invariant -/

/-- The state right after reset meets the invariant. -/
def Obligations.ResetMeetsTheInvariant : Prop := Inv State.reset

/-- Every step keeps the invariant: the memories stay canonical and within their sizes (R32, R34, R35), the exception
fields fit the verdict (R25), a nonzero TX_COUNT is WPDU_LEN + 3, from 4 to 256, and marks a frame with a valid CRC (R30,
R40), and a verdict other than V_NONE is what a parse of the present inputs gives (R227). -/
def Obligations.StepKeepsTheInvariant : Prop :=
  ∀ s t : State, Inv s → step s = .next t → Inv t

/-- In a state that meets the invariant two memories that read alike are equal data. -/
def Obligations.EqualContentsAreEqualMemories : Prop :=
  ∀ s t : State, Inv s → Inv t →
    ((∀ i, Store.read i s.txbuf = Store.read i t.txbuf) → s.txbuf = t.txbuf) ∧
    ((∀ i, Store.read i s.rxbuf = Store.read i t.rxbuf) → s.rxbuf = t.rxbuf) ∧
    ((∀ j, Store.read j s.regdata = Store.read j t.regdata) → s.regdata = t.regdata)

/-! ### The host protocol (spec/60_exceptions.md section 5) -/

/-- R183: the names the host logs for the codes the source names, in every entry of the log; EXC_KNOWN is 1 exactly for
those codes. The name of any other code is "any value" (U2, notes 21), and nothing is said of it. -/
def Obligations.ExceptionNamesAreTheKnownCodes : Prop :=
  (∀ n : Nat,
    exceptionName n 1 = "ILLEGAL FUNCTION" ∧ exceptionName n 2 = "ILLEGAL DATA ADDRESS" ∧
    exceptionName n 3 = "ILLEGAL DATA VALUE" ∧ exceptionName n 4 = "SLAVE/SERVER FAILURE" ∧
    exceptionName n 5 = "ACKNOWLEDGE" ∧ exceptionName n 6 = "SLAVE/SERVER BUSY" ∧
    exceptionName n 7 = "NEGATIVE ACKNOWLEDGE" ∧ exceptionName n 8 = "MEMORY PARITY" ∧
    exceptionName n 10 = "GATEWAY PATH UNAVAILABLE" ∧ exceptionName n 11 = "GATEWAY TARGET FAILED TO RESPOND") ∧
  ∀ code : Byte, isKnownCode code = (listedExceptionNames.lookup code).isSome

/-- R183, R197: an attempt that receives an exception response logs the name of EXC_CODE, is retried, and leaves the
timeouts as they are. The name of a code the source does not list is any value (U2, notes 21). -/
def Obligations.ExceptionResponseIsLoggedAndRetried : Prop :=
  ∀ (k : Nat) (bytes : List Byte) (e e' : Engine) (r : AttemptEnd),
    receive k (some bytes) e = .next (r, e') → e'.block.verdict = .vException →
    r = .retry ∧ e'.log = e.log ++ [exceptionName e.log.length e'.block.excCode] ∧ e'.timeouts = e.timeouts ∧
      e'.sent = e.sent

/-- R197: a response of no bytes ends the transaction at once, whatever budget remains. -/
def Obligations.NoResponseEndsTheTransaction : Prop :=
  ∀ (left k : Nat) (ch : ChannelAttempt) (chs : List ChannelAttempt) (e : Engine) (frame : List Byte),
    readTx 0 e.block.txCount.toNat e.block = .ok frame → ch.written = frame.length → ch.clearOk = true →
    ch.received = some [] → e.block.saddr.toNat ≤ 247 → 1 ≤ e.block.rpduLen.toNat → e.block.rpduLen.toNat ≤ 253 →
    ∃ e', attempts (left + 1) k (ch :: chs) e = .next (.failed, e') ∧ e'.block.verdict = .vNoResponse ∧
      e'.sent = e.sent ++ [frame]

/-- R193, R194, R199: a transaction makes at most the budgeted number of attempts, a budget below 1 acting as 1, and every
attempt sends the same frame, TX[0..TX_COUNT), with TXBUF unchanged. -/
def Obligations.AttemptsAreBoundedAndResendTheFrame : Prop :=
  ∀ (budget : Int) (chs : List ChannelAttempt) (e e' : Engine) (r : TransactionEnd),
    transaction budget chs e = .next (r, e') →
    e'.block.txbuf = e.block.txbuf ∧ e'.block.txCount = e.block.txCount ∧
    ∃ n frame, n ≤ max 1 budget.toNat ∧ (n = 0 ∨ readTx 0 e.block.txCount.toNat e.block = .ok frame) ∧
      e'.sent = e.sent ++ List.replicate n frame

/-- R198: the read timeout constant never falls in a transaction and stays in force after it; an attempt that ends in
V_BAD_LENGTH raises it. The amount is OPEN (D22). -/
def Obligations.TimeoutConstantOnlyGrows : Prop :=
  (∀ (budget : Int) (chs : List ChannelAttempt) (e e' : Engine) (r : TransactionEnd),
    transaction budget chs e = .next (r, e') → e.timeouts.constant ≤ e'.timeouts.constant) ∧
  (∀ (k : Nat) (bytes : List Byte) (e e' : Engine) (r : AttemptEnd),
    receive k (some bytes) e = .next (r, e') → e'.block.verdict = .vBadLength →
    r = .retry ∧ e.timeouts.constant < e'.timeouts.constant)

/-- R197, R199: a transaction that succeeds leaves V_OK and ERR = 0, so a decode command may run. -/
def Obligations.SuccessfulTransactionIsAccepted : Prop :=
  ∀ (budget : Int) (chs : List ChannelAttempt) (e e' : Engine),
    transaction budget chs e = .next (.success, e') → e'.block.verdict = .vOk ∧ e'.block.err = .ok
end

