-- ==== Sys2Proof/Laws/Crc.lean ====
section
/-! SUPPORT. The CRC function (spec/40_crc.md R100, R101, R110) and the CRC check of a frame (spec/30_encoding.md R86). -/

namespace Sys2Proof.Machine

@[simp] theorem crcFold_nil (c : Half) : crcFold c [] = c := rfl

@[simp] theorem crcFold_cons (c : Half) (b : Byte) (bs : List Byte) :
    crcFold c (b :: bs) = crcFold (crcUpdate c b) bs := rfl

/-- A fold over bytes in a row is a fold over the pieces (R110). -/
theorem crcFold_append (c : Half) (a b : List Byte) : crcFold c (a ++ b) = crcFold (crcFold c a) b :=
  List.foldl_append

@[simp] theorem crcBytes_length (k : Half) : (crcBytes k).length = 2 := rfl

/-- A frame of at least two bytes passes the CRC check exactly when its last two bytes are the CRC of the rest. -/
theorem frameCrcOk_append (m : List Byte) (x y : Byte) :
    frameCrcOk (m ++ [x, y]) = true ↔ x = lowByte (crc16 m) ∧ y = highByte (crc16 m) := by
  simp [frameCrcOk, crcBytes]

/-- The frame a build leaves passes the CRC check. -/
theorem frameCrcOk_crcBytes (m : List Byte) : frameCrcOk (m ++ crcBytes (crc16 m)) = true :=
  (frameCrcOk_append m _ _).2 ⟨rfl, rfl⟩

/-- The CRC check of a frame read from a buffer, byte by byte. -/
theorem frameCrcOk_iff {adu : List Byte} {n : Nat} (h : adu.length = n + 2) :
    frameCrcOk adu = true ↔
      adu[n]? = some (lowByte (crc16 (adu.take n))) ∧ adu[n + 1]? = some (highByte (crc16 (adu.take n))) := by
  have hsplit : adu = adu.take n ++ [adu[n], adu[n + 1]] := by
    conv_lhs => rw [← List.take_append_drop n adu, List.drop_eq_getElem_cons (by omega),
      List.drop_eq_getElem_cons (by omega), List.drop_eq_nil_of_le (by omega)]
  have key := frameCrcOk_append (adu.take n) adu[n] adu[n + 1]
  rw [← hsplit] at key
  simp [key, h]

end Sys2Proof.Machine
end

