-- ==== Sys2Proof/Laws/State.lean ====
section
/-! SUPPORT. What each update of the state leaves in each field: one lemma per field per update, so that no proof unfolds a
record update. -/

namespace Sys2Proof.Machine

/-! ### setErr -/

@[simp] theorem State.setErr_err (e : Err) (s : State) : (s.setErr e).err = e := rfl
@[simp] theorem State.setErr_verdict (e : Err) (s : State) : (s.setErr e).verdict = s.verdict := rfl
@[simp] theorem State.setErr_excCode (e : Err) (s : State) : (s.setErr e).excCode = s.excCode := rfl
@[simp] theorem State.setErr_excKnown (e : Err) (s : State) : (s.setErr e).excKnown = s.excKnown := rfl
@[simp] theorem State.setErr_crc (e : Err) (s : State) : (s.setErr e).crc = s.crc := rfl
@[simp] theorem State.setErr_saddr (e : Err) (s : State) : (s.setErr e).saddr = s.saddr := rfl
@[simp] theorem State.setErr_wpduLen (e : Err) (s : State) : (s.setErr e).wpduLen = s.wpduLen := rfl
@[simp] theorem State.setErr_rpduLen (e : Err) (s : State) : (s.setErr e).rpduLen = s.rpduLen := rfl
@[simp] theorem State.setErr_txCount (e : Err) (s : State) : (s.setErr e).txCount = s.txCount := rfl
@[simp] theorem State.setErr_rxCount (e : Err) (s : State) : (s.setErr e).rxCount = s.rxCount := rfl
@[simp] theorem State.setErr_regAddr (e : Err) (s : State) : (s.setErr e).regAddr = s.regAddr := rfl
@[simp] theorem State.setErr_regCount (e : Err) (s : State) : (s.setErr e).regCount = s.regCount := rfl
@[simp] theorem State.setErr_regValue (e : Err) (s : State) : (s.setErr e).regValue = s.regValue := rfl
@[simp] theorem State.setErr_txbuf (e : Err) (s : State) : (s.setErr e).txbuf = s.txbuf := rfl
@[simp] theorem State.setErr_rxbuf (e : Err) (s : State) : (s.setErr e).rxbuf = s.rxbuf := rfl
@[simp] theorem State.setErr_regdata (e : Err) (s : State) : (s.setErr e).regdata = s.regdata := rfl
@[simp] theorem State.setErr_bus (e : Err) (s : State) : (s.setErr e).bus = s.bus := rfl
@[simp] theorem State.setErr_reply (e : Err) (s : State) : (s.setErr e).reply = s.reply := rfl

/-! ### setCrc -/

@[simp] theorem State.setCrc_err (c : Half) (s : State) : (s.setCrc c).err = s.err := rfl
@[simp] theorem State.setCrc_verdict (c : Half) (s : State) : (s.setCrc c).verdict = s.verdict := rfl
@[simp] theorem State.setCrc_excCode (c : Half) (s : State) : (s.setCrc c).excCode = s.excCode := rfl
@[simp] theorem State.setCrc_excKnown (c : Half) (s : State) : (s.setCrc c).excKnown = s.excKnown := rfl
@[simp] theorem State.setCrc_crc (c : Half) (s : State) : (s.setCrc c).crc = c := rfl
@[simp] theorem State.setCrc_saddr (c : Half) (s : State) : (s.setCrc c).saddr = s.saddr := rfl
@[simp] theorem State.setCrc_wpduLen (c : Half) (s : State) : (s.setCrc c).wpduLen = s.wpduLen := rfl
@[simp] theorem State.setCrc_rpduLen (c : Half) (s : State) : (s.setCrc c).rpduLen = s.rpduLen := rfl
@[simp] theorem State.setCrc_txCount (c : Half) (s : State) : (s.setCrc c).txCount = s.txCount := rfl
@[simp] theorem State.setCrc_rxCount (c : Half) (s : State) : (s.setCrc c).rxCount = s.rxCount := rfl
@[simp] theorem State.setCrc_regAddr (c : Half) (s : State) : (s.setCrc c).regAddr = s.regAddr := rfl
@[simp] theorem State.setCrc_regCount (c : Half) (s : State) : (s.setCrc c).regCount = s.regCount := rfl
@[simp] theorem State.setCrc_regValue (c : Half) (s : State) : (s.setCrc c).regValue = s.regValue := rfl
@[simp] theorem State.setCrc_txbuf (c : Half) (s : State) : (s.setCrc c).txbuf = s.txbuf := rfl
@[simp] theorem State.setCrc_rxbuf (c : Half) (s : State) : (s.setCrc c).rxbuf = s.rxbuf := rfl
@[simp] theorem State.setCrc_regdata (c : Half) (s : State) : (s.setCrc c).regdata = s.regdata := rfl
@[simp] theorem State.setCrc_bus (c : Half) (s : State) : (s.setCrc c).bus = s.bus := rfl
@[simp] theorem State.setCrc_reply (c : Half) (s : State) : (s.setCrc c).reply = s.reply := rfl

/-! ### setTxCount -/

@[simp] theorem State.setTxCount_err (n : Nat) (s : State) : (s.setTxCount n).err = s.err := rfl
@[simp] theorem State.setTxCount_verdict (n : Nat) (s : State) : (s.setTxCount n).verdict = s.verdict := rfl
@[simp] theorem State.setTxCount_excCode (n : Nat) (s : State) : (s.setTxCount n).excCode = s.excCode := rfl
@[simp] theorem State.setTxCount_excKnown (n : Nat) (s : State) : (s.setTxCount n).excKnown = s.excKnown := rfl
@[simp] theorem State.setTxCount_crc (n : Nat) (s : State) : (s.setTxCount n).crc = s.crc := rfl
@[simp] theorem State.setTxCount_saddr (n : Nat) (s : State) : (s.setTxCount n).saddr = s.saddr := rfl
@[simp] theorem State.setTxCount_wpduLen (n : Nat) (s : State) : (s.setTxCount n).wpduLen = s.wpduLen := rfl
@[simp] theorem State.setTxCount_rpduLen (n : Nat) (s : State) : (s.setTxCount n).rpduLen = s.rpduLen := rfl
@[simp] theorem State.setTxCount_txCount (n : Nat) (s : State) : (s.setTxCount n).txCount = BitVec.ofNat 9 n := rfl
@[simp] theorem State.setTxCount_rxCount (n : Nat) (s : State) : (s.setTxCount n).rxCount = s.rxCount := rfl
@[simp] theorem State.setTxCount_regAddr (n : Nat) (s : State) : (s.setTxCount n).regAddr = s.regAddr := rfl
@[simp] theorem State.setTxCount_regCount (n : Nat) (s : State) : (s.setTxCount n).regCount = s.regCount := rfl
@[simp] theorem State.setTxCount_regValue (n : Nat) (s : State) : (s.setTxCount n).regValue = s.regValue := rfl
@[simp] theorem State.setTxCount_txbuf (n : Nat) (s : State) : (s.setTxCount n).txbuf = s.txbuf := rfl
@[simp] theorem State.setTxCount_rxbuf (n : Nat) (s : State) : (s.setTxCount n).rxbuf = s.rxbuf := rfl
@[simp] theorem State.setTxCount_regdata (n : Nat) (s : State) : (s.setTxCount n).regdata = s.regdata := rfl
@[simp] theorem State.setTxCount_bus (n : Nat) (s : State) : (s.setTxCount n).bus = s.bus := rfl
@[simp] theorem State.setTxCount_reply (n : Nat) (s : State) : (s.setTxCount n).reply = s.reply := rfl

/-! ### setReply -/

@[simp] theorem State.setReply_err (r : Reply) (s : State) : (s.setReply r).err = s.err := rfl
@[simp] theorem State.setReply_verdict (r : Reply) (s : State) : (s.setReply r).verdict = s.verdict := rfl
@[simp] theorem State.setReply_excCode (r : Reply) (s : State) : (s.setReply r).excCode = s.excCode := rfl
@[simp] theorem State.setReply_excKnown (r : Reply) (s : State) : (s.setReply r).excKnown = s.excKnown := rfl
@[simp] theorem State.setReply_crc (r : Reply) (s : State) : (s.setReply r).crc = s.crc := rfl
@[simp] theorem State.setReply_saddr (r : Reply) (s : State) : (s.setReply r).saddr = s.saddr := rfl
@[simp] theorem State.setReply_wpduLen (r : Reply) (s : State) : (s.setReply r).wpduLen = s.wpduLen := rfl
@[simp] theorem State.setReply_rpduLen (r : Reply) (s : State) : (s.setReply r).rpduLen = s.rpduLen := rfl
@[simp] theorem State.setReply_txCount (r : Reply) (s : State) : (s.setReply r).txCount = s.txCount := rfl
@[simp] theorem State.setReply_rxCount (r : Reply) (s : State) : (s.setReply r).rxCount = s.rxCount := rfl
@[simp] theorem State.setReply_regAddr (r : Reply) (s : State) : (s.setReply r).regAddr = s.regAddr := rfl
@[simp] theorem State.setReply_regCount (r : Reply) (s : State) : (s.setReply r).regCount = s.regCount := rfl
@[simp] theorem State.setReply_regValue (r : Reply) (s : State) : (s.setReply r).regValue = s.regValue := rfl
@[simp] theorem State.setReply_txbuf (r : Reply) (s : State) : (s.setReply r).txbuf = s.txbuf := rfl
@[simp] theorem State.setReply_rxbuf (r : Reply) (s : State) : (s.setReply r).rxbuf = s.rxbuf := rfl
@[simp] theorem State.setReply_regdata (r : Reply) (s : State) : (s.setReply r).regdata = s.regdata := rfl
@[simp] theorem State.setReply_bus (r : Reply) (s : State) : (s.setReply r).bus = s.bus := rfl
@[simp] theorem State.setReply_reply (r : Reply) (s : State) : (s.setReply r).reply = r := rfl

/-! ### setVerdict (spec/41_framer.md R120) -/

@[simp] theorem State.setVerdict_err (v : Verdict) (c : Byte) (s : State) : (s.setVerdict v c).err = s.err := by
  cases v <;> rfl
@[simp] theorem State.setVerdict_verdict (v : Verdict) (c : Byte) (s : State) : (s.setVerdict v c).verdict = v := by
  cases v <;> rfl
@[simp] theorem State.setVerdict_excCode (v : Verdict) (c : Byte) (s : State) : (s.setVerdict v c).excCode = if v = .vException then c else 0 := by
  cases v <;> rfl
@[simp] theorem State.setVerdict_excKnown (v : Verdict) (c : Byte) (s : State) : (s.setVerdict v c).excKnown = (decide (v = .vException) && isKnownCode c) := by
  cases v <;> simp [State.setVerdict]
@[simp] theorem State.setVerdict_crc (v : Verdict) (c : Byte) (s : State) : (s.setVerdict v c).crc = s.crc := by
  cases v <;> rfl
@[simp] theorem State.setVerdict_saddr (v : Verdict) (c : Byte) (s : State) : (s.setVerdict v c).saddr = s.saddr := by
  cases v <;> rfl
@[simp] theorem State.setVerdict_wpduLen (v : Verdict) (c : Byte) (s : State) : (s.setVerdict v c).wpduLen = s.wpduLen := by
  cases v <;> rfl
@[simp] theorem State.setVerdict_rpduLen (v : Verdict) (c : Byte) (s : State) : (s.setVerdict v c).rpduLen = s.rpduLen := by
  cases v <;> rfl
@[simp] theorem State.setVerdict_txCount (v : Verdict) (c : Byte) (s : State) : (s.setVerdict v c).txCount = s.txCount := by
  cases v <;> rfl
@[simp] theorem State.setVerdict_rxCount (v : Verdict) (c : Byte) (s : State) : (s.setVerdict v c).rxCount = s.rxCount := by
  cases v <;> rfl
@[simp] theorem State.setVerdict_regAddr (v : Verdict) (c : Byte) (s : State) : (s.setVerdict v c).regAddr = s.regAddr := by
  cases v <;> rfl
@[simp] theorem State.setVerdict_regCount (v : Verdict) (c : Byte) (s : State) : (s.setVerdict v c).regCount = s.regCount := by
  cases v <;> rfl
@[simp] theorem State.setVerdict_regValue (v : Verdict) (c : Byte) (s : State) : (s.setVerdict v c).regValue = s.regValue := by
  cases v <;> rfl
@[simp] theorem State.setVerdict_txbuf (v : Verdict) (c : Byte) (s : State) : (s.setVerdict v c).txbuf = s.txbuf := by
  cases v <;> rfl
@[simp] theorem State.setVerdict_rxbuf (v : Verdict) (c : Byte) (s : State) : (s.setVerdict v c).rxbuf = s.rxbuf := by
  cases v <;> rfl
@[simp] theorem State.setVerdict_regdata (v : Verdict) (c : Byte) (s : State) : (s.setVerdict v c).regdata = s.regdata := by
  cases v <;> rfl
@[simp] theorem State.setVerdict_bus (v : Verdict) (c : Byte) (s : State) : (s.setVerdict v c).bus = s.bus := by
  cases v <;> rfl
@[simp] theorem State.setVerdict_reply (v : Verdict) (c : Byte) (s : State) : (s.setVerdict v c).reply = s.reply := by
  cases v <;> rfl

/-! ### takeReset, facing, withFetchWord -/

@[simp] theorem takeReset_bus (s : State) : (takeReset s).bus = s.bus := rfl
theorem takeReset_eq (s : State) : takeReset s = { State.reset with bus := s.bus } := rfl
@[simp] theorem State.facing_bus (a : Access) (rest : List Input) (s : State) :
    (s.facing a rest).bus = .access a :: rest := rfl

/-- Two states with equal fields are equal; the fields are the whole state. -/
theorem State.ext_fields {s t : State} (h₁ : s.err = t.err) (h₂ : s.verdict = t.verdict) (h₃ : s.excCode = t.excCode)
    (h₄ : s.excKnown = t.excKnown) (h₅ : s.crc = t.crc) (h₆ : s.saddr = t.saddr) (h₇ : s.wpduLen = t.wpduLen)
    (h₈ : s.rpduLen = t.rpduLen) (h₉ : s.txCount = t.txCount) (h₁₀ : s.rxCount = t.rxCount)
    (h₁₁ : s.regAddr = t.regAddr) (h₁₂ : s.regCount = t.regCount) (h₁₃ : s.regValue = t.regValue)
    (h₁₄ : s.txbuf = t.txbuf) (h₁₅ : s.rxbuf = t.rxbuf) (h₁₆ : s.regdata = t.regdata) (h₁₇ : s.bus = t.bus)
    (h₁₈ : s.reply = t.reply) : s = t := by
  cases s
  cases t
  simp only at *
  subst_vars
  rfl

/-- set_verdict with a verdict other than V_EXCEPTION, as one record update (R120). -/
theorem State.setVerdict_of_ne {v : Verdict} (h : v ≠ .vException) (c : Byte) (s : State) :
    s.setVerdict v c = { s with verdict := v, excCode := 0, excKnown := false } := by
  cases v <;> first | rfl | exact absurd rfl h

/-- set_verdict with V_EXCEPTION, as one record update (R120). -/
theorem State.setVerdict_exception (c : Byte) (s : State) :
    s.setVerdict .vException c =
      { s with verdict := .vException, excCode := c, excKnown := isKnownCode c } := rfl

/-- Whatever verdict is set, the exception fields fit it (R25). -/
theorem exceptionFieldsFit_setVerdict (v : Verdict) (c : Byte) (s : State) : ExceptionFieldsFit (s.setVerdict v c) := by
  cases v <;> simp [ExceptionFieldsFit]

end Sys2Proof.Machine
end

