-- ==== Sys2Proof/Laws/Store.lean ====
section
/-! SUPPORT. The stores of the block: a read after a write, the canonical form every write keeps, and that the canonical
form makes equal contents equal data. -/

namespace Sys2Proof.Machine

variable {α : Type}

@[simp] theorem Store.read_nil (i : Nat) : Store.read i ([] : Store α) = none := rfl

/-- A read after a write of one entry. -/
theorem Store.read_write (i j : Nat) (v : α) (m : Store α) :
    Store.read j (Store.write i v m) = if j = i then some v else Store.read j m := by
  induction m with
  | nil => simp [Store.write, Store.read]
  | cons e rest ih =>
    obtain ⟨k, u⟩ := e
    simp only [Store.write]
    split
    · simp [Store.read]
    · split
      · subst k
        simp only [Store.read]
        split <;> simp_all
      · simp only [Store.read, ih]
        by_cases hjk : j = k
        · subst j
          simp [show k ≠ i by omega]
        · simp [hjk]

@[simp] theorem Store.read_write_self (i : Nat) (v : α) (m : Store α) : Store.read i (Store.write i v m) = some v := by
  simp [Store.read_write]

theorem Store.read_write_of_ne {i j : Nat} (h : j ≠ i) (v : α) (m : Store α) :
    Store.read j (Store.write i v m) = Store.read j m := by
  simp [Store.read_write, h]

@[simp] theorem Store.writeRun_nil (i : Nat) (m : Store α) : Store.writeRun i [] m = m := rfl

@[simp] theorem Store.writeRun_cons (i : Nat) (v : α) (vs : List α) (m : Store α) :
    Store.writeRun i (v :: vs) m = Store.writeRun (i + 1) vs (Store.write i v m) := rfl

/-- A read after a write of consecutive entries: the written value inside the run, the old content outside. -/
theorem Store.read_writeRun (i j : Nat) (vs : List α) (m : Store α) :
    Store.read j (Store.writeRun i vs m) = if i ≤ j ∧ j < i + vs.length then vs[j - i]? else Store.read j m := by
  induction vs generalizing i m with
  | nil => simp [show ¬ (i ≤ j ∧ j < i) by omega]
  | cons v vs ih =>
    rw [Store.writeRun_cons, ih, Store.read_write, List.length_cons]
    by_cases hj : j = i
    · subst j
      simp
    · by_cases hin : i + 1 ≤ j ∧ j < i + 1 + vs.length
      · rw [if_pos hin, if_pos (by omega), show j - i = (j - (i + 1)) + 1 by omega, List.getElem?_cons_succ]
      · rw [if_neg hin, if_neg hj, if_neg (by omega)]

/-- The entries of a run just written hold its values. -/
theorem Store.holds_writeRun (i : Nat) (vs : List α) (m : Store α) : Store.Holds i vs (Store.writeRun i vs m) := by
  intro k hk
  rw [Store.read_writeRun, if_pos (by omega), Nat.add_sub_cancel_left]

theorem Store.read_writeRun_outside {i j : Nat} {vs : List α} (h : j < i ∨ i + vs.length ≤ j) (m : Store α) :
    Store.read j (Store.writeRun i vs m) = Store.read j m := by
  rw [Store.read_writeRun, if_neg (by omega)]

/-! ### Runs of known entries -/

@[simp] theorem Store.holds_nil (i : Nat) (m : Store α) : Store.Holds i ([] : List α) m := by
  intro k hk
  simp at hk

theorem Store.holds_cons {i : Nat} {v : α} {vs : List α} {m : Store α} :
    Store.Holds i (v :: vs) m ↔ Store.read i m = some v ∧ Store.Holds (i + 1) vs m := by
  constructor
  · intro h
    refine ⟨by simpa using h 0 (by simp), fun k hk => ?_⟩
    have := h (k + 1) (by simpa using hk)
    simpa [show i + 1 + k = i + (k + 1) by omega] using this
  · rintro ⟨h₀, h⟩ k hk
    cases k with
    | zero => simpa using h₀
    | succ k =>
      have := h k (by simpa using hk)
      simpa [show i + 1 + k = i + (k + 1) by omega] using this

theorem Store.holds_append {i : Nat} {us vs : List α} {m : Store α} :
    Store.Holds i (us ++ vs) m ↔ Store.Holds i us m ∧ Store.Holds (i + us.length) vs m := by
  induction us generalizing i with
  | nil => simp
  | cons u us ih => simp [Store.holds_cons, ih, and_assoc, show i + 1 + us.length = i + (us.length + 1) by omega]

/-- Whether a run is held depends only on what its entries read. -/
theorem Store.Holds.congr {i : Nat} {vs : List α} {m m' : Store α} (h : Store.Holds i vs m)
    (hm : ∀ j, i ≤ j → j < i + vs.length → Store.read j m' = Store.read j m) : Store.Holds i vs m' := by
  intro k hk
  rw [hm (i + k) (by omega) (by omega), h k hk]

/-- Two runs of one length held at one place are equal. -/
theorem Store.Holds.unique {i : Nat} {us vs : List α} {m : Store α} (hu : Store.Holds i us m) (hv : Store.Holds i vs m)
    (hl : us.length = vs.length) : us = vs := by
  apply List.ext_getElem?
  intro k
  by_cases hk : k < us.length
  · rw [← hu k hk, hv k (hl ▸ hk)]
  · rw [List.getElem?_eq_none (by omega), List.getElem?_eq_none (by omega)]

/-! ### The canonical form -/

theorem Store.rises_mono {lo lo' size : Nat} {m : Store α} (h : Store.rises lo size m = true) (hlo : lo' ≤ lo) :
    Store.rises lo' size m = true := by
  cases m with
  | nil => rfl
  | cons e rest =>
    obtain ⟨j, v⟩ := e
    simp only [Store.rises, Bool.and_eq_true, decide_eq_true_eq] at h ⊢
    exact ⟨⟨by omega, h.1.2⟩, h.2⟩

theorem Store.rises_write {lo size i : Nat} {m : Store α} (h : Store.rises lo size m = true) (hlo : lo ≤ i)
    (hi : i < size) (v : α) : Store.rises lo size (Store.write i v m) = true := by
  induction m generalizing lo with
  | nil => simp [Store.write, Store.rises, hlo, hi]
  | cons e rest ih =>
    obtain ⟨j, u⟩ := e
    simp only [Store.rises, Bool.and_eq_true, decide_eq_true_eq] at h
    simp only [Store.write]
    split
    · simp [Store.rises, hlo, hi, h.1.2, h.2]
      omega
    · split
      · subst j
        simp [Store.rises, hlo, hi, h.2]
      · simp only [Store.rises, Bool.and_eq_true, decide_eq_true_eq]
        exact ⟨h.1, ih h.2 (by omega)⟩

/-- Every write inside the size keeps the canonical form. -/
theorem Store.wf_write {size i : Nat} {m : Store α} (h : Store.wf size m = true) (hi : i < size) (v : α) :
    Store.wf size (Store.write i v m) = true :=
  Store.rises_write h (Nat.zero_le i) hi v

/-- Every run inside the size keeps the canonical form. -/
theorem Store.wf_writeRun {size i : Nat} {vs : List α} {m : Store α} (h : Store.wf size m = true)
    (hi : i + vs.length ≤ size) : Store.wf size (Store.writeRun i vs m) = true := by
  induction vs generalizing i m with
  | nil => exact h
  | cons v vs ih =>
    rw [List.length_cons] at hi
    exact ih (Store.wf_write h (by omega) v) (by omega)

theorem Store.read_eq_none_of_rises {lo size i : Nat} {m : Store α} (h : Store.rises lo size m = true) (hi : i < lo) :
    Store.read i m = none := by
  induction m generalizing lo with
  | nil => rfl
  | cons e rest ih =>
    obtain ⟨j, v⟩ := e
    simp only [Store.rises, Bool.and_eq_true, decide_eq_true_eq] at h
    rw [Store.read, if_neg (by omega)]
    exact ih h.2 (by omega)

/-- No entry lies beyond the size of a canonical store. -/
theorem Store.read_eq_none_of_wf {size i : Nat} {m : Store α} (h : Store.wf size m = true) (hi : size ≤ i) :
    Store.read i m = none := by
  suffices ∀ lo, Store.rises lo size m = true → Store.read i m = none from this 0 h
  intro lo hr
  induction m generalizing lo with
  | nil => rfl
  | cons e rest ih =>
    obtain ⟨j, v⟩ := e
    simp only [Store.rises, Bool.and_eq_true, decide_eq_true_eq] at hr
    rw [Store.read, if_neg (by omega)]
    exact ih (Store.rises_mono hr.2 (Nat.zero_le _)) _ hr.2

/-- The canonical form is canonical: stores that read alike are equal. -/
theorem Store.eq_of_read_eq {size size' lo : Nat} {m m' : Store α} (h : Store.rises lo size m = true)
    (h' : Store.rises lo size' m' = true) (hr : ∀ i, Store.read i m = Store.read i m') : m = m' := by
  induction m generalizing lo m' with
  | nil =>
    cases m' with
    | nil => rfl
    | cons e rest => simpa [Store.read] using hr e.1
  | cons e rest ih =>
    obtain ⟨j, v⟩ := e
    cases m' with
    | nil => simpa [Store.read] using hr j
    | cons e' rest' =>
      obtain ⟨k, u⟩ := e'
      simp only [Store.rises, Bool.and_eq_true, decide_eq_true_eq] at h h'
      have hjk : j = k := by
        by_contra hne
        rcases Nat.lt_or_gt_of_ne hne with hlt | hlt
        · have := hr j
          rw [Store.read, if_pos rfl, Store.read, if_neg hne, Store.read_eq_none_of_rises h'.2 (by omega)] at this
          cases this
        · have := hr k
          rw [Store.read, if_neg (Ne.symm hne), Store.read, if_pos rfl, Store.read_eq_none_of_rises h.2 (by omega)] at this
          cases this
      subst k
      have hvu := hr j
      simp only [Store.read, if_pos] at hvu
      cases hvu
      refine congrArg _ (ih h.2 h'.2 fun i => ?_)
      by_cases hi : i < j + 1
      · rw [Store.read_eq_none_of_rises h.2 hi, Store.read_eq_none_of_rises h'.2 hi]
      · simpa [Store.read, show i ≠ j by omega] using hr i

/-! ### Reading entries in a command -/

@[simp] theorem readEntry_eq_ok {b : Buffer} {m : Store α} {i : Nat} {v : α} :
    readEntry b m i = .ok v ↔ Store.read i m = some v := by
  unfold readEntry
  cases Store.read i m <;> simp

@[simp] theorem readEntry_eq_error {b : Buffer} {m : Store α} {i : Nat} {f : Fault} :
    readEntry b m i = .error f ↔ f = .unwritten b i ∧ Store.read i m = none := by
  unfold readEntry
  cases Store.read i m <;> simp [eq_comm]

/-- A run is read exactly when all its entries are written, and then its values are those the store holds. -/
theorem readRun_eq_ok {b : Buffer} {m : Store α} {i n : Nat} {vs : List α} :
    readRun b m i n = .ok vs ↔ vs.length = n ∧ Store.Holds i vs m := by
  induction n generalizing i vs with
  | zero =>
    cases vs <;> simp [readRun]
  | succ n ih =>
    unfold readRun
    cases he : readEntry b m i with
    | error f =>
      simp only [readEntry_eq_error] at he
      cases vs <;> simp [Store.holds_cons, he.2]
    | ok u =>
      simp only [readEntry_eq_ok] at he
      cases hr : readRun b m (i + 1) n with
      | error f =>
        cases vs with
        | nil => simp
        | cons v vs =>
          simp only [reduceCtorEq, List.length_cons, Nat.add_right_cancel_iff, Store.holds_cons, he, false_iff, not_and]
          rintro hl _ hh
          rw [ih.2 ⟨hl, hh⟩] at hr
          cases hr
      | ok us =>
        have hu := ih.1 hr
        cases vs with
        | nil => simp
        | cons v vs =>
          simp only [Except.ok.injEq, List.cons.injEq, List.length_cons, Nat.add_right_cancel_iff, Store.holds_cons, he,
            Option.some.injEq]
          constructor
          · rintro ⟨rfl, rfl⟩
            exact ⟨hu.1, rfl, hu.2⟩
          · rintro ⟨hl, rfl, hh⟩
            exact ⟨rfl, hu.2.unique hh (by omega)⟩

/-- A run stops exactly at its first unwritten entry. -/
theorem readRun_eq_error {b : Buffer} {m : Store α} {i n : Nat} {f : Fault} :
    readRun b m i n = .error f ↔
      ∃ j, i ≤ j ∧ j < i + n ∧ f = .unwritten b j ∧ Store.read j m = none ∧
        ∀ k, i ≤ k → k < j → (Store.read k m).isSome := by
  induction n generalizing i with
  | zero =>
    simp only [readRun, reduceCtorEq, Nat.add_zero, false_iff, not_exists, not_and]
    intro j h₁ h₂
    omega
  | succ n ih =>
    unfold readRun
    cases he : readEntry b m i with
    | error g =>
      simp only [readEntry_eq_error] at he
      obtain ⟨rfl, hn⟩ := he
      simp only [Except.error.injEq]
      constructor
      · rintro rfl
        exact ⟨i, by omega, by omega, rfl, hn, fun k h₁ h₂ => by omega⟩
      · rintro ⟨j, h₁, h₂, rfl, _, hlt⟩
        rcases Nat.eq_or_lt_of_le h₁ with rfl | hij
        · rfl
        · have := hlt i (le_refl i) hij
          simp [hn] at this
    | ok u =>
      simp only [readEntry_eq_ok] at he
      have key : readRun b m (i + 1) n = .error f ↔
          ∃ j, i ≤ j ∧ j < i + (n + 1) ∧ f = .unwritten b j ∧ Store.read j m = none ∧
            ∀ k, i ≤ k → k < j → (Store.read k m).isSome := by
        rw [ih]
        constructor
        · rintro ⟨j, h₁, h₂, hf, hn, hlt⟩
          refine ⟨j, by omega, by omega, hf, hn, fun k hk hkj => ?_⟩
          rcases Nat.eq_or_lt_of_le hk with rfl | hk'
          · simp [he]
          · exact hlt k hk' hkj
        · rintro ⟨j, h₁, h₂, hf, hn, hlt⟩
          have hij : i ≠ j := by
            rintro rfl
            simp [he] at hn
          exact ⟨j, by omega, by omega, hf, hn, fun k hk hkj => hlt k (by omega) hkj⟩
      rw [← key]
      cases readRun b m (i + 1) n <;> simp

/-- A run with an unwritten entry stops. -/
theorem readRun_stops {b : Buffer} {m : Store α} {i n j : Nat} (h₁ : i ≤ j) (h₂ : j < i + n)
    (hn : Store.read j m = none) :
    ∃ k, i ≤ k ∧ k < i + n ∧ Store.read k m = none ∧ readRun b m i n = .error (.unwritten b k) := by
  cases h : readRun b m i n with
  | ok vs =>
    obtain ⟨hl, hh⟩ := readRun_eq_ok.1 h
    have := hh (j - i) (by omega)
    rw [show i + (j - i) = j by omega, hn] at this
    simp at this
    omega
  | error f =>
    obtain ⟨k, hk₁, hk₂, rfl, hk, _⟩ := readRun_eq_error.1 h
    exact ⟨k, hk₁, hk₂, hk, rfl⟩

theorem readTx_eq_ok {i n : Nat} {s : State} {vs : List Byte} :
    readTx i n s = .ok vs ↔ vs.length = n ∧ Store.Holds i vs s.txbuf := readRun_eq_ok

theorem readRx_eq_ok {i n : Nat} {s : State} {vs : List Byte} :
    readRx i n s = .ok vs ↔ vs.length = n ∧ Store.Holds i vs s.rxbuf := readRun_eq_ok

/-- Reading a run depends only on what its entries read. -/
theorem readRun_congr {b : Buffer} {m m' : Store α} {i n : Nat}
    (h : ∀ j, i ≤ j → j < i + n → Store.read j m' = Store.read j m) : readRun b m' i n = readRun b m i n := by
  induction n generalizing i with
  | zero => rfl
  | succ n ih =>
    have hi := ih (i := i + 1) fun j h₁ h₂ => h j (by omega) (by omega)
    simp only [readRun, readEntry, h i (le_refl i) (by omega), hi]

end Sys2Proof.Machine
end

