-- ==== Sys2Proof/Laws/Ops.lean ====
section
/-! SUPPORT. What each shared operation can do, said once. -/

namespace Sys2Proof.Machine

@[simp] theorem complete_eq (s : State) : complete s = .next (s.setErr .ok) := rfl

@[simp] theorem raiseErr_eq (e : Err) (s : State) : raiseErr e s = .next (s.setErr e) := rfl

@[simp] theorem raiseNoFrame_eq (e : Err) (s : State) : raiseNoFrame e s = .next ((s.setTxCount 0).setErr e) := rfl

@[simp] theorem badServerAddress_eq_true (s : State) : badServerAddress s = true ↔ 247 < s.saddr.toNat := by
  simp [badServerAddress]

@[simp] theorem badServerAddress_eq_false (s : State) : badServerAddress s = false ↔ s.saddr.toNat ≤ 247 := by
  simp [badServerAddress]

@[simp] theorem badPduLen_eq_true (len : Byte) : badPduLen len = true ↔ len.toNat = 0 ∨ 253 < len.toNat := by
  simp [badPduLen, ← BitVec.toNat_inj]

@[simp] theorem badPduLen_eq_false (len : Byte) : badPduLen len = false ↔ 1 ≤ len.toNat ∧ len.toNat ≤ 253 := by
  rw [← Bool.not_eq_true, badPduLen_eq_true]
  omega

@[simp] theorem badRegCount_eq_true (n : Half) : badRegCount n = true ↔ n.toNat < 1 ∨ 125 < n.toNat := by
  simp [badRegCount]

@[simp] theorem badRegCount_eq_false (n : Half) : badRegCount n = false ↔ 1 ≤ n.toNat ∧ n.toNat ≤ 125 := by
  rw [← Bool.not_eq_true, badRegCount_eq_true]
  omega

@[simp] theorem wrapsPastEnd_eq_true (a n : Half) : wrapsPastEnd a n = true ↔ 0xFFFF < a.toNat + n.toNat - 1 := by
  simp [wrapsPastEnd]

/-- The frame that `build_adu` leaves around a PDU (R121). -/
theorem holds_frameAround {pdu : List Byte} {m : Memory} (h : Store.Holds 1 pdu m) (saddr : Byte) (k : Half) :
    Store.Holds 0 (saddr :: (pdu ++ crcBytes k)) (frameAround pdu.length saddr k m) := by
  rw [Store.holds_cons, Store.holds_append]
  refine ⟨?_, h.congr fun j h₁ h₂ => ?_, ?_⟩
  · rw [frameAround, Store.read_writeRun_outside (by omega), Store.read_write_self]
  · rw [frameAround, Store.read_writeRun_outside (by omega), Store.read_write_of_ne (by omega)]
  · rw [show 0 + 1 + pdu.length = pdu.length + 1 by omega]
    exact Store.holds_writeRun _ _ _

/-- `build_adu` touches no byte beyond the frame (R122). -/
theorem read_frameAround_beyond {len j : Nat} (hj : len + 3 ≤ j) (saddr : Byte) (k : Half) (m : Memory) :
    Store.read j (frameAround len saddr k m) = Store.read j m := by
  rw [frameAround, Store.read_writeRun_outside (by simp; omega), Store.read_write_of_ne (by omega)]

/-- A frame of at most 256 bytes keeps TXBUF canonical. -/
theorem wf_frameAround {len : Nat} {m : Memory} (h : Memory.wf m = true) (hlen : len ≤ 253) (saddr : Byte) (k : Half) :
    Memory.wf (frameAround len saddr k m) = true :=
  Store.wf_writeRun (Store.wf_write h (by simp [bufferSize]) saddr) (by simp [bufferSize]; omega)

/-- The registers of one response, at most 125, keep REGDATA canonical. -/
theorem wf_regdata {regs : List Half} (hl : regs.length ≤ 125) {m : Store Half} (h : Store.wf regdataSize m = true) :
    Store.wf regdataSize (Store.writeRun 0 regs m) = true :=
  Store.wf_writeRun h (by simp only [regdataSize]; omega)

/-- The memories of the reset state are canonical: nothing is listed (R220). -/
theorem State.reset_memories_wf :
    Memory.wf State.reset.txbuf = true ∧ Memory.wf State.reset.rxbuf = true ∧
      Store.wf regdataSize State.reset.regdata = true := ⟨rfl, rfl, rfl⟩

/-- The state a build leaves around a PDU. -/
def built (len : Nat) (pdu : List Byte) (s : State) : State :=
  { s with
    txbuf := frameAround len s.saddr (crc16 (s.saddr :: pdu)) s.txbuf
    txCount := BitVec.ofNat 9 (len + 3), verdict := .vNone, excCode := 0, excKnown := false, err := .ok }

/-- `build_adu`: it completes on a written PDU, and stops at an unwritten byte of it (R121). -/
theorem buildAdu_cases (len : Nat) (s : State) :
    (∃ pdu, pdu.length = len ∧ Store.Holds 1 pdu s.txbuf ∧ buildAdu len s = .next (built len pdu s)) ∨
    (∃ j, 1 ≤ j ∧ j < 1 + len ∧ Store.read j s.txbuf = none ∧ buildAdu len s = .fault (.unwritten .tx j)) := by
  unfold buildAdu
  cases h : readTx 1 len s with
  | ok pdu =>
    obtain ⟨hl, hh⟩ := readTx_eq_ok.1 h
    exact .inl ⟨pdu, hl, hh, rfl⟩
  | error f =>
    obtain ⟨j, h₁, h₂, rfl, hn, _⟩ := readRun_eq_error.1 h
    exact .inr ⟨j, h₁, h₂, hn, rfl⟩

/-- `build_adu` on a written PDU. -/
theorem buildAdu_of_holds {pdu : List Byte} {s : State} (h : Store.Holds 1 pdu s.txbuf) :
    buildAdu pdu.length s = .next (built pdu.length pdu s) := by
  unfold buildAdu
  rw [readTx_eq_ok.2 ⟨rfl, h⟩]
  rfl

@[simp] theorem requestPdu_length (fn : Byte) (a v : Half) : (requestPdu fn a v).length = 5 := rfl

/-- The state an encode command leaves (R150, R154). -/
def encoded (fn : Byte) (a v : Half) (rpduLen : Nat) (s : State) : State :=
  built 5 (requestPdu fn a v)
    { s with
      txbuf := Store.writeRun 1 (requestPdu fn a v) s.txbuf
      wpduLen := 5
      rpduLen := BitVec.ofNat 8 rpduLen }

/-- An encode always completes: it writes its own PDU. -/
theorem encodeRequest_eq (fn : Byte) (a v : Half) (rpduLen : Nat) (s : State) :
    encodeRequest fn a v rpduLen s = .next (encoded fn a v rpduLen s) :=
  buildAdu_of_holds (pdu := requestPdu fn a v) (Store.holds_writeRun 1 _ s.txbuf)

/-! ### Parsing -/

theorem parseFrame_empty {s : State} (h : s.rxCount.toNat = 0) : parseFrame s = .ok (.vNoResponse, 0) := by
  simp [parseFrame, h]

theorem parseFrame_full {s : State} (h : s.rxCount.toNat = expectedAdu s.rpduLen) :
    parseFrame s =
      match readRx 0 (expectedAdu s.rpduLen) s with
      | .error f => .error f
      | .ok adu => .ok (classifyFull s.saddr adu) :=
  (if_neg (by rw [h, expectedAdu]; omega)).trans (if_pos h)

theorem parseFrame_short {s : State} (h : s.rxCount.toNat = 5) (he : 5 < expectedAdu s.rpduLen) :
    parseFrame s =
      match readRx 0 5 s with
      | .error f => .error f
      | .ok adu => .ok (classifyShort adu) :=
  (if_neg (by omega)).trans ((if_neg (by omega)).trans (if_pos ⟨h, by omega⟩))

theorem parseFrame_other {s : State} (h₀ : s.rxCount.toNat ≠ 0) (h₁ : s.rxCount.toNat ≠ expectedAdu s.rpduLen)
    (h₂ : ¬ (s.rxCount.toNat = 5 ∧ s.rxCount.toNat < expectedAdu s.rpduLen)) :
    parseFrame s = .ok (.vBadLength, 0) := by
  rw [parseFrame, if_neg h₀, if_neg h₁, if_neg h₂]

/-- The verdict on a full-length frame is one of three, with no exception code. -/
theorem classifyFull_cases (saddr : Byte) (adu : List Byte) :
    (classifyFull saddr adu = (.vCrcError, 0) ∧ frameCrcOk adu = false) ∨
    (classifyFull saddr adu = (.vAddrMismatch, 0) ∧ frameCrcOk adu = true ∧ adu.head? ≠ some saddr) ∨
    (classifyFull saddr adu = (.vOk, 0) ∧ frameCrcOk adu = true ∧ adu.head? = some saddr) := by
  unfold classifyFull
  cases frameCrcOk adu <;> by_cases h : adu.head? = some saddr <;> simp [h]

/-- The verdict on a short frame is V_EXCEPTION, or V_BAD_LENGTH with no exception code. -/
theorem classifyShort_cases (adu : List Byte) :
    (∃ b fn code x y, adu = [b, fn, code, x, y] ∧ frameCrcOk adu = true ∧ 0x80 < fn.toNat ∧
      classifyShort adu = (.vException, code)) ∨
    classifyShort adu = (.vBadLength, 0) := by
  unfold classifyShort
  split
  · rename_i b fn code x y
    by_cases h : (frameCrcOk [b, fn, code, x, y] && decide (0x80 < fn.toNat)) = true
    · rw [if_pos h]
      simp only [Bool.and_eq_true, decide_eq_true_eq] at h
      exact .inl ⟨b, fn, code, x, y, rfl, h.1, h.2, rfl⟩
    · rw [if_neg h]
      exact .inr rfl
  · exact .inr rfl

/-- A parse depends only on SADDR, RPDU_LEN, RX_COUNT and RXBUF (R227). -/
theorem parseFrame_congr {s t : State} (h₁ : t.saddr = s.saddr) (h₂ : t.rpduLen = s.rpduLen) (h₃ : t.rxCount = s.rxCount)
    (h₄ : t.rxbuf = s.rxbuf) : parseFrame t = parseFrame s := by
  simp only [parseFrame, readRx, h₁, h₂, h₃, h₄]

/-- A verdict of a parse that is not V_EXCEPTION comes with code 0, and no parse answers V_NONE (R120, R124). -/
theorem parseFrame_verdict {s : State} {v : Verdict} {code : Byte} (h : parseFrame s = .ok (v, code)) :
    v ≠ .vNone ∧ (v ≠ .vException → code = 0) := by
  have hfull : ∀ adu, classifyFull s.saddr adu = (v, code) → v ≠ .vNone ∧ (v ≠ .vException → code = 0) := by
    intro adu ha
    rcases classifyFull_cases s.saddr adu with ⟨e, _⟩ | ⟨e, _⟩ | ⟨e, _⟩ <;> rw [e] at ha <;> cases ha <;> simp
  have hshort : ∀ adu, classifyShort adu = (v, code) → v ≠ .vNone ∧ (v ≠ .vException → code = 0) := by
    intro adu ha
    rcases classifyShort_cases adu with ⟨_, _, _, _, _, _, _, _, e⟩ | e <;> rw [e] at ha <;> cases ha <;> simp
  unfold parseFrame at h
  simp only at h
  split at h
  · cases h
    simp
  · split at h
    · split at h
      · cases h
      · exact hfull _ (Except.ok.inj h)
    · split at h
      · split at h
        · cases h
        · exact hshort _ (Except.ok.inj h)
      · cases h
        simp

/-- A parse stops only at an unwritten byte of RXBUF. -/
theorem parseFrame_error {s : State} {f : Fault} (h : parseFrame s = .error f) :
    ∃ j, f = .unwritten .rx j ∧ Store.read j s.rxbuf = none := by
  unfold parseFrame at h
  simp only at h
  split at h
  · cases h
  · split at h
    · split at h
      · rename_i g hg
        cases h
        obtain ⟨j, _, _, rfl, hn, _⟩ := readRun_eq_error.1 hg
        exact ⟨j, rfl, hn⟩
      · cases h
    · split at h
      · split at h
        · rename_i g hg
          cases h
          obtain ⟨j, _, _, rfl, hn, _⟩ := readRun_eq_error.1 hg
          exact ⟨j, rfl, hn⟩
        · cases h
      · cases h

/-! ### Decoding -/

theorem beHalves_length : ∀ bytes : List Byte, (beHalves bytes).length = bytes.length / 2
  | [] => by simp [beHalves]
  | [_] => by simp [beHalves]
  | _ :: _ :: rest => by
    simp only [beHalves, List.length_cons, beHalves_length rest]
    omega

/-- Register j of a response stands in bytes 2j (high) and 2j + 1 (low) of its register bytes (R153). -/
theorem beHalves_getElem? : ∀ (bytes : List Byte) (j : Nat) (h : 2 * j + 1 < bytes.length),
    (beHalves bytes)[j]? = some (beHalf bytes[2 * j] bytes[2 * j + 1])
  | [], _, h => by simp at h
  | [_], _, h => by simp at h
  | hi :: lo :: rest, 0, _ => by simp [beHalves]
  | hi :: lo :: rest, j + 1, h => by
    have hj : 2 * j + 1 < rest.length := by
      simp only [List.length_cons] at h
      omega
    simp only [beHalves, List.getElem?_cons_succ, beHalves_getElem? rest j hj]
    congr 2

/-- The echo comparison succeeds exactly on equal written bytes. -/
theorem echoes_eq_true {s : State} {i n : Nat} :
    echoes s i n = .ok true ↔
      ∀ j, i ≤ j → j < i + n → ∃ b, Store.read j s.rxbuf = some b ∧ Store.read j s.txbuf = some b := by
  induction n generalizing i with
  | zero =>
    simp only [echoes, true_iff]
    intro j h₁ h₂
    omega
  | succ n ih =>
    have split_first :
        (∀ j, i ≤ j → j < i + (n + 1) → ∃ b, Store.read j s.rxbuf = some b ∧ Store.read j s.txbuf = some b) ↔
          (∃ b, Store.read i s.rxbuf = some b ∧ Store.read i s.txbuf = some b) ∧
          ∀ j, i + 1 ≤ j → j < i + 1 + n → ∃ b, Store.read j s.rxbuf = some b ∧ Store.read j s.txbuf = some b := by
      constructor
      · exact fun h => ⟨h i (le_refl i) (by omega), fun j h₁ h₂ => h j (by omega) (by omega)⟩
      · rintro ⟨h₀, h⟩ j h₁ h₂
        rcases Nat.eq_or_lt_of_le h₁ with rfl | hlt
        · exact h₀
        · exact h j hlt (by omega)
    rw [split_first, ← ih, show echoes s i (n + 1) = _ from rfl, echoes]
    cases hr : Store.read i s.rxbuf with
    | none => simp [readEntry, hr]
    | some r =>
      cases ht : Store.read i s.txbuf with
      | none => simp [readEntry, hr, ht]
      | some t => by_cases h : r = t <;> simp [readEntry, hr, ht, h, eq_comm]

/-- Bytes that are equal and written are passed over by the echo comparison. -/
theorem echoes_skip {s : State} {i k n : Nat}
    (h : ∀ j, i ≤ j → j < i + k → ∃ b, Store.read j s.rxbuf = some b ∧ Store.read j s.txbuf = some b) :
    echoes s i (k + n) = echoes s (i + k) n := by
  induction k generalizing i with
  | zero => simp
  | succ k ih =>
    obtain ⟨b, hr, ht⟩ := h i (le_refl i) (by omega)
    rw [show k + 1 + n = (k + n) + 1 by omega, echoes]
    simp only [readEntry, hr, ht, if_pos]
    rw [ih fun j h₁ h₂ => h j (by omega) (by omega), show i + 1 + k = i + (k + 1) by omega]

/-- The echo comparison stops only at an unwritten byte. -/
theorem echoes_error {s : State} {i n : Nat} {f : Fault} (h : echoes s i n = .error f) :
    ∃ j, i ≤ j ∧ j < i + n ∧
      ((f = .unwritten .rx j ∧ Store.read j s.rxbuf = none) ∨ (f = .unwritten .tx j ∧ Store.read j s.txbuf = none)) := by
  induction n generalizing i with
  | zero => cases h
  | succ n ih =>
    unfold echoes at h
    split at h
    · rename_i g hg
      cases h
      exact ⟨i, by omega, by omega, .inl (readEntry_eq_error.1 hg)⟩
    · split at h
      · rename_i g hg
        cases h
        exact ⟨i, by omega, by omega, .inr (readEntry_eq_error.1 hg)⟩
      · split at h
        · obtain ⟨j, h₁, h₂, hj⟩ := ih h
          exact ⟨j, by omega, by omega, hj⟩
        · cases h

end Sys2Proof.Machine
end

