-- ==== Sys2Proof/Laws/Exec.lean ====
section
/-! SUPPORT. What each command can do, said once: every outcome of its meaning, with the condition it comes under. -/

namespace Sys2Proof.Machine

/-! ### The CRC16 Engine (spec/40_crc.md) -/

theorem exec_nop (s : State) : exec .nop s = .next (s.setErr .ok) := rfl

theorem exec_crcInit (s : State) : exec .crcInit s = .next ((s.setCrc 0xFFFF).setErr .ok) := rfl

theorem exec_crcByte (b : Byte) (s : State) :
    exec (.crcByte b) s = .next ((s.setCrc (crcUpdate s.crc b)).setErr .ok) := rfl

/-- CRC_TX (R104). -/
theorem exec_crcTx_cases (n : Nat) (s : State) :
    (256 < n ∧ exec (.crcTx n) s = .next (s.setErr .eRange)) ∨
    (n ≤ 256 ∧ ∃ bs, bs.length = n ∧ Store.Holds 0 bs s.txbuf ∧
      exec (.crcTx n) s = .next ((s.setCrc (crcFold s.crc bs)).setErr .ok)) ∨
    (n ≤ 256 ∧ ∃ j < n, Store.read j s.txbuf = none ∧ exec (.crcTx n) s = .fault (.unwritten .tx j)) := by
  simp only [exec, execCrcTx, crcSpan]
  by_cases hn : 256 < n
  · simp [hn]
  · rw [if_neg hn]
    cases h : readTx 0 n s with
    | ok bs =>
      obtain ⟨hl, hh⟩ := readTx_eq_ok.1 h
      exact .inr (.inl ⟨by omega, bs, hl, hh, rfl⟩)
    | error f =>
      obtain ⟨j, _, h₂, rfl, hj, _⟩ := readRun_eq_error.1 h
      exact .inr (.inr ⟨by omega, j, by omega, hj, rfl⟩)

/-- CRC_RX (R105). -/
theorem exec_crcRx_cases (n : Nat) (s : State) :
    (256 < n ∧ exec (.crcRx n) s = .next (s.setErr .eRange)) ∨
    (n ≤ 256 ∧ ∃ bs, bs.length = n ∧ Store.Holds 0 bs s.rxbuf ∧
      exec (.crcRx n) s = .next ((s.setCrc (crcFold s.crc bs)).setErr .ok)) ∨
    (n ≤ 256 ∧ ∃ j < n, Store.read j s.rxbuf = none ∧ exec (.crcRx n) s = .fault (.unwritten .rx j)) := by
  simp only [exec, execCrcRx, crcSpan]
  by_cases hn : 256 < n
  · simp [hn]
  · rw [if_neg hn]
    cases h : readRx 0 n s with
    | ok bs =>
      obtain ⟨hl, hh⟩ := readRx_eq_ok.1 h
      exact .inr (.inl ⟨by omega, bs, hl, hh, rfl⟩)
    | error f =>
      obtain ⟨j, _, h₂, rfl, hj, _⟩ := readRun_eq_error.1 h
      exact .inr (.inr ⟨by omega, j, by omega, hj, rfl⟩)

/-! ### The framer (spec/41_framer.md) -/

/-- FRAME_BUILD (R122). -/
theorem exec_frameBuild_cases (s : State) :
    (247 < s.saddr.toNat ∧ exec .frameBuild s = .next ((s.setTxCount 0).setErr .eAddr)) ∨
    (s.saddr.toNat ≤ 247 ∧ (s.wpduLen.toNat = 0 ∨ 253 < s.wpduLen.toNat) ∧
      exec .frameBuild s = .next ((s.setTxCount 0).setErr .eRange)) ∨
    (s.saddr.toNat ≤ 247 ∧ 1 ≤ s.wpduLen.toNat ∧ s.wpduLen.toNat ≤ 253 ∧
      exec .frameBuild s = buildAdu s.wpduLen.toNat s) := by
  simp only [exec, execFrameBuild]
  cases ha : badServerAddress s with
  | true => exact .inl ⟨by simpa using ha, by simp⟩
  | false =>
    have ha' : s.saddr.toNat ≤ 247 := by simpa using ha
    cases hl : badPduLen s.wpduLen with
    | true => exact .inr (.inl ⟨ha', by simpa using hl, by simp⟩)
    | false =>
      have hl' : 1 ≤ s.wpduLen.toNat ∧ s.wpduLen.toNat ≤ 253 := by simpa using hl
      exact .inr (.inr ⟨ha', hl'.1, hl'.2, by simp⟩)

/-- FRAME_PARSE (R124). -/
theorem exec_frameParse_cases (s : State) :
    (247 < s.saddr.toNat ∧ exec .frameParse s = .next (s.setErr .eAddr)) ∨
    (s.saddr.toNat ≤ 247 ∧ (s.rpduLen.toNat = 0 ∨ 253 < s.rpduLen.toNat ∨ 256 < s.rxCount.toNat) ∧
      exec .frameParse s = .next (s.setErr .eRange)) ∨
    (s.saddr.toNat ≤ 247 ∧ 1 ≤ s.rpduLen.toNat ∧ s.rpduLen.toNat ≤ 253 ∧ s.rxCount.toNat ≤ 256 ∧
      ((∃ v code, parseFrame s = .ok (v, code) ∧
          exec .frameParse s = .next ((s.setVerdict v code).setErr .ok)) ∨
        (∃ j, parseFrame s = .error (.unwritten .rx j) ∧ Store.read j s.rxbuf = none ∧
          exec .frameParse s = .fault (.unwritten .rx j)))) := by
  simp only [exec, execFrameParse]
  cases ha : badServerAddress s with
  | true => exact .inl ⟨by simpa using ha, by simp⟩
  | false =>
    have ha' : s.saddr.toNat ≤ 247 := by simpa using ha
    refine .inr ?_
    by_cases hl : (badPduLen s.rpduLen || decide (256 < s.rxCount.toNat)) = true
    · refine .inl ⟨ha', ?_, by simp [hl]⟩
      simpa [or_assoc] using hl
    · have hl' : (1 ≤ s.rpduLen.toNat ∧ s.rpduLen.toNat ≤ 253) ∧ s.rxCount.toNat ≤ 256 := by
        simp only [Bool.or_eq_true, badPduLen_eq_true, decide_eq_true_eq] at hl
        omega
      refine .inr ⟨ha', hl'.1.1, hl'.1.2, hl'.2, ?_⟩
      rw [if_neg hl]
      cases hp : parseFrame s with
      | ok vc => exact .inl ⟨vc.1, vc.2, rfl, by simp⟩
      | error f =>
        obtain ⟨j, rfl, hj⟩ := parseFrame_error hp
        exact .inr ⟨j, rfl, hj, by simp⟩

/-! ### The register operations (spec/42_register_ops.md) -/

/-- ENC_READ (R150). -/
theorem exec_encRead_cases (s : State) :
    (247 < s.saddr.toNat ∧ exec .encRead s = .next ((s.setTxCount 0).setErr .eAddr)) ∨
    (s.saddr.toNat ≤ 247 ∧ (s.regCount.toNat < 1 ∨ 125 < s.regCount.toNat) ∧
      exec .encRead s = .next ((s.setTxCount 0).setErr .eCount)) ∨
    (s.saddr.toNat ≤ 247 ∧ 1 ≤ s.regCount.toNat ∧ s.regCount.toNat ≤ 125 ∧
      0xFFFF < s.regAddr.toNat + s.regCount.toNat - 1 ∧
      exec .encRead s = .next ((s.setTxCount 0).setErr .eWrap)) ∨
    (s.saddr.toNat ≤ 247 ∧ 1 ≤ s.regCount.toNat ∧ s.regCount.toNat ≤ 125 ∧
      s.regAddr.toNat + s.regCount.toNat - 1 ≤ 0xFFFF ∧
      exec .encRead s = .next (encoded 0x03 s.regAddr s.regCount (2 + 2 * s.regCount.toNat) s)) := by
  simp only [exec, execEncRead]
  cases ha : badServerAddress s with
  | true => exact .inl ⟨by simpa using ha, by simp⟩
  | false =>
    have ha' : s.saddr.toNat ≤ 247 := by simpa using ha
    cases hc : badRegCount s.regCount with
    | true => exact .inr (.inl ⟨ha', by simpa using hc, by simp⟩)
    | false =>
      have hc' : 1 ≤ s.regCount.toNat ∧ s.regCount.toNat ≤ 125 := by simpa using hc
      by_cases hw : wrapsPastEnd s.regAddr s.regCount = true
      · refine .inr (.inr (.inl ⟨ha', hc'.1, hc'.2, by simpa using hw, by simp [hw]⟩))
      · refine .inr (.inr (.inr ⟨ha', hc'.1, hc'.2, ?_, by simp [hw, encodeRequest_eq, readPduLen]⟩))
        rw [wrapsPastEnd_eq_true] at hw
        omega

/-- ENC_WRITE (R154). -/
theorem exec_encWrite_cases (s : State) :
    (247 < s.saddr.toNat ∧ exec .encWrite s = .next ((s.setTxCount 0).setErr .eAddr)) ∨
    (s.saddr.toNat ≤ 247 ∧ exec .encWrite s = .next (encoded 0x06 s.regAddr s.regValue 5 s)) := by
  simp only [exec, execEncWrite]
  cases ha : badServerAddress s with
  | true => exact .inl ⟨by simpa using ha, by simp⟩
  | false => exact .inr ⟨by simpa using ha, by simp [encodeRequest_eq]⟩

/-- DEC_READ (R152). -/
theorem exec_decRead_cases (s : State) :
    (s.verdict ≠ .vOk ∧ exec .decRead s = .next (s.setErr .eFrame)) ∨
    (s.verdict = .vOk ∧ (s.regCount.toNat < 1 ∨ 125 < s.regCount.toNat) ∧
      exec .decRead s = .next (s.setErr .eCount)) ∨
    (s.verdict = .vOk ∧ 1 ≤ s.regCount.toNat ∧ s.regCount.toNat ≤ 125 ∧
      s.rpduLen.toNat ≠ 2 + 2 * s.regCount.toNat ∧ exec .decRead s = .next (s.setErr .eFrame)) ∨
    (s.verdict = .vOk ∧ 1 ≤ s.regCount.toNat ∧ s.regCount.toNat ≤ 125 ∧
      s.rpduLen.toNat = 2 + 2 * s.regCount.toNat ∧
      ((Store.read 2 s.rxbuf = none ∧ exec .decRead s = .fault (.unwritten .rx 2)) ∨
        (∃ b, Store.read 2 s.rxbuf = some b ∧ b.toNat ≠ 2 * s.regCount.toNat ∧
          exec .decRead s = .next (s.setErr .eByteCount)) ∨
        (∃ b, Store.read 2 s.rxbuf = some b ∧ b.toNat = 2 * s.regCount.toNat ∧
          ((∃ bytes, bytes.length = 2 * s.regCount.toNat ∧ Store.Holds 3 bytes s.rxbuf ∧
              exec .decRead s =
                .next ({ s with regdata := Store.writeRun 0 (beHalves bytes) s.regdata, err := .ok })) ∨
            (∃ j, 3 ≤ j ∧ j < 3 + 2 * s.regCount.toNat ∧ Store.read j s.rxbuf = none ∧
              exec .decRead s = .fault (.unwritten .rx j)))))) := by
  simp only [exec, execDecRead]
  by_cases hv : s.verdict = .vOk
  · rw [if_neg (by simp [hv])]
    refine .inr ?_
    cases hc : badRegCount s.regCount with
    | true => exact .inl ⟨hv, by simpa using hc, by simp⟩
    | false =>
      have hc' : 1 ≤ s.regCount.toNat ∧ s.regCount.toNat ≤ 125 := by simpa using hc
      rw [if_neg (by simp)]
      by_cases hl : s.rpduLen.toNat = 2 + 2 * s.regCount.toNat
      · refine .inr (.inr ⟨hv, hc'.1, hc'.2, hl, ?_⟩)
        rw [if_neg (by simp [readPduLen, hl])]
        unfold responseRegisters
        cases hb : readEntry .rx s.rxbuf 2 with
        | error f =>
          obtain ⟨rfl, hn⟩ := readEntry_eq_error.1 hb
          exact .inl ⟨hn, rfl⟩
        | ok b =>
          have hb' := readEntry_eq_ok.1 hb
          refine .inr ?_
          by_cases h2 : b.toNat = 2 * s.regCount.toNat
          · refine .inr ⟨b, hb', h2, ?_⟩
            simp only [h2, if_true]
            cases hr : readRx 3 (2 * s.regCount.toNat) s with
            | ok bytes =>
              obtain ⟨hlen, hh⟩ := readRx_eq_ok.1 hr
              exact .inl ⟨bytes, hlen, hh, rfl⟩
            | error f =>
              obtain ⟨j, h₁, h₂, rfl, hj, _⟩ := readRun_eq_error.1 hr
              exact .inr ⟨j, h₁, h₂, hj, rfl⟩
          · exact .inl ⟨b, hb', h2, by simp [h2]⟩
      · exact .inr (.inl ⟨hv, hc'.1, hc'.2, hl, by simp [readPduLen, hl]⟩)
  · exact .inl ⟨hv, by simp [hv]⟩

/-- DEC_WRITE (R156). -/
theorem exec_decWrite_cases (s : State) :
    (s.verdict ≠ .vOk ∧ exec .decWrite s = .next (s.setErr .eFrame)) ∨
    (s.verdict = .vOk ∧ s.rpduLen.toNat ≠ 5 ∧ exec .decWrite s = .next (s.setErr .eFrame)) ∨
    (s.verdict = .vOk ∧ s.rpduLen.toNat = 5 ∧
      ((echoes s 1 5 = .ok true ∧ exec .decWrite s = .next (s.setErr .ok)) ∨
        (echoes s 1 5 = .ok false ∧ exec .decWrite s = .next (s.setErr .eEcho)) ∨
        (∃ f, echoes s 1 5 = .error f ∧ exec .decWrite s = .fault f))) := by
  simp only [exec, execDecWrite]
  by_cases hv : s.verdict = .vOk
  · by_cases hl : s.rpduLen.toNat = 5
    · refine .inr (.inr ⟨hv, hl, ?_⟩)
      rw [if_neg (by simp [hv]), if_neg (by simp [hl])]
      cases he : echoes s 1 5 with
      | error f => exact .inr (.inr ⟨f, rfl, rfl⟩)
      | ok b => cases b <;> simp
    · exact .inr (.inl ⟨hv, hl, by simp [hv, hl]⟩)
  · exact .inl ⟨hv, by simp [hv]⟩

/-! ### All commands at once -/

/-- FRAME_BUILD, ENC_READ and ENC_WRITE: the commands that build a frame, and on failure leave none (R151). -/
def Instr.framing (i : Instr) : Prop := i = .frameBuild ∨ i = .encRead ∨ i = .encWrite

/-- What a command that answers a next state has done: it failed with an error, or it completed with the effect of its
rule. -/
theorem exec_next_cases {i : Instr} {s t : State} (h : exec i s = .next t) :
    (∃ e, e ≠ .ok ∧ ¬ Instr.framing i ∧ t = s.setErr e) ∨
    (∃ e, e ≠ .ok ∧ Instr.framing i ∧ t = (s.setTxCount 0).setErr e) ∨
    ((i = .nop ∨ i = .decWrite) ∧ t = s.setErr .ok) ∨
    (∃ c, (i = .crcInit ∨ (∃ b, i = .crcByte b) ∨ (∃ n, i = .crcTx n) ∨ ∃ n, i = .crcRx n) ∧
      t = (s.setCrc c).setErr .ok) ∨
    (i = .frameBuild ∧ s.saddr.toNat ≤ 247 ∧ 1 ≤ s.wpduLen.toNat ∧ s.wpduLen.toNat ≤ 253 ∧
      ∃ pdu, pdu.length = s.wpduLen.toNat ∧ Store.Holds 1 pdu s.txbuf ∧ t = built s.wpduLen.toNat pdu s) ∨
    (i = .frameParse ∧ s.saddr.toNat ≤ 247 ∧ 1 ≤ s.rpduLen.toNat ∧ s.rpduLen.toNat ≤ 253 ∧ s.rxCount.toNat ≤ 256 ∧
      ∃ v code, parseFrame s = .ok (v, code) ∧ t = (s.setVerdict v code).setErr .ok) ∨
    (i = .encRead ∧ s.saddr.toNat ≤ 247 ∧
      t = encoded 0x03 s.regAddr s.regCount (2 + 2 * s.regCount.toNat) s) ∨
    (i = .encWrite ∧ s.saddr.toNat ≤ 247 ∧ t = encoded 0x06 s.regAddr s.regValue 5 s) ∨
    (i = .decRead ∧ s.verdict = .vOk ∧ ∃ regs : List Half, regs.length = s.regCount.toNat ∧ regs.length ≤ 125 ∧
      t = { s with regdata := Store.writeRun 0 regs s.regdata, err := .ok }) := by
  have failed : ∀ {e}, e ≠ .ok → ¬ Instr.framing i → exec i s = .next (s.setErr e) →
      ∃ e, e ≠ .ok ∧ ¬ Instr.framing i ∧ t = s.setErr e := fun he hf hx => by
    rw [h] at hx
    exact ⟨_, he, hf, Host.Outcome.next.inj hx⟩
  have noFrame : ∀ {e}, e ≠ .ok → Instr.framing i → exec i s = .next ((s.setTxCount 0).setErr e) →
      ∃ e, e ≠ .ok ∧ Instr.framing i ∧ t = (s.setTxCount 0).setErr e := fun he hf hx => by
    rw [h] at hx
    exact ⟨_, he, hf, Host.Outcome.next.inj hx⟩
  have is : ∀ {u}, exec i s = .next u → t = u := fun hx => Host.Outcome.next.inj (h.symm.trans hx)
  have never : ∀ {f}, exec i s ≠ .fault f := fun hx => by simp [h] at hx
  cases i with
  | nop => exact .inr (.inr (.inl ⟨.inl rfl, is rfl⟩))
  | crcInit => exact .inr (.inr (.inr (.inl ⟨_, .inl rfl, is rfl⟩)))
  | crcByte b => exact .inr (.inr (.inr (.inl ⟨_, .inr (.inl ⟨b, rfl⟩), is rfl⟩)))
  | crcTx n =>
    rcases exec_crcTx_cases n s with ⟨_, hx⟩ | ⟨_, _, _, _, hx⟩ | ⟨_, _, _, _, hx⟩
    · exact .inl (failed (by simp) (by simp [Instr.framing]) hx)
    · exact .inr (.inr (.inr (.inl ⟨_, .inr (.inr (.inl ⟨n, rfl⟩)), is hx⟩)))
    · exact absurd hx never
  | crcRx n =>
    rcases exec_crcRx_cases n s with ⟨_, hx⟩ | ⟨_, _, _, _, hx⟩ | ⟨_, _, _, _, hx⟩
    · exact .inl (failed (by simp) (by simp [Instr.framing]) hx)
    · exact .inr (.inr (.inr (.inl ⟨_, .inr (.inr (.inr ⟨n, rfl⟩)), is hx⟩)))
    · exact absurd hx never
  | frameBuild =>
    rcases exec_frameBuild_cases s with ⟨_, hx⟩ | ⟨_, _, hx⟩ | ⟨ha, h₁, h₂, hx⟩
    · exact .inr (.inl (noFrame (by simp) (.inl rfl) hx))
    · exact .inr (.inl (noFrame (by simp) (.inl rfl) hx))
    · rcases buildAdu_cases s.wpduLen.toNat s with ⟨pdu, hl, hh, hb⟩ | ⟨_, _, _, _, hb⟩
      · exact .inr (.inr (.inr (.inr (.inl ⟨rfl, ha, h₁, h₂, pdu, hl, hh, is (hx.trans hb)⟩))))
      · exact absurd (hx.trans hb) never
  | frameParse =>
    rcases exec_frameParse_cases s with ⟨_, hx⟩ | ⟨_, _, hx⟩ | ⟨ha, h₁, h₂, h₃, ⟨v, code, hp, hx⟩ | ⟨_, _, _, hx⟩⟩
    · exact .inl (failed (by simp) (by simp [Instr.framing]) hx)
    · exact .inl (failed (by simp) (by simp [Instr.framing]) hx)
    · exact .inr (.inr (.inr (.inr (.inr (.inl ⟨rfl, ha, h₁, h₂, h₃, v, code, hp, is hx⟩)))))
    · exact absurd hx never
  | encRead =>
    rcases exec_encRead_cases s with ⟨_, hx⟩ | ⟨_, _, hx⟩ | ⟨_, _, _, _, hx⟩ | ⟨ha, _, _, _, hx⟩
    · exact .inr (.inl (noFrame (by simp) (.inr (.inl rfl)) hx))
    · exact .inr (.inl (noFrame (by simp) (.inr (.inl rfl)) hx))
    · exact .inr (.inl (noFrame (by simp) (.inr (.inl rfl)) hx))
    · exact .inr (.inr (.inr (.inr (.inr (.inr (.inl ⟨rfl, ha, is hx⟩))))))
  | encWrite =>
    rcases exec_encWrite_cases s with ⟨_, hx⟩ | ⟨ha, hx⟩
    · exact .inr (.inl (noFrame (by simp) (.inr (.inr rfl)) hx))
    · exact .inr (.inr (.inr (.inr (.inr (.inr (.inr (.inl ⟨rfl, ha, is hx⟩)))))))
  | decRead =>
    rcases exec_decRead_cases s with ⟨_, hx⟩ | ⟨_, _, hx⟩ | ⟨_, _, _, _, hx⟩ |
      ⟨hv, _, hn, _, ⟨_, hx⟩ | ⟨_, _, _, hx⟩ | ⟨_, _, _, ⟨bytes, hl, _, hx⟩ | ⟨_, _, _, _, hx⟩⟩⟩
    · exact .inl (failed (by simp) (by simp [Instr.framing]) hx)
    · exact .inl (failed (by simp) (by simp [Instr.framing]) hx)
    · exact .inl (failed (by simp) (by simp [Instr.framing]) hx)
    · exact absurd hx never
    · exact .inl (failed (by simp) (by simp [Instr.framing]) hx)
    · have hlen : (beHalves bytes).length = s.regCount.toNat := by
        rw [beHalves_length, hl]
        omega
      exact .inr (.inr (.inr (.inr (.inr (.inr (.inr (.inr ⟨rfl, hv, _, hlen, by omega, is hx⟩)))))))
    · exact absurd hx never
  | decWrite =>
    rcases exec_decWrite_cases s with ⟨_, hx⟩ | ⟨_, _, hx⟩ | ⟨_, _, ⟨_, hx⟩ | ⟨_, hx⟩ | ⟨_, _, hx⟩⟩
    · exact .inl (failed (by simp) (by simp [Instr.framing]) hx)
    · exact .inl (failed (by simp) (by simp [Instr.framing]) hx)
    · exact .inr (.inr (.inl ⟨.inr rfl, is hx⟩))
    · exact .inl (failed (by simp) (by simp [Instr.framing]) hx)
    · exact absurd hx never

end Sys2Proof.Machine
end

