-- ==== Sys2Proof/Laws/Bus.lean ====
section
/-! SUPPORT. The register window: where each slot stands, and what one host access can do. -/

namespace Sys2Proof.Machine

/-- The slot has a place in the map of R20: 64 words in each buffer, 125 entries of REGDATA. -/
def Slot.inMap : Slot → Prop
  | .tx k => k < 64
  | .rx k => k < 64
  | .regdata j => j < 125
  | _ => True

/-- Below 0x02C, exactly the multiples of 4 are registers of R20. -/
theorem lookup_registerMap {o : Nat} (ho : o < 0x02C) (h4 : o % 4 = 0) (slot : Slot) :
    registerMap.lookup o = some slot ↔ slot.inMap ∧ o = slot.offset := by
  have hcases : o = 0 ∨ o = 4 ∨ o = 8 ∨ o = 12 ∨ o = 16 ∨ o = 20 ∨ o = 24 ∨ o = 28 ∨ o = 32 ∨ o = 36 ∨ o = 40 := by
    omega
  rcases hcases with rfl | rfl | rfl | rfl | rfl | rfl | rfl | rfl | rfl | rfl | rfl <;>
    cases slot <;> simp [registerMap, Slot.inMap, Slot.offset, List.lookup] <;> omega

/-- An offset addresses a slot exactly when it is the slot's own offset (R20). -/
theorem slotAt_eq_some {off : Offset} {slot : Slot} :
    slotAt off = some slot ↔ slot.inMap ∧ off.toNat = slot.offset := by
  unfold slotAt alignedSlot
  by_cases h4 : off.toNat % 4 = 0
  · rw [if_pos h4]
    split
    · exact lookup_registerMap ‹_› h4 slot
    · repeat' split
      all_goals cases slot <;> simp [Slot.inMap, Slot.offset] <;> omega
  · rw [if_neg h4]
    cases slot <;> simp [Slot.inMap, Slot.offset] <;> omega

/-- An offset addresses no slot exactly when it is misaligned or reserved (R63). -/
theorem slotAt_eq_none {off : Offset} :
    slotAt off = none ↔
      off.toNat % 4 ≠ 0 ∨ (0x02C ≤ off.toNat ∧ off.toNat ≤ 0x0FF) ∨ (0x300 ≤ off.toNat ∧ off.toNat ≤ 0x3FF) ∨
      0x5F4 ≤ off.toNat := by
  unfold slotAt alignedSlot
  by_cases h4 : off.toNat % 4 = 0
  · rw [if_pos h4]
    split
    · rename_i ho
      have hcases : off.toNat = 0 ∨ off.toNat = 4 ∨ off.toNat = 8 ∨ off.toNat = 12 ∨ off.toNat = 16 ∨ off.toNat = 20 ∨
          off.toNat = 24 ∨ off.toNat = 28 ∨ off.toNat = 32 ∨ off.toNat = 36 ∨ off.toNat = 40 := by
        omega
      rcases hcases with h | h | h | h | h | h | h | h | h | h | h <;> simp [h, registerMap, List.lookup]
    · repeat' split
      all_goals
        simp
        omega
  · simp [h4]

/-- The offset of a slot of the map addresses it. -/
theorem slotAt_offset {slot : Slot} (h : slot.inMap) : slotAt (BitVec.ofNat 12 slot.offset) = some slot := by
  rw [slotAt_eq_some]
  refine ⟨h, ?_⟩
  cases slot <;> simp [Slot.inMap, Slot.offset] at * <;> omega

/-- CMD stands at offset 0 and nowhere else (R21). -/
theorem slotAt_cmd {off : Offset} : slotAt off = some .cmd ↔ off = 0 := by
  rw [slotAt_eq_some]
  simp [Slot.inMap, Slot.offset, ← BitVec.toNat_inj]

/-- A host access that answers a next state is a read, which changes only the reply (R65), a command, or a write to another
slot. -/
theorem access_next_cases {a : Access} {s t : State} (h : access a s = .next t) :
    ∃ slot, a.bits = 32 ∧ slotAt a.off = some slot ∧
      ((a.op = .read ∧ ∃ w, readSlot slot s = .ok w ∧ t = s.setReply (.data w)) ∨
       (∃ w, a.op = .write w ∧ slot = .cmd ∧ runCommand w (s.setReply .done) = .next t) ∨
       (∃ w, a.op = .write w ∧ slot ≠ .cmd ∧ writeSlot slot w (s.setReply .done) = .next t)) := by
  obtain ⟨bits, off, op⟩ := a
  unfold access at h
  split at h
  case isFalse => cases h
  case isTrue hb =>
    cases hs : slotAt off with
    | none => simp [hs] at h
    | some slot =>
      refine ⟨slot, hb, rfl, ?_⟩
      simp only [hs] at h
      cases op with
      | read =>
        simp only [slotAccess] at h
        cases hw : readSlot slot s with
        | error f => simp [hw] at h
        | ok w =>
          simp only [hw, Host.Outcome.next.injEq] at h
          exact .inl ⟨rfl, w, rfl, h.symm⟩
      | write w =>
        by_cases hc : slot = .cmd
        · subst hc
          exact .inr (.inl ⟨w, rfl, rfl, h⟩)
        · exact .inr (.inr ⟨w, rfl, hc, h⟩)

/-- The step that faces a host access takes it. -/
theorem step_facing (a : Access) (rest : List Input) (s : State) :
    step (s.facing a rest) = access a { s with bus := rest } := rfl

/-- A 32-bit access at the offset of a slot reads or writes that slot. -/
theorem access_slot {slot : Slot} (h : slot.inMap) (op : BusOp) (s : State) :
    access ⟨32, BitVec.ofNat 12 slot.offset, op⟩ s = slotAccess op slot s := by
  simp only [access, slotAt_offset h, if_true]

/-- The step that faces such an access. -/
theorem step_facing_slot {slot : Slot} (h : slot.inMap) (op : BusOp) (rest : List Input) (s : State) :
    step (s.facing ⟨32, BitVec.ofNat 12 slot.offset, op⟩ rest) = slotAccess op slot { s with bus := rest } :=
  access_slot h op _

/-- What waits on the bus and the last reply play no part in a host read. -/
theorem readSlot_congr (slot : Slot) (s : State) (rest : List Input) (r : Reply) :
    readSlot slot { s with bus := rest, reply := r } = readSlot slot s := by
  cases slot <;> rfl

/-- Writing a slot other than CMD: a bus error for a read-only one, else one field and the side effect of R40. -/
theorem writeSlot_next_cases {slot : Slot} {w : Word} {s t : State} (hc : slot ≠ .cmd)
    (h : writeSlot slot w s = .next t) :
    (slot = .crc ∧ t = { s with crc := w.setWidth 16 }) ∨
    (slot = .saddr ∧ t = ({ s with saddr := w.setWidth 8 } : State).setVerdict .vNone 0) ∨
    (slot = .wpduLen ∧ t = ({ s with wpduLen := w.setWidth 8 } : State).setTxCount 0) ∨
    (slot = .rpduLen ∧ t = ({ s with rpduLen := w.setWidth 8 } : State).setVerdict .vNone 0) ∨
    (slot = .rxCount ∧ t = ({ s with rxCount := w.setWidth 9 } : State).setVerdict .vNone 0) ∨
    (slot = .regAddr ∧ t = { s with regAddr := w.setWidth 16 }) ∨
    (slot = .regCount ∧ t = { s with regCount := w.setWidth 16 }) ∨
    (slot = .regValue ∧ t = { s with regValue := w.setWidth 16 }) ∨
    (∃ k, slot = .tx k ∧ t = ({ s with txbuf := writeLanes k w s.txbuf } : State).setTxCount 0) ∨
    (∃ k, slot = .rx k ∧ t = ({ s with rxbuf := writeLanes k w s.rxbuf } : State).setVerdict .vNone 0) := by
  cases slot
  case cmd => exact absurd rfl hc
  all_goals
    cases h
    try simp

/-- A step that answers a next state idles, resets, or takes an access. -/
theorem step_next_cases {s t : State} (h : step s = .next t) :
    (s.bus = [] ∧ t = s) ∨ (∃ rest, s.bus = .reset :: rest ∧ t = { State.reset with bus := rest }) ∨
    (∃ a rest, s.bus = .access a :: rest ∧ access a { s with bus := rest } = .next t) := by
  unfold step at h
  split at h
  · rename_i hb
    cases h
    exact .inl ⟨hb, rfl⟩
  · rename_i input rest hb
    cases input with
    | reset =>
      cases h
      exact .inr (.inl ⟨rest, hb, rfl⟩)
    | access a => exact .inr (.inr ⟨a, rest, hb, h⟩)

/-- A command that runs is one the word decodes to, or the word is illegal (R84). -/
theorem runCommand_cases (w : Word) (s : State) :
    (∃ i, decode w = .ok i ∧ runCommand w s = exec i s) ∨
    (∃ why, decode w = .error why ∧ runCommand w s = .next (s.setErr .eOpcode)) := by
  unfold runCommand
  cases h : decode w with
  | ok i => exact .inl ⟨i, rfl, rfl⟩
  | error why => exact .inr ⟨why, rfl, rfl⟩

/-- A host write of one of the 64 words keeps a buffer canonical. -/
theorem wf_writeLanes {k : Nat} (hk : k < 64) {m : Memory} (h : Memory.wf m = true) (w : Word) :
    Memory.wf (writeLanes k w m) = true :=
  Store.wf_writeRun h (by simp only [laneBytes, List.length_cons, List.length_nil, bufferSize]; omega)

/-- The lanes as the spec writes them: `b3 || b2 || b1 || b0` (R61). -/
theorem lanesWord_four (b0 b1 b2 b3 : Byte) : lanesWord [b0, b1, b2, b3] = b3 ++ b2 ++ b1 ++ b0 := by
  apply BitVec.eq_of_getLsbD_eq
  intro i hi
  simp only [lanesWord, List.foldr, BitVec.getLsbD_or, BitVec.getLsbD_shiftLeft, BitVec.getLsbD_append,
    BitVec.getLsbD_setWidth]
  by_cases h1 : i < 8
  · simp [h1, hi]
  · by_cases h2 : i < 16
    · simp [h1, hi, show i - 8 < 8 by omega, BitVec.getLsbD_of_ge b0 i (by omega)]
      omega
    · by_cases h3 : i < 24
      · simp [h1, hi, show ¬ i - 8 < 8 by omega, show i - 8 - 8 < 8 by omega, BitVec.getLsbD_of_ge b0 i (by omega),
          BitVec.getLsbD_of_ge b1 (i - 8) (by omega)]
        simp [show i - 8 < 32 by omega, show i - 8 - 8 < 32 by omega]
      · simp [h1, hi, show ¬ i - 8 < 8 by omega, show ¬ i - 8 - 8 < 8 by omega, BitVec.getLsbD_of_ge b0 i (by omega),
          BitVec.getLsbD_of_ge b1 (i - 8) (by omega), BitVec.getLsbD_of_ge b2 (i - 8 - 8) (by omega)]
        simp [show i - 8 < 32 by omega, show i - 8 - 8 < 32 by omega, show i - 8 - 8 - 8 < 32 by omega]

/-- The four bytes of a buffer word, read through its lanes (R61). -/
theorem readLanes_of_holds {b : Buffer} {m : Memory} {k : Nat} {b0 b1 b2 b3 : Byte}
    (h : Store.Holds (4 * k) [b0, b1, b2, b3] m) : readLanes b m k = .ok (b3 ++ b2 ++ b1 ++ b0) := by
  unfold readLanes
  rw [(readRun_eq_ok (n := 4)).2 ⟨rfl, h⟩, ← lanesWord_four]

/-- The lanes of a word put together are the word (R61). -/
theorem lanes_append (w : Word) : lane 3 w ++ lane 2 w ++ lane 1 w ++ lane 0 w = w := by
  apply BitVec.eq_of_getLsbD_eq
  intro i hi
  simp only [lane, BitVec.getLsbD_append, BitVec.getLsbD_extractLsb']
  by_cases h1 : i < 8
  · simp [h1]
  · by_cases h2 : i < 16
    · simp [h1, show i - 8 < 8 by omega, show 8 + (i - 8) = i by omega]
    · by_cases h3 : i < 24
      · simp [h1, show ¬ i - 8 < 8 by omega, show i - 8 - 8 < 8 by omega, show 16 + (i - 8 - 8) = i by omega]
      · simp [h1, show ¬ i - 8 < 8 by omega, show ¬ i - 8 - 8 < 8 by omega, show i - 8 - 8 - 8 < 8 by omega,
          show 24 + (i - 8 - 8 - 8) = i by omega]

end Sys2Proof.Machine
end

