-- ==== Sys2Proof/Laws/PerInstr.lean ====
section
/-! SUPPORT. A fact about every command as syntax, one lemma per constructor: its command word selects its own row of the
opcode map (spec/30_encoding.md R81, R83). -/

namespace Sys2Proof.Laws.EncodesItsRow

/-- The match value of the row a command is listed in (R83). -/
def rowMatch : Instr → Word
  | .nop => 0x00
  | .crcInit => 0x01
  | .crcByte _ => 0x02
  | .crcTx _ => 0x03
  | .crcRx _ => 0x04
  | .frameBuild => 0x10
  | .frameParse => 0x11
  | .encRead => 0x20
  | .encWrite => 0x21
  | .decRead => 0x22
  | .decWrite => 0x23

/-- The word of a well-formed command selects the row with its match value. -/
def Statement (i : Instr) : Prop :=
  i.wellFormed = true → ∃ r ∈ opcodeMap, r.matchWord = rowMatch i ∧ r.selects (encode i) = true

/-- A byte operand stands in bits that the row's mask leaves out. -/
theorem wordFB_masked (op b : Byte) : wordFB op b &&& 0xFFFF00FF = op.setWidth 32 := by
  apply BitVec.eq_of_getLsbD_eq
  intro i hi
  simp only [wordFB, BitVec.getLsbD_and, BitVec.getLsbD_or, BitVec.getLsbD_setWidth, BitVec.getLsbD_shiftLeft]
  rcases Nat.lt_or_ge i 8 with h | h
  · have : (0xFFFF00FF : Word).getLsbD i = true := by interval_cases i <;> rfl
    rw [this]
    simp [hi, h]
  · rw [BitVec.getLsbD_of_ge op i h]
    rcases Nat.lt_or_ge i 16 with h16 | h16
    · have : (0xFFFF00FF : Word).getLsbD i = false := by interval_cases i <;> rfl
      rw [this]
      simp
    · simp [BitVec.getLsbD_of_ge b (i - 8) (by omega)]

/-- A byte count of at most 511 stands in bits that the row's mask leaves out. -/
theorem wordFL_masked (op : Byte) {len : Nat} (h : len ≤ 511) : wordFL op len &&& 0xFE00FFFF = op.setWidth 32 := by
  apply BitVec.eq_of_getLsbD_eq
  intro i hi
  simp only [wordFL, BitVec.getLsbD_and, BitVec.getLsbD_or, BitVec.getLsbD_setWidth, BitVec.getLsbD_shiftLeft,
    BitVec.getLsbD_ofNat]
  rcases Nat.lt_or_ge i 16 with h16 | h16
  · have : (0xFE00FFFF : Word).getLsbD i = true := by interval_cases i <;> rfl
    rw [this]
    simp [hi, h16]
  · rw [BitVec.getLsbD_of_ge op i (by omega)]
    rcases Nat.lt_or_ge i 25 with h25 | h25
    · have : (0xFE00FFFF : Word).getLsbD i = false := by interval_cases i <;> rfl
      rw [this]
      simp
    · have hb : len.testBit (i - 16) = false :=
        Nat.testBit_lt_two_pow (lt_of_lt_of_le (by omega : len < 2 ^ 9) (Nat.pow_le_pow_right (by omega) (by omega)))
      simp [hb]

theorem nop : Statement .nop := fun _ => ⟨opcodeMap[0], by simp [opcodeMap], rfl, rfl⟩

theorem crcInit : Statement .crcInit := fun _ => ⟨opcodeMap[1], by simp [opcodeMap], rfl, rfl⟩

theorem crcByte (b : Byte) : Statement (.crcByte b) := fun _ =>
  ⟨opcodeMap[2], by simp [opcodeMap], rfl, beq_iff_eq.2 (wordFB_masked 0x02 b)⟩

theorem crcTx (len : Nat) : Statement (.crcTx len) := fun h =>
  ⟨opcodeMap[3], by simp [opcodeMap], rfl, beq_iff_eq.2 (wordFL_masked 0x03 (of_decide_eq_true h))⟩

theorem crcRx (len : Nat) : Statement (.crcRx len) := fun h =>
  ⟨opcodeMap[4], by simp [opcodeMap], rfl, beq_iff_eq.2 (wordFL_masked 0x04 (of_decide_eq_true h))⟩

theorem frameBuild : Statement .frameBuild := fun _ => ⟨opcodeMap[5], by simp [opcodeMap], rfl, rfl⟩

theorem frameParse : Statement .frameParse := fun _ => ⟨opcodeMap[6], by simp [opcodeMap], rfl, rfl⟩

theorem encRead : Statement .encRead := fun _ => ⟨opcodeMap[7], by simp [opcodeMap], rfl, rfl⟩

theorem encWrite : Statement .encWrite := fun _ => ⟨opcodeMap[8], by simp [opcodeMap], rfl, rfl⟩

theorem decRead : Statement .decRead := fun _ => ⟨opcodeMap[9], by simp [opcodeMap], rfl, rfl⟩

theorem decWrite : Statement .decWrite := fun _ => ⟨opcodeMap[10], by simp [opcodeMap], rfl, rfl⟩

end Sys2Proof.Laws.EncodesItsRow
end

