-- ==== Sys2Proof/Laws/Program.lean ====
section
/-! SUPPORT. What host programs do to the block: programs in a row, single writes, and loading the receive buffer. -/

namespace Sys2Proof.Machine

/-- A program after a program (spec/20_memory.md R68). -/
theorem accesses_append (p q : List Access) (s : State) :
    accesses (p ++ q) s =
      match accesses p s with
      | .next t => accesses q t
      | .fault f => .fault f
      | .refused r => .refused r := by
  induction p generalizing s with
  | nil => rfl
  | cons a p ih =>
    simp only [List.cons_append, accesses]
    cases access a s with
    | next t => exact ih t
    | fault f => rfl
    | refused r => rfl

/-- `WR <reg>, <imm32>` writes the slot. -/
theorem access_wr {slot : Slot} (h : slot.inMap) (w : Word) (s : State) :
    access (wr slot w) s = writeSlot slot w (s.setReply .done) := access_slot h _ s

/-- `CMD <command>` runs the command its word decodes to. -/
theorem access_cmd {i : Instr} (h : decode (encode i) = .ok i) (s : State) :
    access (cmd i) s = exec i (s.setReply .done) := by
  rw [cmd, access_wr (slot := .cmd) trivial, writeSlot, runCommand, h]

/-- The lanes of a word made of four bytes are those bytes (R61). -/
theorem laneBytes_lanesWord (b0 b1 b2 b3 : Byte) : laneBytes (lanesWord [b0, b1, b2, b3]) = [b0, b1, b2, b3] := by
  have key : ∀ i j : Nat, i < 4 → j < 8 →
      (lane i (b3 ++ b2 ++ b1 ++ b0)).getLsbD j = ([b0, b1, b2, b3][i]!).getLsbD j := by
    intro i j hi hj
    simp only [lane, BitVec.getLsbD_extractLsb', BitVec.getLsbD_append]
    rcases (by omega : i = 0 ∨ i = 1 ∨ i = 2 ∨ i = 3) with rfl | rfl | rfl | rfl
    · simp [hj]
    · simp [hj]
    · simp [hj, show ¬ 16 + j < 8 by omega, show ¬ 16 + j - 8 < 8 by omega, show 16 + j - 8 - 8 = j by omega]
    · simp [hj, show ¬ 24 + j < 8 by omega, show ¬ 24 + j - 8 < 8 by omega, show ¬ 24 + j - 8 - 8 < 8 by omega,
        show 24 + j - 8 - 8 - 8 = j by omega]
  rw [lanesWord_four]
  simp only [laneBytes, List.cons.injEq, and_true]
  refine ⟨?_, ?_, ?_, ?_⟩ <;> apply BitVec.eq_of_getLsbD_eq <;> intro j hj
  · exact key 0 j (by omega) hj
  · exact key 1 j (by omega) hj
  · exact key 2 j (by omega) hj
  · exact key 3 j (by omega) hj

/-- t is s but for RXBUF, the verdict with its exception fields, and the reply: what writes to RXBUF can change (R40). -/
def State.SameButRx (s t : State) : Prop :=
  t = { s with rxbuf := t.rxbuf, verdict := t.verdict, excCode := t.excCode, excKnown := t.excKnown, reply := t.reply }

/-- Writing one word of RXBUF whose first lanes are the given bytes. -/
theorem access_wr_rx {k : Nat} (hk : k < 64) {w : Word} {bytes pad : List Byte} (hw : laneBytes w = bytes ++ pad)
    (s : State) :
    ∃ t, access (wr (.rx k) w) s = .next t ∧ s.SameButRx t ∧ Store.Holds (4 * k) bytes t.rxbuf ∧
      ∀ j < 4 * k, Store.read j t.rxbuf = Store.read j s.rxbuf := by
  have hh : Store.Holds (4 * k) (laneBytes w) (writeLanes k w s.rxbuf) := Store.holds_writeRun _ _ _
  rw [hw, Store.holds_append] at hh
  exact ⟨_, access_wr (slot := .rx k) hk w s, rfl, hh.1, fun j hj => Store.read_writeRun_outside (.inl hj) _⟩

/-- The words of a load of RXBUF from word k up (spec/30_encoding.md R93). -/
theorem accesses_padWords_rx : ∀ (bytes : List Byte) (k : Nat) (s : State), 4 * k + bytes.length ≤ 256 →
    ∃ t, accesses ((padWords k bytes).map fun kw => wr (.rx kw.1) kw.2) s = .next t ∧ s.SameButRx t ∧
      Store.Holds (4 * k) bytes t.rxbuf ∧ ∀ j < 4 * k, Store.read j t.rxbuf = Store.read j s.rxbuf
  | [], _, s, _ => ⟨s, rfl, rfl, Store.holds_nil _ _, fun _ _ => rfl⟩
  | [b0], k, s, hl => by
    have hk : k < 64 := by simp only [List.length_cons] at hl; omega
    obtain ⟨t, h, ht⟩ := access_wr_rx hk (laneBytes_lanesWord b0 0 0 0) (bytes := [b0]) (pad := [0, 0, 0]) s
    exact ⟨t, by simp only [padWords, List.map, accesses, h], ht⟩
  | [b0, b1], k, s, hl => by
    have hk : k < 64 := by simp only [List.length_cons] at hl; omega
    obtain ⟨t, h, ht⟩ := access_wr_rx hk (laneBytes_lanesWord b0 b1 0 0) (bytes := [b0, b1]) (pad := [0, 0]) s
    exact ⟨t, by simp only [padWords, List.map, accesses, h], ht⟩
  | [b0, b1, b2], k, s, hl => by
    have hk : k < 64 := by simp only [List.length_cons] at hl; omega
    obtain ⟨t, h, ht⟩ := access_wr_rx hk (laneBytes_lanesWord b0 b1 b2 0) (bytes := [b0, b1, b2]) (pad := [0]) s
    exact ⟨t, by simp only [padWords, List.map, accesses, h], ht⟩
  | b0 :: b1 :: b2 :: b3 :: rest, k, s, hl => by
    simp only [List.length_cons] at hl
    obtain ⟨t, h, hs, hh, hr⟩ :=
      access_wr_rx (by omega : k < 64) (laneBytes_lanesWord b0 b1 b2 b3) (bytes := [b0, b1, b2, b3]) (pad := []) s
    obtain ⟨u, hu, hus, huh, hur⟩ := accesses_padWords_rx rest (k + 1) t (by omega)
    refine ⟨u, by simp only [padWords, List.map_cons, accesses, h]; exact hu, ?_, ?_, fun j hj => ?_⟩
    · unfold State.SameButRx at *
      rw [hus, hs]
    · rw [show b0 :: b1 :: b2 :: b3 :: rest = [b0, b1, b2, b3] ++ rest from rfl, Store.holds_append]
      refine ⟨hh.congr fun j _ hj => hur j (by simp at hj; omega), by simpa [Nat.mul_add] using huh⟩
    · rw [hur j (by omega), hr j hj]

/-- `LOADRX` (R93): RXBUF holds the bytes, RX_COUNT their number, and no verdict stands (R40). -/
theorem accesses_loadRx {bytes : List Byte} (hl : bytes.length ≤ 256) (s : State) :
    ∃ m, Store.Holds 0 bytes m ∧
      accesses (loadRx bytes) s =
        .next { s with
          rxbuf := m, rxCount := BitVec.ofNat 9 bytes.length, verdict := .vNone, excCode := 0, excKnown := false
          reply := .done } := by
  obtain ⟨t, h, hs, hh, _⟩ := accesses_padWords_rx bytes 0 s (by omega)
  refine ⟨t.rxbuf, by simpa using hh, ?_⟩
  have hc : (BitVec.ofNat 32 bytes.length).setWidth 9 = BitVec.ofNat 9 bytes.length := by
    apply BitVec.eq_of_toNat_eq
    simp
  simp only [loadRx, accesses_append, h, accesses, access_wr (slot := .rxCount) trivial, writeSlot, hc]
  rw [hs]
  rfl

end Sys2Proof.Machine
end

