-- ==== Sys2Proof/Laws/Protocol.lean ====
section
/-! SUPPORT. The host protocol: the names it logs, and what receiving a response in an attempt can do. -/

namespace Sys2Proof.Machine

/-- A code the source names is logged under that name, in every entry of the log (R183). -/
theorem exceptionName_of_listed {code : Byte} {name : String} (h : listedExceptionNames.lookup code = some name)
    (entry : Nat) : exceptionName entry code = name := by
  rw [exceptionName, h]

/-- The words that hold n bytes from word k up end below byte 4k + n. -/
theorem mem_padWords : ∀ {bytes : List Byte} {k : Nat} {kw : Nat × Word}, kw ∈ padWords k bytes →
    4 * kw.1 < 4 * k + bytes.length
  | [], k, kw => by simp [padWords]
  | [b0], k, kw => by rintro h; simp_all [padWords]
  | [b0, b1], k, kw => by rintro h; simp_all [padWords]
  | [b0, b1, b2], k, kw => by rintro h; simp_all [padWords]
  | b0 :: b1 :: b2 :: b3 :: rest, k, kw => by
    simp only [padWords, List.mem_cons, List.length_cons]
    rintro (rfl | h)
    · simp
    · have := mem_padWords h
      omega

/-- Writes of words of RXBUF that complete leave the request: TXBUF, TX_COUNT, SADDR and RPDU_LEN (R40). Word 64 is the
first offset behind RXBUF, which is reserved (R63). -/
theorem accesses_rx_words_keep {ws : List (Nat × Word)} (hw : ∀ kw ∈ ws, kw.1 ≤ 64) {s t : State}
    (h : accesses (ws.map fun kw => wr (.rx kw.1) kw.2) s = .next t) :
    t.txbuf = s.txbuf ∧ t.txCount = s.txCount ∧ t.saddr = s.saddr ∧ t.rpduLen = s.rpduLen := by
  induction ws generalizing s with
  | nil => cases h; exact ⟨rfl, rfl, rfl, rfl⟩
  | cons kw ws ih =>
    simp only [List.map_cons, accesses] at h
    by_cases hk : kw.1 < 64
    · rw [access_wr (slot := .rx kw.1) hk] at h
      obtain ⟨h₁, h₂, h₃, h₄⟩ := ih (fun q hq => hw q (by simp [hq])) h
      exact ⟨h₁.trans rfl, h₂.trans rfl, h₃.trans rfl, h₄.trans rfl⟩
    · have hk : kw.1 = 64 := by have := hw kw (by simp); omega
      have hs : slotAt (BitVec.ofNat 12 (Slot.rx 64).offset) = none := by decide
      simp [hk, access, wr, hs] at h

/-- Every way receiving a response can go on (R196, R197): FRAME_PARSE runs on a block with no verdict and the same request,
and either it completes and its verdict is acted on, or it reports an error and the attempt is fatal (notes 14). -/
theorem receive_some_cases {k : Nat} {bytes : List Byte} {e e' : Engine} {r : AttemptEnd}
    (h : receive k (some bytes) e = .next (r, e')) :
    ∃ s v, s.verdict = .vNone ∧ s.txbuf = e.block.txbuf ∧ s.txCount = e.block.txCount ∧ s.saddr = e.block.saddr ∧
      s.rpduLen = e.block.rpduLen ∧ exec .frameParse s = .next v ∧
      ((v.err = .ok ∧ (r, e') = actOnVerdict k { e with block := v }) ∨
       (v.err ≠ .ok ∧ v.verdict = .vNone ∧ r = .fatal ∧ e' = { e with block := v })) := by
  have hl : (bytes.take (expectedAdu e.block.rpduLen)).length ≤ 258 := by
    rw [List.length_take, expectedAdu]; omega
  simp only [receive, loadRx, accesses_append] at h
  cases hx : accesses ((padWords 0 (bytes.take (expectedAdu e.block.rpduLen))).map fun kw => wr (.rx kw.1) kw.2) e.block with
  | fault => rw [hx] at h; cases h
  | refused => rw [hx] at h; cases h
  | next t =>
    have keep := accesses_rx_words_keep (fun kw hkw => by have := mem_padWords hkw; omega) hx
    rw [hx] at h
    simp only [accesses, access_cmd (i := .frameParse) rfl, access_wr (slot := .rxCount) trivial, writeSlot] at h
    generalize hs : State.setReply Reply.done (State.setVerdict _ _ _) = s at h
    have hv : s.verdict = .vNone := by rw [← hs]; rfl
    have request : s.txbuf = e.block.txbuf ∧ s.txCount = e.block.txCount ∧ s.saddr = e.block.saddr ∧
        s.rpduLen = e.block.rpduLen := by
      obtain ⟨k₁, k₂, k₃, k₄⟩ := keep
      subst hs
      exact ⟨k₁, k₂, k₃, k₄⟩
    refine ⟨s, ?_⟩
    rcases exec_frameParse_cases s with ⟨_, hp⟩ | ⟨_, _, hp⟩ | ⟨_, _, _, _, ⟨v, code, _, hp⟩ | ⟨_, _, _, hp⟩⟩
    · rw [hp] at h; cases h
      exact ⟨_, hv, request.1, request.2.1, request.2.2.1, request.2.2.2, hp, .inr ⟨by simp, by simpa using hv, rfl, rfl⟩⟩
    · rw [hp] at h; cases h
      exact ⟨_, hv, request.1, request.2.1, request.2.2.1, request.2.2.2, hp, .inr ⟨by simp, by simpa using hv, rfl, rfl⟩⟩
    · rw [hp] at h
      exact ⟨_, hv, request.1, request.2.1, request.2.2.1, request.2.2.2, hp,
        .inl ⟨by simp, (Host.Outcome.next.inj h).symm⟩⟩
    · rw [hp] at h; cases h

end Sys2Proof.Machine
end

