-- ==== Sys2Proof/Laws/Waiting.lean ====
section
/-! SUPPORT. What waits on the bus plays no part in what an access does (spec/20_memory.md R68, R71): an access among others is
the access alone. -/

namespace Sys2Proof.Machine

/-- An outcome with its next state, if it has one, changed. -/
def onNext (f : State → State) : Host.Outcome State Fault Refusal → Host.Outcome State Fault Refusal
  | .next t => .next (f t)
  | .fault r => .fault r
  | .refused r => .refused r

@[simp] theorem onNext_next (f : State → State) (t : State) : onNext f (.next t) = .next (f t) := rfl

@[simp] theorem onNext_fault (f : State → State) (r : Fault) : onNext f (.fault r) = .fault r := rfl

@[simp] theorem onNext_refused (f : State → State) (r : Refusal) : onNext f (.refused r) = .refused r := rfl

/-- s with other inputs waiting and another last reply. -/
def State.onBus (waiting : List Input) (r : Reply) (s : State) : State := { s with bus := waiting, reply := r }

theorem buildAdu_onBus (len : Nat) (s : State) (b : List Input) (r : Reply) :
    buildAdu len (s.onBus b r) = onNext (State.onBus b r) (buildAdu len s) := by
  unfold buildAdu
  rw [show readTx 1 len (s.onBus b r) = readTx 1 len s from rfl]
  cases readTx 1 len s <;> rfl

theorem echoes_onBus (s : State) (b : List Input) (r : Reply) (i n : Nat) :
    echoes (s.onBus b r) i n = echoes s i n := by
  induction n generalizing i with
  | zero => rfl
  | succ n ih =>
    simp only [echoes, ih]
    rfl

theorem crcSpan_onBus (n : Nat) {bytes : State → Except Fault (List Byte)} {s : State} {b : List Input} {r : Reply}
    (h : bytes (s.onBus b r) = bytes s) :
    crcSpan n bytes (s.onBus b r) = onNext (State.onBus b r) (crcSpan n bytes s) := by
  unfold crcSpan
  rw [h]
  split
  · rfl
  · cases bytes s <;> rfl

/-- A command neither reads nor writes the model's own fields. -/
theorem exec_onBus (i : Instr) (s : State) (b : List Input) (r : Reply) :
    exec i (s.onBus b r) = onNext (State.onBus b r) (exec i s) := by
  have haddr : badServerAddress (s.onBus b r) = badServerAddress s := rfl
  cases i with
  | nop => rfl
  | crcInit => rfl
  | crcByte _ => rfl
  | crcTx n => exact crcSpan_onBus n rfl
  | crcRx n => exact crcSpan_onBus n rfl
  | frameBuild =>
    simp only [exec, execFrameBuild]
    rw [haddr, show (s.onBus b r).wpduLen = s.wpduLen from rfl, buildAdu_onBus]
    repeat' split
    all_goals rfl
  | frameParse =>
    simp only [exec, execFrameParse]
    rw [parseFrame_congr (s := s) (t := s.onBus b r) rfl rfl rfl rfl, haddr,
      show (s.onBus b r).rpduLen = s.rpduLen from rfl, show (s.onBus b r).rxCount = s.rxCount from rfl]
    split
    · rfl
    · split
      · rfl
      · cases parseFrame s with
        | error f => rfl
        | ok vc =>
          obtain ⟨v, code⟩ := vc
          cases v <;> rfl
  | encRead =>
    simp only [exec, execEncRead, encodeRequest_eq]
    rw [haddr, show (s.onBus b r).regCount = s.regCount from rfl, show (s.onBus b r).regAddr = s.regAddr from rfl]
    repeat' split
    all_goals rfl
  | encWrite =>
    simp only [exec, execEncWrite, encodeRequest_eq]
    rw [haddr]
    split <;> rfl
  | decRead =>
    simp only [exec, execDecRead]
    rw [show (s.onBus b r).verdict = s.verdict from rfl, show (s.onBus b r).regCount = s.regCount from rfl,
      show (s.onBus b r).rpduLen = s.rpduLen from rfl,
      show responseRegisters s.regCount.toNat (s.onBus b r) = responseRegisters s.regCount.toNat s from rfl]
    repeat' split
    all_goals rfl
  | decWrite =>
    simp only [exec, execDecWrite, echoes_onBus]
    rw [show (s.onBus b r).verdict = s.verdict from rfl, show (s.onBus b r).rpduLen = s.rpduLen from rfl]
    repeat' split
    all_goals rfl

/-- An access does the same whatever waits behind it, and leaves that waiting. -/
theorem access_onBus (a : Access) (s : State) (b : List Input) :
    access a { s with bus := b } = onNext (fun t => { t with bus := b }) (access a s) := by
  obtain ⟨bits, off, op⟩ := a
  unfold access
  split
  case isFalse => rfl
  case isTrue =>
    cases slotAt off with
    | none => rfl
    | some slot =>
      cases op with
      | read =>
        simp only [slotAccess]
        rw [show ({ s with bus := b } : State) = { s with bus := b, reply := s.reply } from rfl, readSlot_congr]
        cases readSlot slot s <;> rfl
      | write w =>
        cases slot
        case cmd =>
          simp only [slotAccess, writeSlot, runCommand]
          cases decode w with
          | error _ => rfl
          | ok i =>
            have hb := exec_onBus i (s.setReply .done) b .done
            have hs := exec_onBus i (s.setReply .done) s.bus .done
            rw [show (s.setReply .done).onBus s.bus .done = s.setReply .done from rfl] at hs
            simp only
            rw [show ({ s with bus := b } : State).setReply .done = (s.setReply .done).onBus b .done from rfl, hb]
            cases hx : exec i (s.setReply .done) with
            | fault => rfl
            | refused => rfl
            | next t =>
              rw [hx] at hs
              simp only [onNext_next, Host.Outcome.next.injEq] at hs ⊢
              rw [hs]
              rfl
        all_goals rfl

end Sys2Proof.Machine
end

