-- ==== Sys2Proof/Tests/Slice0.lean ====
section
/-! SUPPORT. The model's own tests: the smoke test of WellFormed, decoding of words written out from the spec, one step of
each command on the vectors of spec/95_test_vectors.md (named in the docstrings), and a witness for the hypotheses of
every obligation. The expected values are the spec's. -/

namespace Sys2Proof.Machine.Tests

-- One test at a time: the kernel checks would otherwise wait for each other in many threads at once.
set_option Elab.async false

/-! ### Helpers -/

/-- The next state of an outcome, if it has one. -/
def nextOf : Host.Outcome State Fault Refusal → Option State
  | .next s => some s
  | _ => none

/-- The fault of an outcome, if it is one. -/
def faultOf : Host.Outcome State Fault Refusal → Option Fault
  | .fault f => some f
  | _ => none

/-- A buffer whose entries from index i hold the given values, and no others. -/
def filled {α : Type} (i : Nat) (vs : List α) : Store α := Store.writeRun i vs []

/-- T-ER-01: the state after ENC_READ of two registers from 0x2102 at server 1. -/
def reading : State :=
  { State.reset with
    saddr := 1, wpduLen := 5, rpduLen := 6, txCount := 8, regAddr := 0x2102, regCount := 2
    txbuf := filled 0 [0x01, 0x03, 0x21, 0x02, 0x00, 0x02, 0x6F, 0xF7] }

/-- T-EW-01: the state after ENC_WRITE of 0x1388 to 0x2001 at server 1. -/
def writing : State :=
  { State.reset with
    saddr := 1, wpduLen := 5, rpduLen := 5, txCount := 8, regAddr := 0x2001, regValue := 0x1388
    txbuf := filled 0 [0x01, 0x06, 0x20, 0x01, 0x13, 0x88, 0xDE, 0x9C] }

/-- s after the host has stored a received frame. -/
def received (bytes : List Byte) (s : State) : State :=
  { s with rxbuf := filled 0 bytes, rxCount := BitVec.ofNat 9 bytes.length }

/-- T-FP-01: a good response to `reading`, parsed. -/
def accepted : State :=
  { received [0x01, 0x03, 0x04, 0x04, 0xD2, 0x00, 0x64, 0x5A, 0xD1] reading with verdict := .vOk }

/-- T-DW-01: a good response to `writing`, parsed. -/
def echoed : State := { received [0x01, 0x06, 0x20, 0x01, 0x13, 0x88, 0xDE, 0x9C] writing with verdict := .vOk }

/-- T-FP-06: an exception response to `reading`, parsed. -/
def refusedByServer : State :=
  { received [0x01, 0x83, 0x02, 0xC0, 0xF1] reading with verdict := .vException, excCode := 2, excKnown := true }

/-! ### Well-formedness -/

theorem test_crcTx_length_511_fits : (Instr.crcTx 511).wellFormed = true := by decide +kernel
theorem test_crcTx_length_512_is_ill_formed : (Instr.crcTx 512).wellFormed = false := by decide +kernel
theorem test_crcRx_length_511_fits : (Instr.crcRx 511).wellFormed = true := by decide +kernel
theorem test_crcRx_length_512_is_ill_formed : (Instr.crcRx 512).wellFormed = false := by decide +kernel

/-! ### Decoding: [31:25] reserved, [24:16] LEN9, [15:8] ARG8, [7:0] OP (spec/30_encoding.md R80, R83) -/

theorem test_decode_nop : decode 0b0000000_000000000_00000000_00000000 = .ok .nop := by rfl
theorem test_decode_crcInit : decode 0b0000000_000000000_00000000_00000001 = .ok .crcInit := by rfl
theorem test_decode_crcByte : decode 0b0000000_000000000_01011010_00000010 = .ok (.crcByte 0x5A) := by rfl
theorem test_decode_crcTx : decode 0b0000000_000000110_00000000_00000011 = .ok (.crcTx 6) := by rfl
theorem test_decode_crcTx_longest : decode 0b0000000_111111111_00000000_00000011 = .ok (.crcTx 511) := by rfl
theorem test_decode_crcRx : decode 0b0000000_100000001_00000000_00000100 = .ok (.crcRx 257) := by rfl
theorem test_decode_frameBuild : decode 0b0000000_000000000_00000000_00010000 = .ok .frameBuild := by rfl
theorem test_decode_frameParse : decode 0b0000000_000000000_00000000_00010001 = .ok .frameParse := by rfl
theorem test_decode_encRead : decode 0b0000000_000000000_00000000_00100000 = .ok .encRead := by rfl
theorem test_decode_encWrite : decode 0b0000000_000000000_00000000_00100001 = .ok .encWrite := by rfl
theorem test_decode_decRead : decode 0b0000000_000000000_00000000_00100010 = .ok .decRead := by rfl
theorem test_decode_decWrite : decode 0b0000000_000000000_00000000_00100011 = .ok .decWrite := by rfl

/-- T-ENC-02, T-ENC-04, T-ENC-07, T-ENC-08, T-ENC-10. -/
theorem test_decode_nonzero_field :
    decode 0x00000100 = .error .nonzeroField ∧ decode 0x00015A02 = .error .nonzeroField ∧
      decode 0x02000003 = .error .nonzeroField ∧ decode 0x00000103 = .error .nonzeroField ∧
      decode 0x80000010 = .error .nonzeroField := ⟨rfl, rfl, rfl, rfl, rfl⟩

/-- T-ENC-09. -/
theorem test_decode_unassigned_op :
    decode 0x00000005 = .error .unassignedOp ∧ decode 0x0000000F = .error .unassignedOp ∧
      decode 0x00000012 = .error .unassignedOp ∧ decode 0x00000024 = .error .unassignedOp ∧
      decode 0x000000FF = .error .unassignedOp := ⟨rfl, rfl, rfl, rfl, rfl⟩

/-- The decoder on words numbered as the opcode table numbers them. -/
theorem test_decodeTableWord :
    decodeTableWord 32 0x00060003 = some (.crcTx 6) ∧ decodeTableWord 32 0x00000005 = none := ⟨rfl, rfl⟩

/-- From reset, the very next step runs the word (T-CRC-02). -/
theorem test_step_runs_fetch_word :
    (nextOf (step (State.reset.withFetchWord 32 0x00000102))).map (·.crc) = some 0x807E := by
  decide +kernel

/-! ### One step of each command -/

/-- T-CRC-16. -/
theorem test_nop_clears_err : (nextOf (exec .nop { reading with err := .eCount })) = some reading := by decide +kernel

/-- T-CRC-15. -/
theorem test_crcInit :
    (nextOf (exec .crcInit { State.reset with crc := 0x1234 })).map (·.crc) = some 0xFFFF := by decide

/-- T-CRC-05. -/
theorem test_crcByte : (nextOf (exec (.crcByte 0xA5) State.reset)).map (·.crc) = some 0x3B7F := by decide +kernel

/-- T-CRC-06. -/
theorem test_crcByte_from_zero :
    (nextOf (exec (.crcByte 0x01) { State.reset with crc := 0 })).map (·.crc) = some 0xC0C1 := by decide +kernel

/-- T-CRC-12: the CRC over a part of the buffer. -/
theorem test_crcTx : (nextOf (exec (.crcTx 3) reading)).map (·.crc) = some 0xE8E0 := by decide +kernel

/-- T-CRC-14. -/
theorem test_crcTx_unwritten : faultOf (exec (.crcTx 1) State.reset) = some (.unwritten .tx 0) := by decide +kernel

/-- T-CRC-13. -/
theorem test_crcRx : (nextOf (exec (.crcRx 5) refusedByServer)).map (fun t => (t.crc, t.verdict)) =
    some (0x0000, .vException) := by decide +kernel

/-- The corner cases of CRC_RX are those of CRC_TX: above 256 bytes, E_RANGE (T-CRC-11). -/
theorem test_crcRx_too_long :
    (nextOf (exec (.crcRx 257) refusedByServer)) = some { refusedByServer with err := .eRange } := by
  decide +kernel

/-- T-FB-02: TX[0..4) = 01 11 C0 2C. -/
theorem test_frameBuild :
    (nextOf (exec .frameBuild { State.reset with saddr := 1, wpduLen := 1, txbuf := filled 1 [0x11] })).map
      (fun t => (t.txbuf, t.txCount)) = some (filled 0 [0x01, 0x11, 0xC0, 0x2C], 4) := by decide +kernel

/-- T-FB-08: the address is checked first. -/
theorem test_frameBuild_address_first :
    (nextOf (exec .frameBuild { State.reset with saddr := 248, txCount := 4 })).map (fun t => (t.err, t.txCount)) =
      some (.eAddr, 0) := by decide +kernel

/-- T-FP-06: STATUS = 0x01020300. -/
theorem test_frameParse_exception :
    (nextOf (exec .frameParse (received [0x01, 0x83, 0x02, 0xC0, 0xF1] reading))).map statusWord =
      some 0x01020300 := by decide +kernel

/-- T-FP-04: the CRC is checked before the address. -/
theorem test_frameParse_crc_first :
    (nextOf (exec .frameParse (received [0x02, 0x03, 0x04, 0x04, 0xD2, 0x00, 0x64, 0x69, 0xD0] reading))).map statusWord =
      some 0x00000500 := by decide +kernel

/-- T-ER-04: 01 03 FF 83 00 7D 44 17, RPDU_LEN = 252. -/
theorem test_encRead :
    (nextOf (exec .encRead { State.reset with saddr := 1, regAddr := 0xFF83, regCount := 125 })).map
      (fun t => (t.txbuf, t.rpduLen, t.txCount)) =
        some (filled 0 [0x01, 0x03, 0xFF, 0x83, 0x00, 0x7D, 0x44, 0x17], 252, 8) := by decide +kernel

/-- T-ER-12: the count is checked before the wrap. -/
theorem test_encRead_count_first :
    (nextOf (exec .encRead { reading with regAddr := 0xFFFF, regCount := 0 })).map (fun t => (t.err, t.txCount)) =
      some (.eCount, 0) := by decide +kernel

/-- T-EW-01. -/
theorem test_encWrite :
    (nextOf (exec .encWrite { State.reset with saddr := 1, regAddr := 0x2001, regValue := 0x1388 })) =
      some writing := by decide +kernel

/-- T-EW-04. -/
theorem test_encWrite_bad_address :
    (nextOf (exec .encWrite { writing with saddr := 248 })) =
      some { writing with saddr := 248, txCount := 0, err := .eAddr } := by decide +kernel

/-- T-DR-02: registers 0xFFFF and 0x8000, high byte first. -/
theorem test_decRead :
    (nextOf (exec .decRead { accepted with rxbuf := filled 0 [0x01, 0x03, 0x04, 0xFF, 0xFF, 0x80, 0x00, 0x9B, 0xD7] })).map
      (·.regdata) = some (filled 0 [0xFFFF, 0x8000]) := by decide +kernel

/-- T-DR-03. -/
theorem test_decRead_byte_count :
    (nextOf (exec .decRead { accepted with rxbuf := filled 0 [0x01, 0x03, 0x03, 0x04, 0xD2, 0x00, 0x64, 0xEF, 0x11] })).map
      (fun t => (t.err, t.regdata)) = some (.eByteCount, []) := by decide +kernel

/-- T-DW-01. -/
theorem test_decWrite : (nextOf (exec .decWrite echoed)).map (·.err) = some .ok := by decide +kernel

/-- T-DW-03: the function code is compared. -/
theorem test_decWrite_function_code :
    (nextOf (exec .decWrite { echoed with rxbuf := filled 0 [0x01, 0x03, 0x20, 0x01, 0x13, 0x88, 0x12, 0x9C] })).map
      (·.err) = some .eEcho := by decide +kernel

/-! ### The window -/

/-- T-BUS-09: eight bits of SADDR are stored. -/
theorem test_write_saddr : (nextOf (access (wr .saddr 0x1FF) accepted)).map (fun t => (t.saddr, t.verdict)) =
    some (0xFF, .vNone) := by decide +kernel

/-- T-BUS-11. -/
theorem test_write_txbuf_lanes : (nextOf (access (wr (.tx 0) 0x04030201) State.reset)).map (·.txbuf) =
    some (filled 0 [0x01, 0x02, 0x03, 0x04]) := by decide +kernel

/-- P2: TX[4..8) = 00 02 6F F7 reads as 0xF76F0200. -/
theorem test_read_txbuf_lanes :
    (nextOf (access (rd (.tx 1)) reading)).map (·.reply) = some (.data 0xF76F0200) := by decide +kernel

/-- T-BUS-02 to T-BUS-07: accesses the window does not admit. -/
theorem test_bus_errors :
    faultOf (access ⟨32, 0x002, .read⟩ State.reset) = some .busError ∧
    faultOf (access ⟨16, 0x000, .read⟩ State.reset) = some .busError ∧
    faultOf (access (wr .status 0) State.reset) = some .busError ∧
    faultOf (access (wr .txCount 8) State.reset) = some .busError ∧
    faultOf (access ⟨32, 0x400, .write 0⟩ State.reset) = some .busError ∧
    ([0x02C, 0x0FC, 0x300, 0x3FC, 0x5F4, 0xFFC] : List Offset).map
      (fun off => faultOf (access ⟨32, off, .read⟩ State.reset)) = List.replicate 6 (some .busError) := by decide +kernel

/-- T-BUS-08, T-RST-02: words that nothing has written. -/
theorem test_unwritten_words :
    faultOf (access ⟨32, 0x5F0, .read⟩ State.reset) = some (.unwritten .regdata 124) ∧
    faultOf (access ⟨32, 0x100, .read⟩ State.reset) = some (.unwritten .tx 0) := by decide +kernel

/-! ### Witnesses: for each obligation with hypotheses, states and operands that meet them, clause by clause -/

theorem eq_next {o : Host.Outcome State Fault Refusal} {t : State} (h : nextOf o = some t) : o = .next t := by
  cases o <;> simp_all [nextOf]

theorem holds_filled {α : Type} (i : Nat) (vs : List α) : Store.Holds i vs (filled i vs) := Store.holds_writeRun i vs []

/-- Every byte of a buffer written. -/
def full : Memory := filled 0 (List.replicate 256 0x00)

theorem holds_full : Store.Holds 0 (List.replicate 256 0x00) full := holds_filled 0 (List.replicate 256 0x00)

/-! #### Encoding -/

theorem witness_DecodeOfEncode :
    (Instr.crcTx 511).wellFormed = true ∧ (Instr.crcByte 0xFF).wellFormed = true := by decide

theorem witness_EncodeOfDecode :
    decode 0x01FF0003 = .ok (.crcTx 511) ∧ decode 0x0000FF02 = .ok (.crcByte 0xFF) := ⟨rfl, rfl⟩

theorem witness_DecodingIsTotalAndUnambiguous :
    (∃ r ∈ opcodeMap, r.selects 0x01FF0003 = true) ∧ ∀ r ∈ opcodeMap, r.selects 0x00000024 = false := by
  refine ⟨⟨opcodeMap[3], by simp [opcodeMap], rfl⟩, ?_⟩
  simp only [opcodeMap]
  decide

/-- One word for each way to be illegal: OP, the reserved bits, ARG8, LEN9. -/
theorem witness_IllegalWordOnlyWritesErr :
    (0x00000024 : Word).extractLsb' 0 8 ∉
      ([0x00, 0x01, 0x02, 0x03, 0x04, 0x10, 0x11, 0x20, 0x21, 0x22, 0x23] : List Byte) ∧
    (0x02000003 : Word).extractLsb' 25 7 ≠ 0 ∧
    ((0x00000103 : Word).extractLsb' 0 8 ≠ (0x02 : Byte) ∧ (0x00000103 : Word).extractLsb' 8 8 ≠ 0) ∧
    ((0x00015A02 : Word).extractLsb' 0 8 ≠ (0x03 : Byte) ∧ (0x00015A02 : Word).extractLsb' 0 8 ≠ (0x04 : Byte) ∧
      (0x00015A02 : Word).extractLsb' 16 9 ≠ 0) ∧
    ∀ r ∈ opcodeMap, r.selects 0x00000024 = false := by
  simp only [opcodeMap]
  decide

/-! #### Steps, reset and the bus -/

theorem witness_StepRunsDecodedCommand : decode 0x00000022 = .ok .decRead := rfl

theorem witness_IdleStepChangesNothing : State.reset.bus = [] := rfl

theorem witness_ResetStepRestoresResetValues : ({ accepted with bus := [.reset] } : State).bus = .reset :: [] := rfl

theorem witness_StepsTakeAccessesInOrder : reading.bus = [] := rfl

theorem witness_WindowIsFourKiBAtBase : Config.base + 0x1000 ≤ Config.base + 0x1000 := le_refl _

/-- The last words of both buffers, and a read that answers. -/
theorem witness_HostWritesHaveOnlyTheListedSideEffects :
    63 < 64 ∧ ∃ t, step (accepted.facing ⟨32, 0x004, .read⟩ []) = .next t :=
  ⟨by decide, _, rfl⟩

/-- The last word of each buffer, written and unwritten. -/
theorem witness_BufferWordsUseLittleEndianLanes :
    63 < 64 ∧ Store.Holds (4 * 63) [(0x01 : Byte), 0x02, 0x03, 0x04] (filled 252 [0x01, 0x02, 0x03, 0x04]) ∧
      (∃ i, 4 * 63 ≤ i ∧ i < 4 * 63 + 4 ∧ Store.read i (filled 252 [0x01, 0x02, 0x03]) = none) :=
  ⟨by decide, holds_filled 252 _, 255, by decide, by decide, by decide⟩

theorem witness_BufferReadAfterWrite :
    63 < 64 ∧ (∃ t, step (State.reset.facing ⟨32, BitVec.ofNat 12 (0x100 + 4 * 63), .write 0x04030201⟩ []) = .next t) ∧
      ∃ t, step (State.reset.facing ⟨32, BitVec.ofNat 12 (0x200 + 4 * 63), .write 0x04030201⟩ []) = .next t :=
  ⟨by decide, ⟨_, rfl⟩, _, rfl⟩

/-- The last entry, written and unwritten; REGDATA changed by DEC_READ and by a reset. -/
theorem witness_RegdataIsReadOnlyEntries :
    124 < 125 ∧ Store.read 124 (filled 124 [(0x1234 : Half)]) = some 0x1234 ∧ Store.read 124 State.reset.regdata = none ∧
      (∃ t, step (accepted.facing (cmd .decRead) []) = .next t ∧ t.regdata ≠ accepted.regdata) ∧
      ∃ t, step { accepted with regdata := filled 0 [0x1234], bus := [.reset] } = .next t ∧
        t.regdata ≠ filled 0 [0x1234] := by
  refine ⟨by decide, by decide, by decide, ⟨{ accepted with regdata := filled 0 [0x04D2, 0x0064], reply := .done }, ?_, ?_⟩,
    _, rfl, ?_⟩
  · exact eq_next (by decide +kernel)
  · decide
  · decide

theorem witness_RepeatedReadsAgree :
    ∃ t, step (reading.facing ⟨32, 0x104, .read⟩ []) = .next t :=
  ⟨{ reading with reply := .data 0xF76F0200 }, eq_next (by decide +kernel)⟩

/-! #### Rules about every command -/

theorem witness_ErrIsWrittenByEveryCommandAndOnlyByCommands :
    (∃ t, exec .crcInit reading = .next t) ∧
      (¬ ((0x00C : Offset) = 0 ∧ ∃ w, BusOp.write 1 = .write w) ∧
        ∃ t, step (reading.facing ⟨32, 0x00C, .write 1⟩ []) = .next t) :=
  ⟨⟨_, rfl⟩, by decide, _, rfl⟩

/-- A failed command that builds a frame, and one that does not. -/
theorem witness_FailedCommandChangesNothingElse :
    (∃ t, exec .frameBuild State.reset = .next t ∧ t.err ≠ .ok) ∧
      ∃ t, exec (.crcTx 257) State.reset = .next t ∧ t.err ≠ .ok :=
  ⟨⟨_, rfl, by decide⟩, _, rfl, by decide⟩

/-- A command that is no parse, a command that builds, and the last word of RXBUF. -/
theorem witness_OnlyFrameParseSetsAVerdict :
    ((cmd .nop).parses = false ∧ ∃ t, step (accepted.facing (cmd .nop) []) = .next t) ∧
    (∃ t, exec .encWrite accepted = .next t ∧ t.err = .ok) ∧
    (0x200 ≤ (0x2FC : Offset).toNat ∧ (0x2FC : Offset).toNat ≤ 0x2FF ∧
      ∃ t, step (accepted.facing ⟨32, 0x2FC, .write 0⟩ []) = .next t) ∧
    ∃ t, step (accepted.facing ⟨32, 0x01C, .write 0⟩ []) = .next t :=
  ⟨⟨by decide, _, rfl⟩, ⟨_, rfl, rfl⟩, ⟨by decide, by decide, _, rfl⟩, _, rfl⟩

/-- A state in which V_EXCEPTION stands, one in which it does not, and a step from it. -/
theorem witness_ExceptionFieldsFollowVerdict :
    (refusedByServer.verdict = .vException ∧ refusedByServer.excKnown = true ∧
      refusedByServer.excCode ∈ ([1, 2, 3, 4, 5, 6, 7, 8, 10, 11] : List Byte)) ∧
    (accepted.verdict ≠ .vException ∧ accepted.excCode = 0 ∧ accepted.excKnown = false) ∧
    ∃ t, step (refusedByServer.facing ⟨32, 0x00C, .write 1⟩ []) = .next t :=
  ⟨by decide, by decide, _, rfl⟩

/-- Each of the six commands, on a state in which it completes. -/
theorem witness_FrameCommandsIgnoreCrcRegister :
    (∃ t, exec .frameBuild reading = .next t) ∧ (∃ t, exec .frameParse { reading with rxCount := 0 } = .next t) ∧
    (∃ t, exec .encRead reading = .next t) ∧ (∃ t, exec .encWrite writing = .next t) ∧
    (∃ t, exec .decRead accepted = .next t) ∧ ∃ t, exec .decWrite echoed = .next t := by
  refine ⟨⟨reading, eq_next (by decide +kernel)⟩, ⟨_, rfl⟩, ⟨_, rfl⟩, ⟨_, rfl⟩,
    ⟨{ accepted with regdata := filled 0 [0x04D2, 0x0064] }, eq_next (by decide +kernel)⟩, ⟨echoed, eq_next (by decide)⟩⟩

theorem witness_OnlyTheHostWritesRxbuf :
    (∃ t, exec .decWrite echoed = .next t) ∧
    ∃ t, step (State.reset.facing ⟨32, 0x2FC, .write 0⟩ []) = .next t ∧ t.rxbuf ≠ State.reset.rxbuf :=
  ⟨⟨echoed, eq_next (by decide)⟩, _, rfl, by decide⟩

theorem witness_WrittenStaysWrittenUntilReset :
    ∃ t, step (reading.facing ⟨32, 0x1FC, .write 0⟩ []) = .next t := ⟨_, rfl⟩

/-- Both sides of the equivalence, at the boundary. -/
theorem witness_ServerAddressRange :
    (∃ t, exec .encRead { reading with saddr := 248 } = .next t ∧ t.err = .eAddr) ∧
      248 ≤ ({ reading with saddr := 248 } : State).saddr.toNat :=
  ⟨⟨_, rfl, rfl⟩, by decide⟩

/-! #### CRC16 Engine -/

theorem witness_CrcByteFeedsOneByte :
    (0x00015A02 : Word).extractLsb' 0 8 = (0x02 : Byte) ∧ (0x00015A02 : Word).extractLsb' 16 16 ≠ (0 : Half) := by decide

/-- The words CRC_TX and CRC_RX make illegal: ARG8, and bit 25. -/
theorem witness_illegal_span_words :
    ((0x00000103 : Word).extractLsb' 0 8 = (0x03 : Byte) ∧ (0x00000103 : Word).extractLsb' 8 8 ≠ (0 : Byte)) ∧
    ((0x02000004 : Word).extractLsb' 0 8 = (0x04 : Byte) ∧ (0x02000004 : Word).extractLsb' 25 7 ≠ (0 : BitVec 7)) := by
  decide

/-- 511 fits LEN9; 257 bytes are too many; 256 bytes written; 256 bytes asked for and one unwritten. -/
theorem witness_CrcTxFoldsTransmitBuffer :
    511 ≤ 511 ∧ 256 < 257 ∧
      ((List.replicate 256 (0x00 : Byte)).length = 256 ∧ Store.Holds 0 (List.replicate 256 0x00) full) ∧
      ∃ i < 256, Store.read i reading.txbuf = none :=
  ⟨by decide, by decide, ⟨List.length_replicate, holds_full⟩, 255, by decide, by decide +kernel⟩

theorem witness_CrcRxFoldsReceiveBuffer :
    511 ≤ 511 ∧ 256 < 257 ∧
      ((List.replicate 256 (0x00 : Byte)).length = 256 ∧ Store.Holds 0 (List.replicate 256 0x00) full) ∧
      ∃ i < 256, Store.read i accepted.rxbuf = none :=
  ⟨by decide, by decide, ⟨List.length_replicate, holds_full⟩, 255, by decide, by decide +kernel⟩

/-- The reset state with the same bytes in both buffers. -/
def bothHold (m : Memory) : State := { State.reset with txbuf := m, rxbuf := m }

theorem holds_both {bytes : List Byte} {m : Memory} (h : Store.Holds 0 bytes m) :
    Store.Holds 0 bytes (bothHold m).txbuf ∧ Store.Holds 0 bytes (bothHold m).rxbuf := ⟨h, h⟩

theorem witness_CrcFollowsTheAlgorithmInPieces :
    (List.replicate 256 (0x00 : Byte)).length ≤ 256 ∧ Store.Holds 0 (List.replicate 256 0x00) (bothHold full).txbuf ∧
      Store.Holds 0 (List.replicate 256 0x00) (bothHold full).rxbuf :=
  ⟨List.length_replicate.le, holds_both holds_full⟩

theorem witness_CrcStartsAtInitialValueAfterReset :
    (bothHold full).crc = State.reset.crc ∧ (List.replicate 256 (0x00 : Byte)).length ≤ 256 ∧
      Store.Holds 0 (List.replicate 256 0x00) (bothHold full).txbuf ∧
      Store.Holds 0 (List.replicate 256 0x00) (bothHold full).rxbuf :=
  ⟨rfl, List.length_replicate.le, holds_both holds_full⟩

/-! #### Framer and parser -/

/-- E_ADDR at 248; E_RANGE at 0 and at 254; a PDU of 1 byte and one of 253; an unwritten PDU byte. -/
theorem witness_FrameBuildCompletesTheAdu :
    247 < ({ State.reset with saddr := 248 } : State).saddr.toNat ∧
    ((State.reset.saddr.toNat ≤ 247 ∧ State.reset.wpduLen.toNat = 0) ∧
      253 < ({ State.reset with wpduLen := 254 } : State).wpduLen.toNat) ∧
    ((247 : Byte).toNat ≤ 247 ∧ 1 ≤ (1 : Byte).toNat ∧ Store.Holds 1 [(0x11 : Byte)] (filled 1 [0x11])) ∧
    ((253 : Byte).toNat ≤ 253 ∧ (List.replicate 253 (0x00 : Byte)).length = (253 : Byte).toNat ∧
      Store.Holds 1 (List.replicate 253 (0x00 : Byte)) (filled 1 (List.replicate 253 0x00))) ∧
    ∃ i, 1 ≤ i ∧ i ≤ 253 ∧ Store.read i reading.txbuf = none :=
  ⟨by decide, by decide, ⟨by decide, by decide, holds_filled 1 _⟩,
    ⟨by decide, List.length_replicate, holds_filled 1 (List.replicate 253 0x00)⟩,
    253, by decide, by decide, by decide +kernel⟩

/-- The operands every branch of FRAME_PARSE needs. -/
def ParseLegal (s : State) : Prop :=
  s.saddr.toNat ≤ 247 ∧ 1 ≤ s.rpduLen.toNat ∧ s.rpduLen.toNat ≤ 253 ∧ s.rxCount.toNat ≤ 256

/-- E_ADDR at 248; E_RANGE for RPDU_LEN 0 and 254 and for RX_COUNT 257. -/
theorem witness_FrameParseClassifies_errors :
    247 < ({ reading with saddr := 248 } : State).saddr.toNat ∧ reading.saddr.toNat ≤ 247 ∧
      ({ reading with rpduLen := 0 } : State).rpduLen.toNat = 0 ∧
      253 < ({ reading with rpduLen := 254 } : State).rpduLen.toNat ∧
      256 < ({ reading with rxCount := 257 } : State).rxCount.toNat := by decide

/-- The last two of nine bytes are the CRC of the first seven, low byte first, as the statement has it. -/
def LastTwoAreCrc (adu : List Byte) : Prop :=
  adu[7]? = some ((crc16 (adu.take 7)).extractLsb' 0 8) ∧ adu[8]? = some ((crc16 (adu.take 7)).extractLsb' 8 8)

/-- A received frame of the full expected length, with the operands FRAME_PARSE needs. -/
def FullFrame (adu : List Byte) (s : State) : Prop :=
  ParseLegal s ∧ s.rxCount.toNat = s.rpduLen.toNat + 3 ∧ adu.length = s.rpduLen.toNat + 3 ∧ Store.Holds 0 adu s.rxbuf

theorem reading_legal :
    reading.saddr.toNat ≤ 247 ∧ 1 ≤ reading.rpduLen.toNat ∧ reading.rpduLen.toNat ≤ 253 ∧ 5 < reading.rpduLen.toNat + 3 := by
  decide

theorem fullFrame_of_nine {adu : List Byte} (h : adu.length = 9) : FullFrame adu (received adu reading) := by
  have hc : (received adu reading).rxCount.toNat = 9 := by simp [received, h]
  exact ⟨⟨reading_legal.1, reading_legal.2.1, reading_legal.2.2.1, by omega⟩, hc, h, holds_filled 0 adu⟩

/-- The full-length branch: T-FP-02 (the CRC is wrong), T-FP-03 (the address is), T-FP-01 (neither). -/
theorem witness_FrameParseClassifies_full :
    (∃ adu s, FullFrame adu s ∧ ¬ LastTwoAreCrc adu) ∧
    (∃ adu s, FullFrame adu s ∧ LastTwoAreCrc adu ∧ adu[0]? ≠ some s.saddr) ∧
    ∃ adu s, FullFrame adu s ∧ LastTwoAreCrc adu ∧ adu[0]? = some s.saddr := by
  unfold LastTwoAreCrc
  exact
    ⟨⟨[0x01, 0x03, 0x04, 0x04, 0xD2, 0x00, 0x64, 0x5A, 0xD0], _, fullFrame_of_nine rfl, by decide +kernel⟩,
     ⟨[0x02, 0x03, 0x04, 0x04, 0xD2, 0x00, 0x64, 0x69, 0xD1], _, fullFrame_of_nine rfl, by decide +kernel, by decide⟩,
     ⟨[0x01, 0x03, 0x04, 0x04, 0xD2, 0x00, 0x64, 0x5A, 0xD1], _, fullFrame_of_nine rfl, by decide +kernel, by decide⟩⟩

/-- A received frame of five bytes where nine are expected. -/
theorem short_received (b0 b1 b2 b3 b4 : Byte) :
    ParseLegal (received [b0, b1, b2, b3, b4] reading) ∧ (received [b0, b1, b2, b3, b4] reading).rxCount.toNat = 5 ∧
      5 < (received [b0, b1, b2, b3, b4] reading).rpduLen.toNat + 3 ∧
      Store.Holds 0 [b0, b1, b2, b3, b4] (received [b0, b1, b2, b3, b4] reading).rxbuf :=
  ⟨⟨reading_legal.1, reading_legal.2.1, reading_legal.2.2.1, show (BitVec.ofNat 9 5).toNat ≤ 256 by decide⟩, rfl,
    reading_legal.2.2.2, holds_filled 0 _⟩

/-- The short branch, on the frames of `short_received`: T-FP-08 (0x81, an exception), T-FP-10 (0xFF), T-FP-09 (0x80 is
none), T-FP-12 (the CRC is wrong). -/
theorem witness_FrameParseClassifies_short :
    ((0xC1 : Byte) = (crc16 [0x01, 0x81, 0x02]).extractLsb' 0 8 ∧
      (0x91 : Byte) = (crc16 [0x01, 0x81, 0x02]).extractLsb' 8 8 ∧ 0x80 < (0x81 : Byte).toNat) ∧
    ((0x60 : Byte) = (crc16 [0x01, 0xFF, 0x04]).extractLsb' 0 8 ∧
      (0x33 : Byte) = (crc16 [0x01, 0xFF, 0x04]).extractLsb' 8 8 ∧ 0x80 < (0xFF : Byte).toNat) ∧
    ((0xC0 : Byte) = (crc16 [0x01, 0x80, 0x02]).extractLsb' 0 8 ∧
      (0x01 : Byte) = (crc16 [0x01, 0x80, 0x02]).extractLsb' 8 8 ∧ ¬ 0x80 < (0x80 : Byte).toNat) ∧
    (0xF0 : Byte) ≠ (crc16 [0x01, 0x83, 0x02]).extractLsb' 8 8 := by
  decide +kernel

/-- No bytes (T-FP-05); a count that is neither 0, 5 nor E (T-FP-17, T-FP-19), and 5 above E (T-FP-25). -/
theorem witness_FrameParseClassifies_counts :
    (ParseLegal { reading with rxCount := 0 } ∧ ({ reading with rxCount := 0 } : State).rxCount.toNat = 0) ∧
    (ParseLegal { reading with rxCount := 4 } ∧ 4 ≠ reading.rpduLen.toNat + 3) ∧
    (ParseLegal { reading with rxCount := 10 } ∧ 10 ≠ reading.rpduLen.toNat + 3) ∧
    ParseLegal { reading with rpduLen := 1, rxCount := 5 } ∧ ¬ 5 < (1 : Byte).toNat + 3 := by
  unfold ParseLegal
  decide

/-- Unwritten bytes: one before the CRC (T-FP-20), and the last byte alone, in the full-length and in the short branch. -/
theorem witness_FrameParseClassifies_unwritten :
    (ParseLegal { reading with rxCount := 9 } ∧ ∃ i < 9 - 1, Store.read i reading.rxbuf = none) ∧
    (Store.Holds 0 [(0x01 : Byte), 0x03, 0x04, 0x04, 0xD2, 0x00, 0x64, 0x5A]
        (filled 0 [0x01, 0x03, 0x04, 0x04, 0xD2, 0x00, 0x64, 0x5A]) ∧
      (0x5A : Byte) = (crc16 [0x01, 0x03, 0x04, 0x04, 0xD2, 0x00, 0x64]).extractLsb' 0 8 ∧
      Store.read 8 (filled 0 [(0x01 : Byte), 0x03, 0x04, 0x04, 0xD2, 0x00, 0x64, 0x5A]) = none) ∧
    (ParseLegal { reading with rxCount := 5 } ∧ ∃ i < 4, Store.read i reading.rxbuf = none) ∧
    (Store.Holds 0 [(0x01 : Byte), 0x83, 0x02, 0xC0] (filled 0 [0x01, 0x83, 0x02, 0xC0]) ∧
      (0xC0 : Byte) = (crc16 [0x01, 0x83, 0x02]).extractLsb' 0 8 ∧
      Store.read 4 (filled 0 [(0x01 : Byte), 0x83, 0x02, 0xC0]) = none) := by
  unfold ParseLegal
  exact ⟨⟨by decide, 0, by decide, rfl⟩, ⟨holds_filled 0 _, by decide +kernel, by decide⟩,
    ⟨by decide, 0, by decide, rfl⟩, holds_filled 0 _, by decide +kernel, by decide⟩

theorem witness_FrameParseReadsTheWholeFrame :
    (ParseLegal { reading with rxCount := 9 } ∧ 9 = reading.rpduLen.toNat + 3 ∧ 8 < 9 ∧
      Store.read 8 reading.rxbuf = none) ∧
    5 < reading.rpduLen.toNat + 3 ∧ 4 < 5 ∧ Store.read 4 reading.rxbuf = none := by
  unfold ParseLegal
  decide

/-- T-SRC-03: the frame of T-FB-01, copied to RXBUF. -/
theorem witness_BuiltFrameParsesToOk :
    ∃ t u : State, exec .frameBuild reading = .next t ∧ t.err = .ok ∧ u.saddr = reading.saddr ∧
      u.rpduLen = reading.wpduLen ∧ u.rxCount = t.txCount ∧
      ∀ i < reading.wpduLen.toNat + 3, Store.read i u.rxbuf = Store.read i t.txbuf :=
  ⟨reading, { reading with rpduLen := 5, rxCount := 8, rxbuf := reading.txbuf }, eq_next (by decide +kernel), rfl, rfl, rfl,
    rfl, fun _ _ => rfl⟩

/-! #### Register operations -/

/-- E_ADDR at 248; E_COUNT at 0 and 126; E_WRAP at 0xFF84 with 125; accepted at 0xFF83 with 125 and at 0xFFFF with 1. -/
theorem witness_EncReadBuildsTheRequest :
    247 < (248 : Byte).toNat ∧ ((247 : Byte).toNat ≤ 247 ∧ (0 : Half).toNat < 1 ∧ 125 < (126 : Half).toNat) ∧
    (1 ≤ (125 : Half).toNat ∧ (125 : Half).toNat ≤ 125 ∧ 0xFFFF < (0xFF84 : Half).toNat + (125 : Half).toNat - 1) ∧
    (0xFF83 : Half).toNat + (125 : Half).toNat - 1 ≤ 0xFFFF ∧ (0xFFFF : Half).toNat + (1 : Half).toNat - 1 ≤ 0xFFFF := by
  decide

theorem witness_EncWriteBuildsTheRequest : 247 < (248 : Byte).toNat ∧ (247 : Byte).toNat ≤ 247 := by decide

/-- No V_OK; E_COUNT at 0 and 126; a length that does not fit; a byte count that does not; the whole response; and an
unwritten byte count, or an unwritten register byte. -/
theorem witness_DecReadDecodesTheRegisters :
    reading.verdict ≠ .vOk ∧ (accepted.verdict = .vOk ∧ (0 : Half).toNat < 1 ∧ 125 < (126 : Half).toNat) ∧
    ({ accepted with regCount := 3 } : State).rpduLen.toNat ≠ 2 + 2 * (3 : Half).toNat ∧
    (1 ≤ accepted.regCount.toNat ∧ accepted.regCount.toNat ≤ 125 ∧
      accepted.rpduLen.toNat = 2 + 2 * accepted.regCount.toNat) ∧
    ((0x03 : Byte).toNat ≠ 2 * accepted.regCount.toNat ∧ (0x04 : Byte).toNat = 2 * accepted.regCount.toNat) ∧
    (Store.read 2 accepted.rxbuf = some 0x04 ∧
      (∀ j < 2, (Store.read (3 + 2 * j) accepted.rxbuf).isSome ∧ (Store.read (4 + 2 * j) accepted.rxbuf).isSome)) ∧
    Store.read 2 reading.rxbuf = none ∧
    (Store.read 2 (filled 0 [(0x01 : Byte), 0x03, 0x04]) = some 0x04 ∧
      ∃ i, 3 ≤ i ∧ i < 3 + 2 * 2 ∧ Store.read i (filled 0 [(0x01 : Byte), 0x03, 0x04]) = none) :=
  ⟨by decide, by decide, by decide, by decide, by decide, by decide, by decide, by decide, 6, by decide, by decide,
    by decide⟩

/-- The largest read, 125 registers: the length and the byte count fit their bytes. -/
theorem witness_DecReadDecodesTheRegisters_largest :
    (252 : Byte).toNat = 2 + 2 * (125 : Half).toNat ∧ (250 : Byte).toNat = 2 * (125 : Half).toNat := by decide

/-- No V_OK; another length; five equal bytes; a difference in the last byte (T-DW-02); an unwritten last byte. -/
theorem witness_DecWriteChecksTheEcho :
    writing.verdict ≠ .vOk ∧ (accepted.verdict = .vOk ∧ accepted.rpduLen.toNat ≠ 5) ∧
    (echoed.verdict = .vOk ∧ echoed.rpduLen.toNat = 5) ∧
    (∀ i, 1 ≤ i → i ≤ 5 → ∃ b : Byte, Store.read i echoed.rxbuf = some b ∧ Store.read i echoed.txbuf = some b) ∧
    (Store.read 5 (filled 0 [(0x01 : Byte), 0x06, 0x20, 0x01, 0x13, 0x89]) = some 0x89 ∧
      Store.read 5 echoed.txbuf = some 0x88) ∧
    Store.read 5 (filled 0 [(0x01 : Byte), 0x06, 0x20, 0x01, 0x13]) = none := by
  refine ⟨by decide, by decide, by decide, fun i h₁ h₂ => ?_, by decide, by decide⟩
  have : i = 1 ∨ i = 2 ∨ i = 3 ∨ i = 4 ∨ i = 5 := by omega
  rcases this with rfl | rfl | rfl | rfl | rfl <;> exact ⟨_, rfl, rfl⟩

theorem witness_FailedEncodeLeavesNothingToSend :
    ∃ t, exec .encRead { reading with regCount := 126 } = .next t ∧ t.err ≠ .ok ∧
      ∃ e : Engine, e.block = t :=
  ⟨_, rfl, by decide, ⟨_, ⟨0, 0, 0⟩, [], []⟩, rfl⟩

/-- A write to each of the four inputs of a parse, and a program that parses nothing. -/
theorem witness_StaleVerdictRefusesDecoding :
    (∃ t, step (accepted.facing ⟨32, 0x00C, .write 1⟩ []) = .next t) ∧
    (∃ t, step (accepted.facing ⟨32, 0x014, .write 6⟩ []) = .next t) ∧
    (∃ t, step (accepted.facing ⟨32, 0x01C, .write 9⟩ []) = .next t) ∧
    (∃ t, step (accepted.facing ⟨32, 0x2FC, .write 0⟩ []) = .next t ∧
      ∃ u, accesses [cmd .encRead, wr .rxCount 9] t = .next u) ∧
    ∀ p ∈ [cmd .encRead, wr .rxCount 9], p.parses = false :=
  ⟨⟨_, rfl⟩, ⟨_, rfl⟩, ⟨_, rfl⟩, ⟨_, rfl, _, rfl⟩, by decide⟩

theorem witness_ReadResponseIsDecoded :
    (247 : Byte).toNat ≤ 247 ∧ (List.replicate 125 (0x1234 : Half)).length = 125 ∧
      (0xFF83 : Half).toNat + (List.replicate 125 (0x1234 : Half)).length - 1 ≤ 0xFFFF := by
  rw [List.length_replicate]
  decide

theorem witness_WriteEchoIsChecked :
    (247 : Byte).toNat ≤ 247 ∧ ([0x06, 0x20, 0x01, 0x13, 0x89] : List Byte).length = 5 := by decide

/-! #### The invariant -/

/-- V_OK stands and a frame is ready. -/
theorem accepted_inv : Inv accepted where
  txbuf_wf := by decide
  rxbuf_wf := by decide
  regdata_wf := by decide
  exception_fields := by unfold ExceptionFieldsFit; decide
  frame_ready _ := ⟨by decide, by decide, by decide,
    [0x01, 0x03, 0x21, 0x02, 0x00, 0x02, 0x6F, 0xF7], by rfl, by decide +kernel⟩
  verdict_stands _ := by
    refine ⟨by decide, by decide, by decide, ?_⟩
    have h : (match parseFrame accepted with | .ok vc => some vc | .error _ => none) = some (.vOk, 0) := by decide +kernel
    cases hp : parseFrame accepted with
    | error f => simp [hp] at h
    | ok vc =>
      simp only [hp, Option.some.injEq] at h
      rw [h]
      rfl

theorem witness_StepKeepsTheInvariant :
    Inv { accepted with bus := [.access (rd .status)] } ∧
      ∃ t, step { accepted with bus := [.access (rd .status)] } = .next t :=
  ⟨⟨accepted_inv.1, accepted_inv.2, accepted_inv.3, accepted_inv.4, accepted_inv.5, accepted_inv.6⟩, _, rfl⟩

theorem witness_AcceptedResponseNeverFaults : Inv accepted ∧ accepted.verdict = .vOk := ⟨accepted_inv, rfl⟩

/-- The clause of that statement about a state that meets the invariant, with the last byte of the frame. -/
theorem witness_DecReadDecodesTheRegisters_written :
    Inv accepted ∧ accepted.verdict = .vOk ∧ 8 < accepted.rpduLen.toNat + 3 := ⟨accepted_inv, rfl, by decide⟩

theorem witness_EqualContentsAreEqualMemories :
    Inv accepted ∧ ∀ i, Store.read i accepted.txbuf = Store.read i reading.txbuf :=
  ⟨accepted_inv, fun _ => rfl⟩

/-! #### The host protocol -/

/-- The engine with a frame ready. -/
def engine : Engine := ⟨reading, ⟨10, 1, 100⟩, [], []⟩

theorem witness_NoResponseEndsTheTransaction :
    ∃ frame, readTx 0 engine.block.txCount.toNat engine.block = .ok frame ∧ (8 : Int) = frame.length ∧
      engine.block.saddr.toNat ≤ 247 ∧ 1 ≤ engine.block.rpduLen.toNat ∧ engine.block.rpduLen.toNat ≤ 253 :=
  ⟨[0x01, 0x03, 0x21, 0x02, 0x00, 0x02, 0x6F, 0xF7], by rfl, by decide, by decide, by decide, by decide⟩

/-- A transaction whose one attempt is cut short by the channel. -/
theorem witness_AttemptsAreBoundedAndResendTheFrame :
    ∃ e' r, transaction 0 [⟨7, true, none⟩] engine = .next (r, e') := ⟨_, _, rfl⟩

/-- What an attempt ends in, its verdict, exception code and EXC_KNOWN, if it goes on. -/
def attemptEnd : Engine.Result AttemptEnd → Option (AttemptEnd × Verdict × Byte × Bool)
  | .next (r, e) => some (r, e.block.verdict, e.block.excCode, e.block.excKnown)
  | _ => none

theorem eq_attemptEnd {o : Engine.Result AttemptEnd} {r : AttemptEnd} {v : Verdict} {code : Byte} {known : Bool}
    (h : attemptEnd o = some (r, v, code, known)) :
    ∃ e', o = .next (r, e') ∧ e'.block.verdict = v ∧ e'.block.excCode = code ∧ e'.block.excKnown = known := by
  unfold attemptEnd at h
  split at h
  · cases h; exact ⟨_, rfl, rfl, rfl, rfl⟩
  · cases h

/-- Code 2 is logged under the source's name in every entry of the log (R183). -/
theorem test_listed_name : ∀ entry, exceptionName entry 2 = "ILLEGAL DATA ADDRESS" := exceptionName_of_listed rfl

/-- An exception response with a listed code (P4, attempt 1), and one with code 9, which the source does not list. -/
theorem witness_ExceptionResponseIsLoggedAndRetried :
    (∃ e', receive 1 (some [0x01, 0x83, 0x02, 0xC0, 0xF1]) engine = .next (.retry, e') ∧
      e'.block.verdict = .vException ∧ e'.block.excCode = 2 ∧ e'.block.excKnown = true) ∧
    ∃ e', receive 1 (some [0x01, 0x83, 0x09, 0x81, 0x36]) engine = .next (.retry, e') ∧
      e'.block.verdict = .vException ∧ e'.block.excCode = 9 ∧ e'.block.excKnown = false :=
  ⟨eq_attemptEnd (by decide +kernel), eq_attemptEnd (by decide +kernel)⟩

/-- A transaction that ends, and an attempt that ends in V_BAD_LENGTH (T-FP-17). -/
theorem witness_TimeoutConstantOnlyGrows :
    (∃ e' r, transaction 5 [⟨8, true, some []⟩] engine = .next (r, e')) ∧
    ∃ e' r, receive 1 (some [0x01, 0x03, 0x04, 0x04]) engine = .next (r, e') ∧ e'.block.verdict = .vBadLength :=
  ⟨⟨_, _, rfl⟩, _, _, rfl, rfl⟩

/-- The transaction succeeds. -/
def succeeds : Engine.Result TransactionEnd → Bool
  | .next (.success, _) => true
  | _ => false

theorem eq_success {o : Engine.Result TransactionEnd} (h : succeeds o = true) : ∃ e', o = .next (.success, e') := by
  unfold succeeds at h
  split at h
  · exact ⟨_, rfl⟩
  · cases h

/-- T-SRC-07's last attempt: the whole frame arrives. -/
theorem witness_SuccessfulTransactionIsAccepted :
    ∃ e', transaction 5 [⟨8, true, some [0x01, 0x03, 0x04, 0x04, 0xD2, 0x00, 0x64, 0x5A, 0xD1]⟩] engine =
      .next (.success, e') :=
  eq_success (by decide +kernel)

end Sys2Proof.Machine.Tests
end

section
/-! PROOF. The invariant of the block (spec/10_state.md sections 2 to 6): what one host access does, and that it keeps the
invariant. -/

namespace Sys2Proof.Machine

/-- A host access that answers a next state reads a slot, runs a command, takes an illegal word, or writes another slot. -/
theorem access_next_effects {a : Access} {s t : State} (h : access a s = .next t) :
    (a.op = .read ∧ ∃ w, t = s.setReply (.data w)) ∨
    (∃ w i, a = ⟨32, 0, .write w⟩ ∧ decode w = .ok i ∧ exec i (s.setReply .done) = .next t) ∨
    (∃ w, a = ⟨32, 0, .write w⟩ ∧ t = (s.setReply .done).setErr .eOpcode) ∨
    (∃ slot w, a.op = .write w ∧ slotAt a.off = some slot ∧ slot ≠ .cmd ∧
      writeSlot slot w (s.setReply .done) = .next t) := by
  obtain ⟨bits, off, op⟩ := a
  obtain ⟨slot, hbits, hslot, ⟨hop, w, _, ht⟩ | ⟨w, hop, hcmd, hrun⟩ | ⟨w, hop, hcmd, hw⟩⟩ := access_next_cases h
  · exact .inl ⟨hop, w, ht⟩
  · simp only at hbits hslot hop
    subst hbits hop hcmd
    obtain rfl := slotAt_cmd.1 hslot
    rcases runCommand_cases w (s.setReply .done) with ⟨i, hi, he⟩ | ⟨_, _, he⟩
    · exact .inr (.inl ⟨w, i, rfl, hi, he.symm.trans hrun⟩)
    · exact .inr (.inr (.inl ⟨w, rfl, Host.Outcome.next.inj (hrun.symm.trans he)⟩))
  · exact .inr (.inr (.inr ⟨slot, w, hop, hslot, hcmd, hw⟩))

variable {s t : State}

/-- The invariant speaks of no other field than the verdict, the framer's inputs and the memories. -/
theorem Inv.withOthers (h : Inv s) (err : Err) (crc regAddr regCount regValue : Half) (bus : List Input) (reply : Reply) :
    Inv { s with err, crc, regAddr, regCount, regValue, bus, reply } := { h with }

/-- New inputs of a parse, with the verdict cleared (R40). -/
theorem Inv.clearVerdict (h : Inv s) (saddr rpduLen : Byte) (rxCount : Count) {rxbuf : Memory}
    (hrx : Memory.wf rxbuf = true) :
    Inv (({ s with saddr, rpduLen, rxCount, rxbuf } : State).setVerdict .vNone 0) where
  txbuf_wf := h.txbuf_wf
  rxbuf_wf := hrx
  regdata_wf := h.regdata_wf
  exception_fields := exceptionFieldsFit_setVerdict ..
  frame_ready := h.frame_ready
  verdict_stands hv := absurd rfl hv

/-- A new PDU length and other bytes of TXBUF, with no frame left (R40). -/
theorem Inv.clearFrame (h : Inv s) (wpduLen : Byte) {txbuf : Memory} (htx : Memory.wf txbuf = true) :
    Inv (({ s with wpduLen, txbuf } : State).setTxCount 0) where
  txbuf_wf := htx
  rxbuf_wf := h.rxbuf_wf
  regdata_wf := h.regdata_wf
  exception_fields := h.exception_fields
  frame_ready hc := absurd rfl hc
  verdict_stands := h.verdict_stands

/-- The registers of a response keep the invariant. -/
theorem Inv.setRegdata (h : Inv s) (err : Err) {regs : List Half} (hl : regs.length ≤ 125) :
    Inv { s with regdata := Store.writeRun 0 regs s.regdata, err } :=
  { h with regdata_wf := wf_regdata hl h.regdata_wf }

/-- A parse records a verdict that stands (R124, R227). -/
theorem Inv.setVerdict_of_parse (h : Inv s) {v : Verdict} {code : Byte} (haddr : s.saddr.toNat ≤ 247)
    (hlen : 1 ≤ s.rpduLen.toNat ∧ s.rpduLen.toNat ≤ 253) (hcount : s.rxCount.toNat ≤ 256)
    (hp : parseFrame s = .ok (v, code)) : Inv (s.setVerdict v code) where
  txbuf_wf := by simpa using h.txbuf_wf
  rxbuf_wf := by simpa using h.rxbuf_wf
  regdata_wf := by simpa using h.regdata_wf
  exception_fields := exceptionFieldsFit_setVerdict ..
  frame_ready := by simpa [FrameReady, readTx] using h.frame_ready
  verdict_stands _ := by
    have hcode : (s.setVerdict v code).excCode = code := by
      by_cases hv : v = .vException
      · simp [hv]
      · simp [hv, (parseFrame_verdict hp).2 hv]
    refine ⟨by simpa using haddr, by simpa using hlen, by simpa using hcount, ?_⟩
    rw [parseFrame_congr (s := s) (by simp) (by simp) (by simp) (by simp), hp, State.setVerdict_verdict, hcode]

/-- The frame that a build leaves is ready to send (R121, R30). -/
theorem frameReady_built {pdu : List Byte} (hlen : 1 ≤ s.wpduLen.toNat ∧ s.wpduLen.toNat ≤ 253)
    (hl : pdu.length = s.wpduLen.toNat) (hh : Store.Holds 1 pdu s.txbuf) : FrameReady (built s.wpduLen.toNat pdu s) := by
  have hcount : (built s.wpduLen.toNat pdu s).txCount.toNat = s.wpduLen.toNat + 3 := by
    simp [built]
    omega
  refine ⟨hcount, by omega, by omega, s.saddr :: (pdu ++ crcBytes (crc16 (s.saddr :: pdu))), ?_,
    frameCrcOk_crcBytes (s.saddr :: pdu)⟩
  rw [hcount, readTx_eq_ok, ← hl]
  exact ⟨by simp, holds_frameAround hh _ _⟩

/-- A build keeps the invariant. -/
theorem Inv.built (h : Inv s) {pdu : List Byte} (hlen : 1 ≤ s.wpduLen.toNat ∧ s.wpduLen.toNat ≤ 253)
    (hl : pdu.length = s.wpduLen.toNat) (hh : Store.Holds 1 pdu s.txbuf) : Inv (built s.wpduLen.toNat pdu s) where
  txbuf_wf := wf_frameAround h.txbuf_wf hlen.2 ..
  rxbuf_wf := h.rxbuf_wf
  regdata_wf := h.regdata_wf
  exception_fields := exceptionFieldsFit_setVerdict .vNone 0 s
  frame_ready _ := frameReady_built hlen hl hh
  verdict_stands hv := absurd rfl hv

/-- An encode keeps the invariant: it is a build on the state in which its PDU is written, TX_COUNT is 0 and VERDICT is
V_NONE. -/
theorem Inv.encoded (h : Inv s) (fn : Byte) (a v : Half) (rpduLen : Nat) : Inv (encoded fn a v rpduLen s) := by
  have hwf : Memory.wf (Store.writeRun 1 (requestPdu fn a v) s.txbuf) = true :=
    Store.wf_writeRun h.txbuf_wf (by simp [bufferSize])
  have hpdu := (h.clearFrame 5 hwf).clearVerdict s.saddr (BitVec.ofNat 8 rpduLen) s.rxCount h.rxbuf_wf
  exact hpdu.built (by simp) (requestPdu_length fn a v)
    (Store.holds_writeRun 1 _ s.txbuf)

/-- Every command keeps the invariant. -/
theorem exec_keeps_inv {i : Instr} (hs : Inv s) (h : exec i s = .next t) : Inv t := by
  rcases exec_next_cases h with ⟨e, _, _, rfl⟩ | ⟨e, _, _, rfl⟩ | ⟨_, rfl⟩ | ⟨c, _, rfl⟩ |
    ⟨_, _, h₁, h₂, pdu, hl, hh, rfl⟩ | ⟨_, ha, h₁, h₂, hc, v, code, hp, rfl⟩ | ⟨_, _, rfl⟩ | ⟨_, _, rfl⟩ |
    ⟨_, _, regs, _, hl, rfl⟩
  · exact hs.withOthers ..
  · exact (hs.clearFrame s.wpduLen hs.txbuf_wf).withOthers ..
  · exact hs.withOthers ..
  · exact hs.withOthers ..
  · exact hs.built ⟨h₁, h₂⟩ hl hh
  · exact (hs.setVerdict_of_parse ha ⟨h₁, h₂⟩ hc hp).withOthers ..
  · exact hs.encoded ..
  · exact hs.encoded ..
  · exact hs.setRegdata .ok hl

/-- Every host write to a slot other than CMD keeps the invariant. -/
theorem writeSlot_keeps_inv {slot : Slot} {w : Word} (hm : slot.inMap) (hc : slot ≠ .cmd) (hs : Inv s)
    (h : writeSlot slot w s = .next t) : Inv t := by
  rcases writeSlot_next_cases hc h with ⟨_, rfl⟩ | ⟨_, rfl⟩ | ⟨_, rfl⟩ | ⟨_, rfl⟩ | ⟨_, rfl⟩ | ⟨_, rfl⟩ | ⟨_, rfl⟩ |
    ⟨_, rfl⟩ | ⟨k, rfl, rfl⟩ | ⟨k, rfl, rfl⟩
  · exact hs.withOthers ..
  · exact hs.clearVerdict _ _ _ hs.rxbuf_wf
  · exact hs.clearFrame _ hs.txbuf_wf
  · exact hs.clearVerdict _ _ _ hs.rxbuf_wf
  · exact hs.clearVerdict _ _ _ hs.rxbuf_wf
  · exact hs.withOthers ..
  · exact hs.withOthers ..
  · exact hs.withOthers ..
  · exact hs.clearFrame _ (wf_writeLanes hm hs.txbuf_wf w)
  · exact hs.clearVerdict _ _ _ (wf_writeLanes hm hs.rxbuf_wf w)

/-- Every host access keeps the invariant. -/
theorem access_keeps_inv {a : Access} (hs : Inv s) (h : access a s = .next t) : Inv t := by
  have hdone : Inv (s.setReply .done) := hs.withOthers ..
  rcases access_next_effects h with ⟨_, w, rfl⟩ | ⟨w, i, _, _, hx⟩ | ⟨w, _, rfl⟩ | ⟨slot, w, _, hslot, hc, hw⟩
  · exact hs.withOthers ..
  · exact exec_keeps_inv hdone hx
  · exact hdone.withOthers ..
  · exact writeSlot_keeps_inv (slotAt_eq_some.1 hslot).1 hc hdone hw

/-- A reset establishes the invariant. -/
theorem inv_reset : Inv State.reset where
  txbuf_wf := rfl
  rxbuf_wf := rfl
  regdata_wf := rfl
  exception_fields := exceptionFieldsFit_setVerdict .vNone 0 State.reset
  frame_ready hc := absurd rfl hc
  verdict_stands hv := absurd rfl hv

/-- Settles O52: by cases on what the step takes: each command and each host write keeps every part of the invariant. -/
theorem stepKeepsTheInvariant : Obligations.StepKeepsTheInvariant := by
  intro s t hs h
  rcases step_next_cases h with ⟨_, rfl⟩ | ⟨rest, _, rfl⟩ | ⟨a, rest, _, ha⟩
  · exact hs
  · exact inv_reset.withOthers ..
  · exact access_keeps_inv (hs.withOthers ..) ha

end Sys2Proof.Machine
end

section
/-! PROOF. The registers of the window (spec/10_state.md R20 to R40): the layout of STATUS, and what the host reads and
writes. -/

namespace Sys2Proof.Machine

/-! ### The layout of STATUS (spec/10_state.md R22, R39) -/

theorem getLsbD_fieldAt {n : Nat} (lo : Nat) (v : BitVec n) (i : Nat) :
    (fieldAt lo v).getLsbD i = (decide (i < 32) && decide (lo ≤ i) && v.getLsbD (i - lo)) := by
  simp only [fieldAt, BitVec.getLsbD_shiftLeft, BitVec.getLsbD_setWidth]
  by_cases hi : i < 32
  · simp [hi, show i - lo < 32 by omega, ← decide_not]
  · simp [hi]

/-- A field of STATUS reads back at its own place. -/
theorem extractLsb'_fieldAt_self {n lo : Nat} (h : lo + n ≤ 32) (v : BitVec n) : (fieldAt lo v).extractLsb' lo n = v := by
  apply BitVec.eq_of_getLsbD_eq
  intro i hi
  simp [getLsbD_fieldAt, hi]
  omega

/-- A field of STATUS is 0 beside its own place. -/
theorem extractLsb'_fieldAt_beside {n lo start len : Nat} (h : start + len ≤ lo ∨ lo + n ≤ start) (v : BitVec n) :
    (fieldAt lo v).extractLsb' start len = 0#len := by
  apply BitVec.eq_of_getLsbD_eq
  intro i hi
  rw [BitVec.getLsbD_extractLsb', getLsbD_fieldAt]
  rcases h with h | h
  · simp [show ¬ lo ≤ start + i by omega]
  · simp [BitVec.getLsbD_of_ge v (start + i - lo) (by omega)]

theorem getLsbD_statusWord_excKnown (s : State) : (statusWord s).getLsbD 24 = s.excKnown := by
  simp only [statusWord, BitVec.getLsbD_or, getLsbD_fieldAt]
  simp

/-- The bits that R22 reserves are 0. -/
theorem statusWord_reserved (s : State) :
    (statusWord s).extractLsb' 4 4 = 0 ∧ (statusWord s).extractLsb' 12 4 = 0 ∧ (statusWord s).extractLsb' 25 7 = 0 := by
  simp (disch := omega) [statusWord, BitVec.extractLsb'_or, extractLsb'_fieldAt_beside]

/-- The mask of R39 covers the reserved bits only. -/
theorem reserved_of_mask : ∀ i < 32, (0xFE00F0F0 : Word).getLsbD i = true →
    (4 ≤ i ∧ i < 4 + 4) ∨ (12 ≤ i ∧ i < 12 + 4) ∨ (25 ≤ i ∧ i < 25 + 7) := by decide

theorem statusWord_and_reserved (s : State) : statusWord s &&& 0xFE00F0F0 = 0 := by
  have clear : ∀ {lo len i : Nat}, (statusWord s).extractLsb' lo len = 0 → lo ≤ i ∧ i < lo + len →
      (statusWord s).getLsbD i = false := by
    intro lo len i h hi
    have := congrArg (BitVec.getLsbD · (i - lo)) h
    simpa [show i - lo < len by omega, show lo + (i - lo) = i by omega] using this
  obtain ⟨h₄, h₁₂, h₂₅⟩ := statusWord_reserved s
  apply BitVec.eq_of_getLsbD_eq
  intro i hi
  rw [BitVec.getLsbD_and]
  cases hm : (0xFE00F0F0 : Word).getLsbD i with
  | false => simp
  | true =>
    rcases reserved_of_mask i hi hm with h | h | h
    · simp [clear h₄ h]
    · simp [clear h₁₂ h]
    · simp [clear h₂₅ h]

/-! ### Host reads and writes of a slot -/

section
variable {slot : Slot} (rest : List Input) {s : State}

/-- The step that reads a slot answers its word and changes nothing else (R65). -/
theorem step_read {w : Word} (h : slot.inMap) (hr : readSlot slot s = .ok w) :
    step (s.facing ⟨32, BitVec.ofNat 12 slot.offset, .read⟩ rest) = .next { s with bus := rest, reply := .data w } := by
  rw [step_facing_slot h, slotAccess, readSlot_congr slot s rest s.reply, hr]
  rfl

/-- The step that reads a slot with an unwritten byte or entry is a fault (R33). -/
theorem step_read_fault {f : Fault} (h : slot.inMap) (hr : readSlot slot s = .error f) :
    step (s.facing ⟨32, BitVec.ofNat 12 slot.offset, .read⟩ rest) = .fault f := by
  rw [step_facing_slot h, slotAccess, readSlot_congr slot s rest s.reply, hr]

/-- The step that writes a slot is the write of it, around which the access leaves the bus and is answered. -/
theorem step_write (w : Word) (h : slot.inMap) :
    step (s.facing ⟨32, BitVec.ofNat 12 slot.offset, .write w⟩ rest) =
      writeSlot slot w { s with bus := rest, reply := .done } :=
  step_facing_slot h ..

end

/-- The low n bits of a bus word, zero-extended again (R39). -/
theorem setWidth_narrowed (n : Nat) (w : Word) : (w.setWidth n).setWidth 32 = BitVec.ofNat 32 (w.toNat % 2 ^ n) := by
  rw [← BitVec.ofNat_toNat, BitVec.toNat_setWidth]

/-- Settles O12: field by field: the word of STATUS is a disjunction of fields that do not overlap. -/
theorem statusLayout : Obligations.StatusLayout := by
  intro s rest
  obtain ⟨h₄, h₁₂, h₂₅⟩ := statusWord_reserved s
  refine ⟨fun w => step_write (slot := .status) rest w trivial, statusWord s, step_read (slot := .status) rest trivial rfl,
    ?_, h₄, ?_, h₁₂, ?_, getLsbD_statusWord_excKnown s, h₂₅⟩
  all_goals
    simp (disch := omega) [statusWord, BitVec.extractLsb'_or, extractLsb'_fieldAt_self, extractLsb'_fieldAt_beside]

/-- Settles O6: a write to the slot CMD runs the command its word decodes to. -/
theorem stepRunsDecodedCommand : Obligations.StepRunsDecodedCommand := by
  refine fun s rest => ⟨fun w i hi => ?_, step_read (slot := .cmd) rest trivial rfl⟩
  exact (step_write (slot := .cmd) rest w trivial).trans (by rw [writeSlot, runCommand, hi])

/-- Settles O13: a read of each register, by its slot. -/
theorem registerReadsReturnZeroExtended : Obligations.RegisterReadsReturnZeroExtended := by
  intro s rest
  simp only [BitVec.ofNat_toNat]
  exact ⟨step_read (slot := .crc) rest trivial rfl, step_read (slot := .saddr) rest trivial rfl,
    step_read (slot := .wpduLen) rest trivial rfl, step_read (slot := .rpduLen) rest trivial rfl,
    step_read (slot := .txCount) rest trivial rfl, step_read (slot := .rxCount) rest trivial rfl,
    step_read (slot := .regAddr) rest trivial rfl, step_read (slot := .regCount) rest trivial rfl,
    step_read (slot := .regValue) rest trivial rfl⟩

/-- A register that is written keeps n bits of the word, and the next read returns them (R39). -/
theorem step_read_after_write {slot : Slot} {s t : State} (w : Word) (n : Nat) (rest rest' : List Input)
    (h : slot.inMap) (hw : writeSlot slot w { s with bus := rest, reply := .done } = .next t)
    (hr : readSlot slot t = .ok ((w.setWidth n).setWidth 32)) :
    ∃ t, step (s.facing ⟨32, BitVec.ofNat 12 slot.offset, .write w⟩ rest) = .next t ∧
      step (t.facing ⟨32, BitVec.ofNat 12 slot.offset, .read⟩ rest') =
        .next { t with bus := rest', reply := .data (BitVec.ofNat 32 (w.toNat % 2 ^ n)) } := by
  refine ⟨t, (step_write rest w h).trans hw, step_read rest' h ?_⟩
  rw [hr, setWidth_narrowed]

/-- Settles O18: each register keeps the low bits of the word and returns them zero-extended. -/
theorem upperBitsAreIgnoredAndReadAsZero : Obligations.UpperBitsAreIgnoredAndReadAsZero := by
  refine ⟨fun s w rest rest' reg hreg => ?_, statusWord_and_reserved⟩
  simp only [List.mem_cons, List.not_mem_nil, or_false] at hreg
  rcases hreg with rfl | rfl | rfl | rfl | rfl | rfl | rfl | rfl
  · exact step_read_after_write (slot := .crc) w 16 rest rest' trivial rfl rfl
  · exact step_read_after_write (slot := .saddr) w 8 rest rest' trivial rfl rfl
  · exact step_read_after_write (slot := .wpduLen) w 8 rest rest' trivial rfl rfl
  · exact step_read_after_write (slot := .rpduLen) w 8 rest rest' trivial rfl rfl
  · exact step_read_after_write (slot := .rxCount) w 9 rest rest' trivial rfl rfl
  · exact step_read_after_write (slot := .regAddr) w 16 rest rest' trivial rfl rfl
  · exact step_read_after_write (slot := .regCount) w 16 rest rest' trivial rfl rfl
  · exact step_read_after_write (slot := .regValue) w 16 rest rest' trivial rfl rfl

/-- A step that takes a host read changes nothing but the reply (R65). -/
theorem step_read_keeps {a : Access} {s t : State} {rest : List Input} (hop : a.op = .read)
    (h : step (s.facing a rest) = .next t) : ∃ w, t = { s with bus := rest, reply := .data w } := by
  rcases access_next_effects h with ⟨_, w, rfl⟩ | ⟨w, i, rfl, _⟩ | ⟨w, rfl, _⟩ | ⟨_, w, hw, _⟩
  · exact ⟨w, rfl⟩
  · cases hop
  · cases hop
  · cases hop.symm.trans hw

/-- Settles O14: a write of each slot, by its slot; a read changes only the reply. -/
theorem hostWritesHaveOnlyTheListedSideEffects : Obligations.HostWritesHaveOnlyTheListedSideEffects := by
  intro s rest w
  rw [← BitVec.setWidth_eq_extractLsb' (x := w) (w := 16) (by omega),
    ← BitVec.setWidth_eq_extractLsb' (x := w) (w := 8) (by omega),
    ← BitVec.setWidth_eq_extractLsb' (x := w) (w := 9) (by omega)]
  refine ⟨step_write (slot := .crc) rest w trivial, step_write (slot := .saddr) rest w trivial,
    step_write (slot := .wpduLen) rest w trivial, step_write (slot := .rpduLen) rest w trivial,
    step_write (slot := .rxCount) rest w trivial, step_write (slot := .regAddr) rest w trivial,
    step_write (slot := .regCount) rest w trivial, step_write (slot := .regValue) rest w trivial,
    fun k hk => ⟨_, step_write (slot := .tx k) rest w hk, rfl⟩,
    fun k hk => ⟨_, step_write (slot := .rx k) rest w hk, rfl⟩, fun a t hop h => ?_⟩
  obtain ⟨_, rfl⟩ := step_read_keeps hop h
  rfl

end Sys2Proof.Machine
end

section
/-! PROOF. Which parts of the state a command, a host access and a step leave (spec/10_state.md R23 to R35). -/

namespace Sys2Proof.Machine

/-! ### Command words with no operand (spec/30_encoding.md R83) -/

/-- A word that decodes selects the row that gives its command (R85). -/
theorem decode_ok_row {w : Word} {i : Instr} (h : decode w = .ok i) : ∃ r ∈ opcodeMap, r.selects w = true ∧ r.instr w = i := by
  unfold decode at h
  split at h
  · rename_i r hr
    exact ⟨r, List.mem_of_find?_eq_some hr, by simpa using List.find?_some hr, Except.ok.inj h⟩
  · cases h

/-- FRAME_PARSE and DEC_READ have one command word each: the mask of their rows covers every bit. -/
theorem eq_encode_of_decode {w : Word} {i : Instr} (h : decode w = .ok i) (hi : i = .frameParse ∨ i = .decRead) :
    w = encode i := by
  obtain ⟨r, hr, hs, rfl⟩ := decode_ok_row h
  have hrow : r.mask = BitVec.allOnes 32 ∧ r.matchWord = encode (r.instr w) := by
    simp only [opcodeMap, List.mem_cons, List.not_mem_nil, or_false] at hr
    rcases hr with rfl | rfl | rfl | rfl | rfl | rfl | rfl | rfl | rfl | rfl | rfl <;> simp at hi
    · exact ⟨rfl, rfl⟩
    · exact ⟨rfl, rfl⟩
  obtain ⟨hmask, hmatch⟩ := hrow
  rw [OpcodeRow.selects, hmask, BitVec.and_allOnes, beq_iff_eq] at hs
  exact hs.trans hmatch

/-! ### Written entries stay written (spec/10_state.md R33) -/

theorem Store.StaysWritten.refl {α : Type} (m : Store α) : Store.StaysWritten m m := fun _ h => h

theorem Store.StaysWritten.trans {α : Type} {m m' m'' : Store α} (h : Store.StaysWritten m m')
    (h' : Store.StaysWritten m' m'') : Store.StaysWritten m m'' := fun j hj => h' j (h j hj)

theorem Store.staysWritten_write {α : Type} (i : Nat) (v : α) (m : Store α) :
    Store.StaysWritten m (Store.write i v m) := by
  intro j hj
  rw [Store.read_write]
  split
  · rfl
  · exact hj

theorem Store.staysWritten_writeRun {α : Type} (i : Nat) (vs : List α) (m : Store α) :
    Store.StaysWritten m (Store.writeRun i vs m) := by
  induction vs generalizing i m with
  | nil => exact .refl m
  | cons v vs ih => exact (Store.staysWritten_write i v m).trans (ih (i + 1) _)

theorem staysWritten_writeLanes (k : Nat) (w : Word) (m : Memory) : Store.StaysWritten m (writeLanes k w m) :=
  Store.staysWritten_writeRun (4 * k) (laneBytes w) m

theorem staysWritten_frameAround (len : Nat) (saddr : Byte) (k : Half) (m : Memory) :
    Store.StaysWritten m (frameAround len saddr k m) :=
  (Store.staysWritten_write 0 saddr m).trans (Store.staysWritten_writeRun (len + 1) (crcBytes k) _)

/-- An encode command writes its PDU and the frame around it, and makes no byte unwritten. -/
theorem staysWritten_encoded (fn : Byte) (a v : Half) (rpduLen : Nat) (s : State) :
    Store.StaysWritten s.txbuf (encoded fn a v rpduLen s).txbuf :=
  (Store.staysWritten_writeRun 1 (requestPdu fn a v) s.txbuf).trans (staysWritten_frameAround 5 s.saddr _ _)

/-! ### VERDICT and its exception fields (spec/10_state.md R25) -/

/-- VERDICT, EXC_CODE and EXC_KNOWN, which set_verdict writes together. -/
def State.verdictFields (s : State) : Verdict × Byte × Bool := (s.verdict, s.excCode, s.excKnown)

theorem State.verdictFields_eq_iff {s t : State} : t.verdictFields = s.verdictFields ↔
    t.verdict = s.verdict ∧ t.excCode = s.excCode ∧ t.excKnown = s.excKnown := by
  simp [State.verdictFields]

/-- What set_verdict leaves in the three fields does not depend on the state before (R120). -/
theorem State.verdictFields_setVerdict (v : Verdict) (code : Byte) (s t : State) :
    (s.setVerdict v code).verdictFields = (t.setVerdict v code).verdictFields := by
  simp [State.verdictFields]

/-! ### What a command leaves of each part of the state -/

section
variable {i : Instr} {s t : State}

/-- The framer and register commands, which do not use the CRC register (R26). -/
def Instr.ignoresCrc (i : Instr) : Prop :=
  i = .frameBuild ∨ i = .frameParse ∨ i = .encRead ∨ i = .encWrite ∨ i = .decRead ∨ i = .decWrite

/-- The four ways in which a command changes the state: it writes ERR and perhaps CRC or TX_COUNT alone, completes a frame
in TXBUF, records a verdict, or decodes registers. -/
theorem exec_next_effects (h : exec i s = .next t) :
    (∃ err crc txCount, (Instr.ignoresCrc i → crc = s.crc) ∧ (Instr.framing i → err ≠ .ok) ∧
      t = { s with err, crc, txCount }) ∨
    (∃ txbuf txCount wpduLen rpduLen, Store.StaysWritten s.txbuf txbuf ∧
      t = { s with
        txbuf, txCount, wpduLen, rpduLen, verdict := .vNone, excCode := 0, excKnown := false, err := .ok }) ∨
    (i = .frameParse ∧ ∃ v code, t = (s.setVerdict v code).setErr .ok) ∨
    (i = .decRead ∧ ∃ regs : List Half, regs.length = s.regCount.toNat ∧
      t = { s with regdata := Store.writeRun 0 regs s.regdata, err := .ok }) := by
  rcases exec_next_cases h with ⟨e, he, _, rfl⟩ | ⟨e, he, _, rfl⟩ | ⟨hi, rfl⟩ | ⟨c, hi, rfl⟩ |
    ⟨_, _, _, _, _, _, _, rfl⟩ | ⟨hi, _, _, _, _, v, code, _, rfl⟩ | ⟨_, _, rfl⟩ | ⟨_, _, rfl⟩ | ⟨hi, _, regs, hl, _, rfl⟩
  · exact .inl ⟨e, _, _, fun _ => rfl, fun _ => he, rfl⟩
  · exact .inl ⟨e, _, _, fun _ => rfl, fun _ => he, rfl⟩
  · refine .inl ⟨.ok, _, _, fun _ => rfl, fun hf => ?_, rfl⟩
    rcases hi with rfl | rfl <;> simp [Instr.framing] at hf
  · refine .inl ⟨.ok, c, _, fun hc => ?_, fun hf => ?_, rfl⟩
    · rcases hi with rfl | ⟨_, rfl⟩ | ⟨_, rfl⟩ | ⟨_, rfl⟩ <;> simp [Instr.ignoresCrc] at hc
    · rcases hi with rfl | ⟨_, rfl⟩ | ⟨_, rfl⟩ | ⟨_, rfl⟩ <;> simp [Instr.framing] at hf
  · exact .inr (.inl ⟨_, _, _, _, staysWritten_frameAround _ s.saddr _ s.txbuf, rfl⟩)
  · exact .inr (.inr (.inl ⟨hi, v, code, rfl⟩))
  · exact .inr (.inl ⟨_, _, _, _, staysWritten_encoded _ _ _ _ s, rfl⟩)
  · exact .inr (.inl ⟨_, _, _, _, staysWritten_encoded _ _ _ _ s, rfl⟩)
  · exact .inr (.inr (.inr ⟨hi, regs, hl, rfl⟩))

/-- No command writes RXBUF (R34). -/
theorem exec_keeps_rxbuf (h : exec i s = .next t) : t.rxbuf = s.rxbuf := by
  rcases exec_next_effects h with ⟨_, _, _, _, _, rfl⟩ | ⟨_, _, _, _, _, rfl⟩ | ⟨_, _, _, rfl⟩ | ⟨_, _, _, rfl⟩ <;> simp

/-- No command makes a byte of TXBUF unwritten (R33). -/
theorem exec_txbuf_staysWritten (h : exec i s = .next t) : Store.StaysWritten s.txbuf t.txbuf := by
  rcases exec_next_effects h with ⟨_, _, _, _, _, rfl⟩ | ⟨_, _, _, _, hm, rfl⟩ | ⟨_, _, _, rfl⟩ | ⟨_, _, _, rfl⟩
  · exact .refl s.txbuf
  · exact hm
  · simpa using Store.StaysWritten.refl s.txbuf
  · exact .refl s.txbuf

/-- Only DEC_READ writes REGDATA, entries 0 to REG_COUNT - 1 (R35). -/
theorem exec_regdata_cases (h : exec i s = .next t) : t.regdata = s.regdata ∨
    (i = .decRead ∧ ∃ regs : List Half, regs.length = s.regCount.toNat ∧
      t.regdata = Store.writeRun 0 regs s.regdata) := by
  rcases exec_next_effects h with ⟨_, _, _, _, _, rfl⟩ | ⟨_, _, _, _, _, rfl⟩ | ⟨_, _, _, rfl⟩ | ⟨hi, regs, hl, rfl⟩
  · exact .inl rfl
  · exact .inl rfl
  · exact .inl (by simp)
  · exact .inr ⟨hi, regs, hl, rfl⟩

/-- A command leaves the verdict, clears it, or is FRAME_PARSE and sets it (R24). -/
theorem exec_verdict_cases (h : exec i s = .next t) : t.verdictFields = s.verdictFields ∨
    t.verdictFields = (s.setVerdict .vNone 0).verdictFields ∨
    (i = .frameParse ∧ ∃ v code, t.verdictFields = (s.setVerdict v code).verdictFields) := by
  rcases exec_next_effects h with ⟨_, _, _, _, _, rfl⟩ | ⟨_, _, _, _, _, rfl⟩ | ⟨hi, v, code, rfl⟩ | ⟨_, _, _, rfl⟩
  · exact .inl rfl
  · exact .inr (.inl rfl)
  · exact .inr (.inr ⟨hi, v, code, rfl⟩)
  · exact .inl rfl

/-- A frame that is built leaves V_NONE (R24). -/
theorem exec_framing_verdict (hi : Instr.framing i) (h : exec i s = .next t) (hok : t.err = .ok) :
    t.verdict = .vNone := by
  rcases exec_next_effects h with ⟨_, _, _, _, he, rfl⟩ | ⟨_, _, _, _, _, rfl⟩ | ⟨hp, _⟩ | ⟨hd, _⟩
  · exact absurd hok (he hi)
  · rfl
  · simp [hp, Instr.framing] at hi
  · simp [hd, Instr.framing] at hi

/-- The framer and register commands leave CRC (R26). -/
theorem exec_keeps_crc (hi : Instr.ignoresCrc i) (h : exec i s = .next t) : t.crc = s.crc := by
  rcases exec_next_effects h with ⟨_, _, _, hc, _, rfl⟩ | ⟨_, _, _, _, _, rfl⟩ | ⟨_, _, _, rfl⟩ | ⟨_, _, _, rfl⟩
  · exact hc hi
  · rfl
  · simp
  · rfl

/-! ### What a command does not read -/

/-- The old ERR has no influence: every outcome of a command writes it (R23). -/
theorem exec_withErr (i : Instr) (s : State) (e : Err) : exec i { s with err := e } = exec i s := by
  cases i with
  | frameParse =>
    simp only [exec, execFrameParse]
    rw [parseFrame_congr (s := s) (t := { s with err := e }) rfl rfl rfl rfl]
    cases parseFrame s with
    | error f => rfl
    | ok vc =>
      obtain ⟨v, code⟩ := vc
      cases v <;> rfl
  | _ => rfl

theorem buildAdu_setCrc (len : Nat) (s : State) (c : Half) :
    buildAdu len (s.setCrc c) = onNext (State.setCrc c) (buildAdu len s) := by
  unfold buildAdu
  rw [show readTx 1 len (s.setCrc c) = readTx 1 len s from rfl]
  cases readTx 1 len s <;> rfl

theorem setVerdict_setCrc (v : Verdict) (code : Byte) (c : Half) (s : State) :
    (s.setCrc c).setVerdict v code = (s.setVerdict v code).setCrc c := by
  cases v <;> rfl

/-- A framer or register command does the same whatever CRC holds, and leaves it (R26). -/
theorem exec_setCrc (hi : Instr.ignoresCrc i) (s : State) (c : Half) :
    exec i (s.setCrc c) = onNext (State.setCrc c) (exec i s) := by
  have haddr : badServerAddress (s.setCrc c) = badServerAddress s := rfl
  rcases hi with rfl | rfl | rfl | rfl | rfl | rfl
  · simp only [exec, execFrameBuild, haddr, State.setCrc_wpduLen, buildAdu_setCrc]
    repeat' split
    all_goals rfl
  · simp only [exec, execFrameParse]
    rw [haddr, State.setCrc_rpduLen, State.setCrc_rxCount,
      parseFrame_congr (s := s) (t := s.setCrc c) rfl rfl rfl rfl]
    cases parseFrame s with
    | error f => split_ifs <;> rfl
    | ok vc =>
      simp only [setVerdict_setCrc]
      split_ifs <;> rfl
  · simp only [exec, execEncRead, encodeRequest_eq, haddr, State.setCrc_regCount, State.setCrc_regAddr]
    repeat' split
    all_goals rfl
  · simp only [exec, execEncWrite, encodeRequest_eq, haddr]
    split <;> rfl
  · simp only [exec, execDecRead, State.setCrc_verdict, State.setCrc_regCount, State.setCrc_rpduLen,
      show ∀ n, responseRegisters n (s.setCrc c) = responseRegisters n s from fun _ => rfl]
    repeat' split
    all_goals rfl
  · simp only [exec, execDecWrite, State.setCrc_verdict, State.setCrc_rpduLen,
      show echoes (s.setCrc c) 1 5 = echoes s 1 5 from rfl]
    repeat' split
    all_goals rfl

/-! ### Host writes other than commands (spec/10_state.md R40) -/

variable {slot : Slot} {w : Word}

/-- A host write to a slot other than CMD leaves ERR and REGDATA (R23, R35). -/
theorem writeSlot_keeps_err_regdata (hc : slot ≠ .cmd) (h : writeSlot slot w s = .next t) :
    t.err = s.err ∧ t.regdata = s.regdata := by
  rcases writeSlot_next_cases hc h with ⟨_, rfl⟩ | ⟨_, rfl⟩ | ⟨_, rfl⟩ | ⟨_, rfl⟩ | ⟨_, rfl⟩ | ⟨_, rfl⟩ | ⟨_, rfl⟩ |
    ⟨_, rfl⟩ | ⟨_, _, rfl⟩ | ⟨_, _, rfl⟩ <;> simp

/-- Only a host write to a word of TXBUF changes it (R32). -/
theorem writeSlot_txbuf_cases (hc : slot ≠ .cmd) (h : writeSlot slot w s = .next t) :
    t.txbuf = s.txbuf ∨ ∃ k, slot = .tx k ∧ t.txbuf = writeLanes k w s.txbuf := by
  rcases writeSlot_next_cases hc h with ⟨_, rfl⟩ | ⟨_, rfl⟩ | ⟨_, rfl⟩ | ⟨_, rfl⟩ | ⟨_, rfl⟩ | ⟨_, rfl⟩ | ⟨_, rfl⟩ |
    ⟨_, rfl⟩ | ⟨_, _, rfl⟩ | ⟨_, _, rfl⟩ <;> simp_all

/-- Only a host write to a word of RXBUF changes it (R34). -/
theorem writeSlot_rxbuf_cases (hc : slot ≠ .cmd) (h : writeSlot slot w s = .next t) :
    t.rxbuf = s.rxbuf ∨ ∃ k, slot = .rx k ∧ t.rxbuf = writeLanes k w s.rxbuf := by
  rcases writeSlot_next_cases hc h with ⟨_, rfl⟩ | ⟨_, rfl⟩ | ⟨_, rfl⟩ | ⟨_, rfl⟩ | ⟨_, rfl⟩ | ⟨_, rfl⟩ | ⟨_, rfl⟩ |
    ⟨_, rfl⟩ | ⟨_, _, rfl⟩ | ⟨_, _, rfl⟩ <;> simp_all

/-- The slots whose host write clears the verdict (R40). -/
def Slot.clearsVerdict : Slot → Prop
  | .saddr | .rpduLen | .rxCount | .rx _ => True
  | _ => False

/-- A host write clears the verdict exactly where R40 says, and leaves it elsewhere. -/
theorem writeSlot_verdict_cases (hc : slot ≠ .cmd) (h : writeSlot slot w s = .next t) :
    (slot.clearsVerdict ∧ t.verdictFields = (s.setVerdict .vNone 0).verdictFields) ∨
    (¬ slot.clearsVerdict ∧ t.verdictFields = s.verdictFields) := by
  rcases writeSlot_next_cases hc h with ⟨rfl, rfl⟩ | ⟨rfl, rfl⟩ | ⟨rfl, rfl⟩ | ⟨rfl, rfl⟩ | ⟨rfl, rfl⟩ | ⟨rfl, rfl⟩ |
    ⟨rfl, rfl⟩ | ⟨rfl, rfl⟩ | ⟨_, rfl, rfl⟩ | ⟨_, rfl, rfl⟩ <;>
  simp [Slot.clearsVerdict, State.verdictFields]

end

/-! ### What an access and a step leave of each part of the state -/

section
variable {a : Access} {s t : State}

/-- An access of FRAME_PARSE's word to CMD is one that runs it. -/
theorem parses_of_decode {w : Word} (h : decode w = .ok .frameParse) : Access.parses ⟨32, 0, .write w⟩ = true := by
  simp [Access.parses, eq_encode_of_decode h (.inl rfl)]

/-- A host access leaves the verdict, clears it, or runs FRAME_PARSE and sets it (R24). -/
theorem access_verdict_cases (h : access a s = .next t) : t.verdictFields = s.verdictFields ∨
    t.verdictFields = (s.setVerdict .vNone 0).verdictFields ∨
    (a.parses = true ∧ ∃ v code, t.verdictFields = (s.setVerdict v code).verdictFields) := by
  rcases access_next_effects h with ⟨_, _, rfl⟩ | ⟨w, i, rfl, hi, hx⟩ | ⟨_, _, rfl⟩ | ⟨_, _, _, _, hc, hw⟩
  · exact .inl rfl
  · rcases exec_verdict_cases hx with hv | hv | ⟨rfl, v, code, hv⟩
    · exact .inl hv
    · exact .inr (.inl hv)
    · exact .inr (.inr ⟨parses_of_decode hi, v, code, hv.trans (State.verdictFields_setVerdict ..)⟩)
  · exact .inl rfl
  · rcases writeSlot_verdict_cases hc hw with ⟨_, hv⟩ | ⟨_, hv⟩
    · exact .inr (.inl hv)
    · exact .inl hv

/-- A step leaves the verdict and its exception fields or writes them as set_verdict does (R25, R120). -/
theorem step_verdict_cases (h : step s = .next t) : t.verdictFields = s.verdictFields ∨
    ∃ v code, t.verdictFields = (s.setVerdict v code).verdictFields := by
  rcases step_next_cases h with ⟨_, rfl⟩ | ⟨_, _, rfl⟩ | ⟨a, rest, _, ha⟩
  · exact .inl rfl
  · exact .inr ⟨.vNone, 0, rfl⟩
  · rcases access_verdict_cases ha with hv | hv | ⟨_, v, code, hv⟩
    · exact .inl hv
    · exact .inr ⟨.vNone, 0, hv⟩
    · exact .inr ⟨v, code, hv.trans (State.verdictFields_setVerdict ..)⟩

/-- An access that changes RXBUF writes one of its words (R34). -/
theorem access_rxbuf_cases (h : access a s = .next t) : t.rxbuf = s.rxbuf ∨
    ∃ w k, a.op = .write w ∧ k < 64 ∧ a.off.toNat = 0x200 + 4 * k ∧ t.rxbuf = writeLanes k w s.rxbuf := by
  rcases access_next_effects h with ⟨_, _, rfl⟩ | ⟨_, _, _, _, hx⟩ | ⟨_, _, rfl⟩ | ⟨_, w, hop, hslot, hc, hw⟩
  · exact .inl rfl
  · exact .inl (exec_keeps_rxbuf (s := s.setReply .done) hx)
  · exact .inl rfl
  · rcases writeSlot_rxbuf_cases hc hw with hr | ⟨k, rfl, hr⟩
    · exact .inl hr
    · obtain ⟨hk, hoff⟩ := slotAt_eq_some.1 hslot
      exact .inr ⟨w, k, hop, hk, hoff, hr⟩

/-- An access that changes REGDATA runs DEC_READ, which writes entries 0 to REG_COUNT - 1 (R35). -/
theorem access_regdata_cases (h : access a s = .next t) : t.regdata = s.regdata ∨
    (a = ⟨32, 0, .write (encode .decRead)⟩ ∧ ∃ regs : List Half, regs.length = s.regCount.toNat ∧
      t.regdata = Store.writeRun 0 regs s.regdata) := by
  rcases access_next_effects h with ⟨_, _, rfl⟩ | ⟨w, i, rfl, hi, hx⟩ | ⟨_, _, rfl⟩ | ⟨_, _, _, _, hc, hw⟩
  · exact .inl rfl
  · rcases exec_regdata_cases hx with hr | ⟨rfl, hregs⟩
    · exact .inl hr
    · exact .inr ⟨by rw [eq_encode_of_decode hi (.inr rfl)], hregs⟩
  · exact .inl rfl
  · exact .inl (writeSlot_keeps_err_regdata hc hw).2

/-- No access makes a byte of TXBUF unwritten (R33). -/
theorem access_txbuf_staysWritten (h : access a s = .next t) : Store.StaysWritten s.txbuf t.txbuf := by
  rcases access_next_effects h with ⟨_, _, rfl⟩ | ⟨_, _, _, _, hx⟩ | ⟨_, _, rfl⟩ | ⟨_, w, _, _, hc, hw⟩
  · exact .refl s.txbuf
  · exact exec_txbuf_staysWritten (s := s.setReply .done) hx
  · exact .refl s.txbuf
  · rcases writeSlot_txbuf_cases hc hw with ht | ⟨k, _, ht⟩
    · exact ht ▸ .refl s.txbuf
    · exact ht ▸ staysWritten_writeLanes k w s.txbuf

/-! ### The obligations on what a step leaves -/

/-- Settles O26: an access that changes RXBUF writes one of its words. -/
theorem onlyTheHostWritesRxbuf : Obligations.OnlyTheHostWritesRxbuf := by
  refine ⟨fun _ _ _ => exec_keeps_rxbuf, fun a s t rest h hne => ?_⟩
  rcases access_rxbuf_cases h with hr | ⟨w, k, hop, hk, hoff, _⟩
  · exact absurd hr hne
  · exact ⟨⟨w, hop⟩, by omega, by omega⟩

/-- Settles O27: every change of a memory is a write of entries, which unwrites none. -/
theorem writtenStaysWrittenUntilReset : Obligations.WrittenStaysWrittenUntilReset := by
  refine ⟨fun a s t rest h => ⟨access_txbuf_staysWritten (s := { s with bus := rest }) h, ?_, ?_⟩,
    fun _ => ⟨rfl, rfl, rfl⟩⟩
  · rcases access_rxbuf_cases h with hr | ⟨w, k, _, _, _, hr⟩
    · exact hr ▸ .refl s.rxbuf
    · exact hr ▸ staysWritten_writeLanes k w s.rxbuf
  · rcases access_regdata_cases h with hr | ⟨_, regs, _, hr⟩
    · exact hr ▸ .refl s.regdata
    · exact hr ▸ Store.staysWritten_writeRun 0 regs s.regdata

/-- Settles O53: the canonical form of a store is determined by what it reads. -/
theorem equalContentsAreEqualMemories : Obligations.EqualContentsAreEqualMemories := fun _ _ hs ht =>
  ⟨Store.eq_of_read_eq hs.txbuf_wf ht.txbuf_wf, Store.eq_of_read_eq hs.rxbuf_wf ht.rxbuf_wf,
    Store.eq_of_read_eq hs.regdata_wf ht.regdata_wf⟩

/-- Settles O25: a framer or register command commutes with setting CRC. -/
theorem frameCommandsIgnoreCrcRegister : Obligations.FrameCommandsIgnoreCrcRegister := fun i s t hi h => by
  refine ⟨exec_keeps_crc hi h, fun c => ?_⟩
  rw [show ({ s with crc := c } : State) = s.setCrc c from rfl, exec_setCrc hi, h]
  rfl

/-- Settles O20: every outcome of a command overwrites ERR, and no other access touches it. -/
theorem errIsWrittenByEveryCommandAndOnlyByCommands : Obligations.ErrIsWrittenByEveryCommandAndOnlyByCommands := by
  refine ⟨fun i s t e h => (exec_withErr i s e).trans h, fun a s t rest hcmd h => ?_,
    rfl, rfl, rfl, rfl, rfl, rfl, rfl, rfl, rfl, fun e => by cases e <;> decide⟩
  rcases access_next_effects h with ⟨_, _, rfl⟩ | ⟨w, _, rfl, _⟩ | ⟨w, rfl, _⟩ | ⟨_, _, _, _, hc, hw⟩
  · rfl
  · exact absurd ⟨rfl, w, rfl⟩ hcmd
  · exact absurd ⟨rfl, w, rfl⟩ hcmd
  · exact (writeSlot_keeps_err_regdata hc hw).1

/-- SADDR, RPDU_LEN, RX_COUNT and the words of RXBUF clear the verdict (R40). -/
theorem clearsVerdict_of_slotAt {off : Offset} {slot : Slot} (hslot : slotAt off = some slot)
    (ho : off = 0x00C ∨ off = 0x014 ∨ off = 0x01C ∨ (0x200 ≤ off.toNat ∧ off.toNat ≤ 0x2FF)) :
    slot.clearsVerdict := by
  obtain ⟨hm, hoff⟩ := slotAt_eq_some.1 hslot
  simp only [← BitVec.toNat_inj, hoff] at ho
  cases slot <;> simp [Slot.inMap, Slot.offset, Slot.clearsVerdict] at hm ho ⊢ <;> omega

/-- Settles O23: by cases on the access, with the slots of R40 found from their offsets. -/
theorem onlyFrameParseSetsAVerdict : Obligations.OnlyFrameParseSetsAVerdict := by
  refine ⟨fun a s t rest hp h => ?_, fun _ _ _ => exec_framing_verdict, fun a s t rest w hop ho h => ?_,
    rfl, rfl, rfl, rfl, rfl, rfl, rfl, fun v => by cases v <;> decide⟩
  · rcases access_verdict_cases h with hv | hv | ⟨hp', _⟩
    · exact .inl (congrArg Prod.fst hv)
    · exact .inr (congrArg Prod.fst hv)
    · simp [hp] at hp'
  · rcases access_next_effects h with ⟨hr, _⟩ | ⟨w, i, rfl, _⟩ | ⟨_, rfl, _⟩ | ⟨slot, _, _, hslot, hc, hw⟩
    · cases hop.symm.trans hr
    · simp at ho
    · simp at ho
    · rcases writeSlot_verdict_cases hc hw with ⟨_, hv⟩ | ⟨hn, _⟩
      · exact congrArg Prod.fst hv
      · exact absurd (clearsVerdict_of_slotAt hslot ho) hn

theorem isKnownCode_eq (code : Byte) :
    isKnownCode code = decide (code ∈ ([1, 2, 3, 4, 5, 6, 7, 8, 10, 11] : List Byte)) :=
  List.contains_eq_mem code _

/-- EXC_KNOWN is 1 exactly for the codes the source names (R25, R183). -/
theorem exceptionFieldsFit_iff (s : State) : ExceptionFieldsFit s ↔
    (s.verdict ≠ .vException → s.excCode = 0 ∧ s.excKnown = false) ∧
    (s.verdict = .vException →
      (s.excKnown = true ↔ s.excCode ∈ ([1, 2, 3, 4, 5, 6, 7, 8, 10, 11] : List Byte))) := by
  unfold ExceptionFieldsFit
  by_cases hv : s.verdict = .vException
  · rw [if_pos hv, isKnownCode_eq, Bool.eq_iff_iff, decide_eq_true_iff]
    simp [hv]
  · simp [hv]

/-- Whether the exception fields fit depends on the verdict and them alone. -/
theorem exceptionFieldsFit_congr (h : t.verdictFields = s.verdictFields) :
    ExceptionFieldsFit t ↔ ExceptionFieldsFit s := by
  obtain ⟨hv, hc, hk⟩ := State.verdictFields_eq_iff.1 h
  rw [ExceptionFieldsFit, ExceptionFieldsFit, hv, hc, hk]

/-- Settles O24: a step leaves the three fields or writes them through set_verdict, after which they fit. -/
theorem exceptionFieldsFollowVerdict : Obligations.ExceptionFieldsFollowVerdict := by
  refine ⟨(exceptionFieldsFit_iff _).1 inv_reset.exception_fields, fun s t hs h => (exceptionFieldsFit_iff t).1 ?_,
    fun s t h => ?_, fun s v code => ⟨fun hv => State.setVerdict_of_ne hv code s, ?_⟩⟩
  · rcases step_verdict_cases h with hv | ⟨v, code, hv⟩
    · exact (exceptionFieldsFit_congr hv).2 ((exceptionFieldsFit_iff s).2 hs)
    · exact (exceptionFieldsFit_congr hv).2 (exceptionFieldsFit_setVerdict v code s)
  · simpa only [State.verdictFields_eq_iff] using step_verdict_cases h
  · rw [State.setVerdict_exception, isKnownCode_eq]

/-- Settles O17: reads and writes by the slot of the entry, and a change of REGDATA by cases on the step. -/
theorem regdataIsReadOnlyEntries : Obligations.RegdataIsReadOnlyEntries := by
  refine ⟨fun s rest j hj => ⟨fun v hv => ?_, fun hn => ?_, fun w => step_write (slot := .regdata j) rest w hj⟩,
    fun s t h hne => ?_⟩
  · rw [BitVec.ofNat_toNat]
    exact step_read (slot := .regdata j) rest hj (by rw [readSlot, readEntry_eq_ok.2 hv])
  · exact step_read_fault (slot := .regdata j) rest hj (by rw [readSlot, readEntry_eq_error.2 ⟨rfl, hn⟩])
  · rcases step_next_cases h with ⟨_, rfl⟩ | ⟨rest, hb, _⟩ | ⟨a, rest, hb, ha⟩
    · exact absurd rfl hne
    · exact .inl ⟨rest, hb⟩
    · rcases access_regdata_cases ha with hr | ⟨rfl, regs, hl, hr⟩
      · exact absurd hr hne
      · have hn : regs.length = s.regCount.toNat := hl
        refine .inr ⟨rest, hb, fun j hj => ?_, fun j hj => ?_⟩
        · rw [hr, Store.read_writeRun, if_pos (by omega)]
          simp [hn, hj]
        · rw [hr]
          exact Store.read_writeRun_outside (.inr (by omega)) _

/-- The commands that use SADDR fail with E_ADDR exactly while it is above 247 (R27). -/
theorem exec_eAddr_iff {i : Instr} (hi : i = .frameBuild ∨ i = .frameParse ∨ i = .encRead ∨ i = .encWrite) (s : State) :
    (∃ t, exec i s = .next t ∧ t.err = .eAddr) ↔ 247 < s.saddr.toNat := by
  rcases hi with rfl | rfl | rfl | rfl
  · rcases exec_frameBuild_cases s with ⟨ha, hx⟩ | ⟨ha, _, hx⟩ | ⟨ha, _, _, hx⟩
    · simp [hx, ha]
    · simp [hx, ha]
    · rcases buildAdu_cases s.wpduLen.toNat s with ⟨_, _, _, hb⟩ | ⟨_, _, _, _, hb⟩ <;> simp [hx, hb, ha, built]
  · rcases exec_frameParse_cases s with ⟨ha, hx⟩ | ⟨ha, _, hx⟩ | ⟨ha, _, _, _, ⟨_, _, _, hx⟩ | ⟨_, _, _, hx⟩⟩ <;>
    simp [hx, ha]
  · rcases exec_encRead_cases s with ⟨ha, hx⟩ | ⟨ha, _, hx⟩ | ⟨ha, _, _, _, hx⟩ | ⟨ha, _, _, _, hx⟩ <;>
    simp [hx, ha, encoded, built]
  · rcases exec_encWrite_cases s with ⟨ha, hx⟩ | ⟨ha, hx⟩ <;> simp [hx, ha, encoded, built]

/-- Settles O28: by cases on the outcomes of each of the four commands. -/
theorem serverAddressRange : Obligations.ServerAddressRange := by
  refine ⟨fun s rest w => ⟨_, step_write (slot := .saddr) rest w trivial, ?_⟩, fun i s hi => exec_eAddr_iff hi s⟩
  exact BitVec.setWidth_eq_extractLsb' (x := w) (w := 8) (by omega)

end

end Sys2Proof.Machine
end

section
/-! PROOF. The bus of the block (spec/20_memory.md R61 to R71): the order of accesses, bus errors, the lanes of the buffers,
and repeated reads. -/

namespace Sys2Proof.Machine

/-! ### Accesses in order (spec/20_memory.md R66, R68) -/

/-- An access leaves what waits behind it. -/
theorem access_keeps_bus {a : Access} {s t : State} (h : access a s = .next t) : t.bus = s.bus := by
  have hb : access a s = onNext (fun u => { u with bus := s.bus }) (access a s) := access_onBus a s s.bus
  rw [h, onNext_next, Host.Outcome.next.injEq] at hb
  exact (congrArg State.bus hb :)

theorem State.load_nil (s : State) : s.load [] = s := by
  rw [State.load, List.map_nil, List.append_nil]

/-- On an empty bus, what waits after a load is the program. -/
theorem State.load_of_idle {s : State} (h : s.bus = []) (program : List Access) :
    s.load program = { s with bus := program.map .access } := by
  rw [State.load, h, List.nil_append]

/-- The step that takes the first access of a program leaves the rest of it waiting. -/
theorem step_load_cons {s : State} (h : s.bus = []) (a : Access) (program : List Access) :
    step (s.load (a :: program)) = onNext (State.load program) (access a s) := by
  rw [State.load_of_idle h]
  refine (access_onBus a s (program.map .access)).trans ?_
  cases ha : access a s with
  | next t => exact congrArg Host.Outcome.next (State.load_of_idle ((access_keeps_bus ha).trans h) program).symm
  | fault f => rfl
  | refused r => rfl

section
variable {M : Host.Core} {s t : M.State}

theorem run_succ_of_next (h : M.step s = .next t) (k : Nat) : M.run (k + 1) s = M.run k t := by
  simp only [Host.Core.run, h]

theorem run_succ_of_fault {f : M.Fault} (h : M.step s = .fault f) (k : Nat) : M.run (k + 1) s = .fault f := by
  simp only [Host.Core.run, h]

theorem run_succ_of_refused {r : M.Refusal} (h : M.step s = .refused r) (k : Nat) : M.run (k + 1) s = .refused r := by
  simp only [Host.Core.run, h]

end

/-- Settles O9: by induction on the program: each step takes its first access, which leaves the rest waiting. -/
theorem stepsTakeAccessesInOrder : Obligations.StepsTakeAccessesInOrder := by
  intro program
  induction program with
  | nil => exact fun s _ => congrArg Host.Outcome.next (State.load_nil s)
  | cons a program ih =>
    intro s h
    have hstep := step_load_cons h a program
    rw [accesses]
    cases ha : access a s with
    | next t =>
      rw [ha] at hstep
      exact (run_succ_of_next (M := core) hstep _).trans (ih t ((access_keeps_bus ha).trans h))
    | fault f =>
      rw [ha] at hstep
      exact run_succ_of_fault (M := core) hstep _
    | refused r =>
      rw [ha] at hstep
      exact run_succ_of_refused (M := core) hstep _

/-! ### Bus errors (spec/20_memory.md R63) -/

/-- A command ends in a next state, or stops at an unwritten byte of a buffer (R182). -/
theorem exec_outcomes (i : Instr) (s : State) :
    (∃ t, exec i s = .next t) ∨
    ∃ j, (exec i s = .fault (.unwritten .tx j) ∧ Store.read j s.txbuf = none) ∨
      (exec i s = .fault (.unwritten .rx j) ∧ Store.read j s.rxbuf = none) := by
  cases i with
  | nop => exact .inl ⟨_, exec_nop s⟩
  | crcInit => exact .inl ⟨_, exec_crcInit s⟩
  | crcByte b => exact .inl ⟨_, exec_crcByte b s⟩
  | crcTx n =>
    rcases exec_crcTx_cases n s with ⟨_, hx⟩ | ⟨_, _, _, _, hx⟩ | ⟨_, j, _, hj, hx⟩
    · exact .inl ⟨_, hx⟩
    · exact .inl ⟨_, hx⟩
    · exact .inr ⟨j, .inl ⟨hx, hj⟩⟩
  | crcRx n =>
    rcases exec_crcRx_cases n s with ⟨_, hx⟩ | ⟨_, _, _, _, hx⟩ | ⟨_, j, _, hj, hx⟩
    · exact .inl ⟨_, hx⟩
    · exact .inl ⟨_, hx⟩
    · exact .inr ⟨j, .inr ⟨hx, hj⟩⟩
  | frameBuild =>
    rcases exec_frameBuild_cases s with ⟨_, hx⟩ | ⟨_, _, hx⟩ | ⟨_, _, _, hx⟩
    · exact .inl ⟨_, hx⟩
    · exact .inl ⟨_, hx⟩
    · rcases buildAdu_cases s.wpduLen.toNat s with ⟨_, _, _, hb⟩ | ⟨j, _, _, hj, hb⟩
      · exact .inl ⟨_, hx.trans hb⟩
      · exact .inr ⟨j, .inl ⟨hx.trans hb, hj⟩⟩
  | frameParse =>
    rcases exec_frameParse_cases s with ⟨_, hx⟩ | ⟨_, _, hx⟩ | ⟨_, _, _, _, ⟨_, _, _, hx⟩ | ⟨j, _, hj, hx⟩⟩
    · exact .inl ⟨_, hx⟩
    · exact .inl ⟨_, hx⟩
    · exact .inl ⟨_, hx⟩
    · exact .inr ⟨j, .inr ⟨hx, hj⟩⟩
  | encRead =>
    rcases exec_encRead_cases s with ⟨_, hx⟩ | ⟨_, _, hx⟩ | ⟨_, _, _, _, hx⟩ | ⟨_, _, _, _, hx⟩ <;> exact .inl ⟨_, hx⟩
  | encWrite => rcases exec_encWrite_cases s with ⟨_, hx⟩ | ⟨_, hx⟩ <;> exact .inl ⟨_, hx⟩
  | decRead =>
    rcases exec_decRead_cases s with ⟨_, hx⟩ | ⟨_, _, hx⟩ | ⟨_, _, _, _, hx⟩ |
      ⟨_, _, _, _, ⟨hj, hx⟩ | ⟨_, _, _, hx⟩ | ⟨_, _, _, ⟨_, _, _, hx⟩ | ⟨j, _, _, hj, hx⟩⟩⟩
    · exact .inl ⟨_, hx⟩
    · exact .inl ⟨_, hx⟩
    · exact .inl ⟨_, hx⟩
    · exact .inr ⟨2, .inr ⟨hx, hj⟩⟩
    · exact .inl ⟨_, hx⟩
    · exact .inl ⟨_, hx⟩
    · exact .inr ⟨j, .inr ⟨hx, hj⟩⟩
  | decWrite =>
    rcases exec_decWrite_cases s with ⟨_, hx⟩ | ⟨_, _, hx⟩ | ⟨_, _, ⟨_, hx⟩ | ⟨_, hx⟩ | ⟨f, he, hx⟩⟩
    · exact .inl ⟨_, hx⟩
    · exact .inl ⟨_, hx⟩
    · exact .inl ⟨_, hx⟩
    · exact .inl ⟨_, hx⟩
    · obtain ⟨j, _, _, ⟨rfl, hj⟩ | ⟨rfl, hj⟩⟩ := echoes_error he
      · exact .inr ⟨j, .inr ⟨hx, hj⟩⟩
      · exact .inr ⟨j, .inl ⟨hx, hj⟩⟩

/-- Whatever word the host writes to CMD, no bus error comes of it. -/
theorem runCommand_ne_busError (w : Word) (s : State) : runCommand w s ≠ .fault .busError := by
  rcases runCommand_cases w s with ⟨i, _, hr⟩ | ⟨_, _, hr⟩
  · rcases exec_outcomes i s with ⟨_, hx⟩ | ⟨_, ⟨hx, _⟩ | ⟨hx, _⟩⟩ <;> simp [hr, hx]
  · simp [hr]

/-- The slots the host may read but not write (R63). -/
def Slot.readOnly : Slot → Prop
  | .status | .txCount | .regdata _ => True
  | _ => False

theorem writeSlot_eq_busError {slot : Slot} {w : Word} {s : State} :
    writeSlot slot w s = .fault .busError ↔ slot.readOnly := by
  cases slot
  case cmd => simpa [writeSlot, Slot.readOnly] using runCommand_ne_busError w s
  all_goals simp [writeSlot, Slot.readOnly]

/-- A read of a word of a buffer fails only with fault UNWRITTEN (R33). -/
theorem readLanes_error {b : Buffer} {m : Memory} {k : Nat} {f : Fault} (h : readLanes b m k = .error f) :
    ∃ i, f = .unwritten b i := by
  unfold readLanes at h
  split at h
  · rename_i g hg
    cases h
    obtain ⟨i, _, _, hi, _⟩ := readRun_eq_error.1 hg
    exact ⟨i, hi⟩
  · cases h

/-- A host read of a slot fails only with fault UNWRITTEN (R33). -/
theorem readSlot_error {slot : Slot} {s : State} {f : Fault} (h : readSlot slot s = .error f) :
    ∃ b i, f = .unwritten b i := by
  cases slot
  case tx k => exact ⟨.tx, readLanes_error h⟩
  case rx k => exact ⟨.rx, readLanes_error h⟩
  case regdata j =>
    cases he : readEntry .regdata s.regdata j with
    | error g =>
      simp only [readSlot, he, Except.error.injEq] at h
      exact ⟨.regdata, j, h ▸ (readEntry_eq_error.1 he).1⟩
    | ok v => simp [readSlot, he] at h
  all_goals cases h

/-- An access to a slot is a bus error exactly when it writes a slot that is only to be read. -/
theorem slotAccess_eq_busError {op : BusOp} {slot : Slot} {s : State} :
    slotAccess op slot s = .fault .busError ↔ (∃ w, op = .write w) ∧ slot.readOnly := by
  cases op with
  | read =>
    cases hr : readSlot slot s with
    | error f =>
      obtain ⟨b, i, rfl⟩ := readSlot_error hr
      simp [slotAccess, hr]
    | ok w => simp [slotAccess, hr]
  | write w => simp [slotAccess, writeSlot_eq_busError]

/-- The offsets of the slots that are only to be read, among the offsets that address a slot (R20). -/
theorem readOnly_of_slotAt {off : Offset} {slot : Slot} (h : slotAt off = some slot) :
    slot.readOnly ↔ off.toNat = 0x004 ∨ off.toNat = 0x018 ∨ (0x400 ≤ off.toNat ∧ off.toNat ≤ 0x5F3) := by
  obtain ⟨hm, ho⟩ := slotAt_eq_some.1 h
  rw [ho]
  cases slot <;> simp [Slot.inMap, Slot.offset, Slot.readOnly] at hm ⊢ <;> omega

/-- Settles O10: an access is a bus error for its width, for an offset with no slot, or as a write of a read-only slot. -/
theorem busErrorExactlyWhenNotAdmitted : Obligations.BusErrorExactlyWhenNotAdmitted := by
  intro a s rest
  have hoff : a.off.toNat < 0x1000 := a.off.isLt
  simp only [step_facing, access]
  by_cases hbits : a.bits = 32
  · rw [if_pos hbits]
    cases hs : slotAt a.off with
    | none =>
      have hreserved := slotAt_eq_none.1 hs
      simp only [true_iff]
      omega
    | some slot =>
      have hadmitted := (slotAt_eq_none (off := a.off)).not.1 (by simp [hs])
      rw [slotAccess_eq_busError, readOnly_of_slotAt hs]
      by_cases hw : ∃ w, a.op = .write w
      · simp only [hw, true_and]
        omega
      · simp only [hw, false_and, or_false, false_iff]
        omega
  · simp [hbits]

/-! ### The lanes of the buffers (spec/20_memory.md R61) -/

/-- Word k of a buffer holds the lanes just written to it. -/
theorem holds_writeLanes (k : Nat) (w : Word) (m : Memory) : Store.Holds (4 * k) (laneBytes w) (writeLanes k w m) :=
  Store.holds_writeRun (4 * k) (laneBytes w) m

/-- A write of word k of a buffer leaves every byte of the other words. -/
theorem read_writeLanes_outside {j k : Nat} (h : j < 4 * k ∨ 4 * k + 4 ≤ j) (w : Word) (m : Memory) :
    Store.read j (writeLanes k w m) = Store.read j m :=
  Store.read_writeRun_outside h m

/-- A word with an unwritten byte is not read (R33). -/
theorem readLanes_stops (b : Buffer) {m : Memory} {k : Nat}
    (h : ∃ i, 4 * k ≤ i ∧ i < 4 * k + 4 ∧ Store.read i m = none) : ∃ i, readLanes b m k = .error (.unwritten b i) := by
  obtain ⟨i, h₁, h₂, hi⟩ := h
  obtain ⟨j, _, _, _, hj⟩ := readRun_stops (b := b) h₁ h₂ hi
  exact ⟨j, by rw [readLanes, hj]⟩

/-- Settles O15: by the slot of word k, from what its lanes read and write in the buffer. -/
theorem bufferWordsUseLittleEndianLanes : Obligations.BufferWordsUseLittleEndianLanes := by
  intro s rest k hk
  refine ⟨fun w => ?_, fun w => ?_, fun b0 b1 b2 b3 hh => ?_, fun b0 b1 b2 b3 hh => ?_, fun hn => ?_, fun hn => ?_⟩
  · exact ⟨_, step_write (slot := .tx k) rest w hk, holds_writeLanes k w s.txbuf,
      fun j hj => read_writeLanes_outside hj w s.txbuf, rfl⟩
  · exact ⟨_, step_write (slot := .rx k) rest w hk, holds_writeLanes k w s.rxbuf,
      fun j hj => read_writeLanes_outside hj w s.rxbuf, rfl⟩
  · exact step_read (slot := .tx k) rest hk (readLanes_of_holds hh)
  · exact step_read (slot := .rx k) rest hk (readLanes_of_holds hh)
  · obtain ⟨i, hi⟩ := readLanes_stops .tx hn
    exact ⟨i, step_read_fault (slot := .tx k) rest hk hi⟩
  · obtain ⟨i, hi⟩ := readLanes_stops .rx hn
    exact ⟨i, step_read_fault (slot := .rx k) rest hk hi⟩

/-- The lanes of a word read back from a buffer are the word. -/
theorem readLanes_writeLanes (b : Buffer) (k : Nat) (w : Word) (m : Memory) :
    readLanes b (writeLanes k w m) k = .ok w := by
  rw [readLanes_of_holds (holds_writeLanes k w m), lanes_append]

/-- A word written to a slot that keeps all of it is what the next read of the slot returns (R71). -/
theorem step_read_of_step_write {slot : Slot} {s t : State} {w : Word} {rest : List Input} (rest' : List Input)
    (h : slot.inMap) (keeps : ∀ u v, writeSlot slot w u = .next v → readSlot slot v = .ok w)
    (hw : step (s.facing ⟨32, BitVec.ofNat 12 slot.offset, .write w⟩ rest) = .next t) :
    step (t.facing ⟨32, BitVec.ofNat 12 slot.offset, .read⟩ rest') = .next { t with bus := rest', reply := .data w } :=
  step_read rest' h (keeps _ t ((step_write rest w h).symm.trans hw))

/-- Settles O16: the lanes of the word, put together again, are the word. -/
theorem bufferReadAfterWrite : Obligations.BufferReadAfterWrite := by
  rintro s t rest rest' k base w hk (rfl | rfl) hw
  · refine step_read_of_step_write (slot := .tx k) rest' hk (fun u v hv => ?_) hw
    cases hv
    exact readLanes_writeLanes .tx k w u.txbuf
  · refine step_read_of_step_write (slot := .rx k) rest' hk (fun u v hv => ?_) hw
    cases hv
    exact readLanes_writeLanes .rx k w u.rxbuf

/-! ### Repeated reads (spec/20_memory.md R65) -/

/-- A read that completes found a slot with a word in it, and wrote only the reply. -/
theorem access_read_eq_next {a : Access} {s t : State} (hop : a.op = .read) :
    access a s = .next t ↔
      ∃ slot w, a.bits = 32 ∧ slotAt a.off = some slot ∧ readSlot slot s = .ok w ∧ t = s.setReply (.data w) := by
  constructor
  · intro h
    obtain ⟨slot, hbits, hslot, ⟨_, w, hr, ht⟩ | ⟨w, hw, _⟩ | ⟨w, hw, _⟩⟩ := access_next_cases h
    · exact ⟨slot, w, hbits, hslot, hr, ht⟩
    · cases hop.symm.trans hw
    · cases hop.symm.trans hw
  · rintro ⟨slot, w, hbits, hslot, hr, rfl⟩
    simp [access, hbits, hslot, hop, slotAccess, hr]

/-- Settles O19: the first read leaves every field that the word is made of. -/
theorem repeatedReadsAgree : Obligations.RepeatedReadsAgree := by
  intro a s t rest rest' hop h
  obtain ⟨slot, w, hbits, hslot, hr, rfl⟩ := (access_read_eq_next hop).1 h
  refine ⟨w, rfl, (access_read_eq_next hop).2 ⟨slot, w, hbits, hslot, ?_, rfl⟩⟩
  exact (readSlot_congr slot { s with bus := rest } rest' (.data w)).trans hr

end Sys2Proof.Machine
end

section
/-! PROOF. Command words (spec/30_encoding.md R80 to R85, R91): the operand fields of a word, the row a word selects, and
the two directions of decoding and encoding. -/

namespace Sys2Proof.Machine

/-! ### The fields of a command word (spec/30_encoding.md R81, R82) -/

/-- A word is what stands outside a field together with the field, put back in its place. -/
theorem outside_or_fieldAt (w : Word) (lo n : Nat) :
    w &&& ~~~fieldAt lo (BitVec.allOnes n) ||| fieldAt lo (w.extractLsb' lo n) = w := by
  apply BitVec.eq_of_getLsbD_eq
  intro i hi
  simp only [BitVec.getLsbD_or, BitVec.getLsbD_and, BitVec.getLsbD_not, getLsbD_fieldAt, BitVec.getLsbD_allOnes,
    BitVec.getLsbD_extractLsb']
  by_cases hlo : lo ≤ i
  · by_cases hn : i - lo < n
    · simp [hi, hlo, hn]
    · simp [hi, hn]
  · simp [hi, hlo]

/-- A byte operand stands in ARG8, beside OP. -/
theorem wordFB_eq (op b : Byte) : wordFB op b = fieldAt 0 op ||| fieldAt 8 b := by
  simp [wordFB, fieldAt]

/-- A byte count of at most 511 stands in LEN9, beside OP. -/
theorem wordFL_eq (op : Byte) {len : Nat} (h : len ≤ 511) :
    wordFL op len = fieldAt 0 op ||| fieldAt 16 (BitVec.ofNat 9 len) := by
  have hlen : (BitVec.ofNat 9 len).setWidth 32 = BitVec.ofNat 32 len := by
    rw [← BitVec.ofNat_toNat, BitVec.toNat_ofNat, Nat.mod_eq_of_lt (by omega)]
  simp [wordFL, fieldAt, hlen]

theorem arg8_wordFB (op b : Byte) : arg8 (wordFB op b) = b := by
  rw [arg8, wordFB_eq, BitVec.extractLsb'_or, extractLsb'_fieldAt_beside (by omega), extractLsb'_fieldAt_self (by omega),
    BitVec.zero_or]

theorem len9_wordFL (op : Byte) {len : Nat} (h : len ≤ 511) : len9 (wordFL op len) = len := by
  rw [len9, wordFL_eq op h, BitVec.extractLsb'_or, extractLsb'_fieldAt_beside (by omega),
    extractLsb'_fieldAt_self (by omega), BitVec.zero_or, BitVec.toNat_ofNat, Nat.mod_eq_of_lt (by omega)]

theorem len9_le (w : Word) : len9 w ≤ 511 := Nat.le_of_lt_succ (BitVec.isLt _)

/-- A word with OP alone outside ARG8 is the word of its ARG8. -/
theorem wordFB_arg8 {op : Byte} {w : Word} (h : w &&& 0xFFFF00FF = op.setWidth 32) : wordFB op (arg8 w) = w := by
  rw [wordFB, ← h]
  exact outside_or_fieldAt w 8 8

/-- A word with OP alone outside LEN9 is the word of its LEN9. -/
theorem wordFL_len9 {op : Byte} {w : Word} (h : w &&& 0xFE00FFFF = op.setWidth 32) : wordFL op (len9 w) = w := by
  rw [wordFL, ← h, len9, BitVec.ofNat_toNat]
  exact outside_or_fieldAt w 16 9

/-! ### The row a word selects (spec/30_encoding.md R83, R85) -/

theorem matchValues_nodup : (opcodeMap.map fun r => r.matchWord.extractLsb' 0 8).Nodup := by decide

theorem mask_covers_op : ∀ r ∈ opcodeMap, r.mask.extractLsb' 0 8 = 0xFF := by
  simp only [opcodeMap]
  decide

/-- The row a word selects has the word's own OP, because its mask covers OP. -/
theorem matchOp_of_selects {r : OpcodeRow} {w : Word} (hr : r ∈ opcodeMap) (hs : r.selects w = true) :
    r.matchWord.extractLsb' 0 8 = w.extractLsb' 0 8 := by
  rw [OpcodeRow.selects, beq_iff_eq] at hs
  rw [← hs, BitVec.extractLsb'_and, mask_covers_op r hr]
  exact BitVec.and_allOnes

/-- A word selects at most one row, because the match values differ in OP. -/
theorem row_unique {r r' : OpcodeRow} {w : Word} (hr : r ∈ opcodeMap) (hr' : r' ∈ opcodeMap) (hs : r.selects w = true)
    (hs' : r'.selects w = true) : r = r' :=
  List.inj_on_of_nodup_map matchValues_nodup hr hr' ((matchOp_of_selects hr hs).trans (matchOp_of_selects hr' hs').symm)

/-- At most one row is left when the map is filtered by a word: the rows that are left have one OP. -/
theorem selected_length_le_one (w : Word) : (opcodeMap.filter (·.selects w)).length ≤ 1 := by
  have hops : (opcodeMap.filter (·.selects w)).map (fun r => r.matchWord.extractLsb' 0 8) =
      List.replicate (opcodeMap.filter (·.selects w)).length (w.extractLsb' 0 8) := by
    rw [List.map_eq_replicate_iff]
    intro r hr
    obtain ⟨hmem, hs⟩ := List.mem_filter.1 hr
    exact matchOp_of_selects hmem hs
  rw [← List.nodup_replicate (a := w.extractLsb' 0 8), ← hops]
  exact matchValues_nodup.sublist (List.filter_sublist.map _)

/-- A row that a word selects gives its command. -/
theorem decode_of_selects {r : OpcodeRow} {w : Word} (hr : r ∈ opcodeMap) (hs : r.selects w = true) :
    decode w = .ok (r.instr w) := by
  unfold decode
  cases hf : opcodeMap.find? (·.selects w) with
  | none => exact absurd hs (List.find?_eq_none.1 hf r hr)
  | some r' => rw [row_unique hr (List.mem_of_find?_eq_some hf) hs (List.find?_some hf :)]

/-- A word that selects no row is illegal. -/
theorem decode_of_no_row {w : Word} (h : ∀ r ∈ opcodeMap, r.selects w = false) : decode w = .error (illegalWord w) := by
  have hf : opcodeMap.find? (·.selects w) = none := List.find?_eq_none.2 fun r hr => by simp [h r hr]
  rw [decode, hf]

/-- The command of the row a word selects has that word, and its operand fits. -/
theorem encode_instr_of_selects {r : OpcodeRow} {w : Word} (hr : r ∈ opcodeMap) (hs : r.selects w = true) :
    encode (r.instr w) = w ∧ (r.instr w).wellFormed = true := by
  rw [OpcodeRow.selects, beq_iff_eq] at hs
  have noOperand : r.mask = BitVec.allOnes 32 → r.matchWord = w := fun hm => by rw [← hs, hm, BitVec.and_allOnes]
  simp only [opcodeMap, List.mem_cons, List.not_mem_nil, or_false] at hr
  rcases hr with rfl | rfl | rfl | rfl | rfl | rfl | rfl | rfl | rfl | rfl | rfl
  exacts [⟨noOperand rfl, rfl⟩, ⟨noOperand rfl, rfl⟩, ⟨wordFB_arg8 hs, rfl⟩,
    ⟨wordFL_len9 hs, decide_eq_true (len9_le w)⟩, ⟨wordFL_len9 hs, decide_eq_true (len9_le w)⟩,
    ⟨noOperand rfl, rfl⟩, ⟨noOperand rfl, rfl⟩, ⟨noOperand rfl, rfl⟩, ⟨noOperand rfl, rfl⟩, ⟨noOperand rfl, rfl⟩,
    ⟨noOperand rfl, rfl⟩]

/-! ### The two directions (spec/30_encoding.md R80 to R85, R91) -/

/-- Settles O1: the word of a command with an operand selects its row, which reads the operand back from its field; the
word of a command with none is a literal. -/
theorem decodeOfEncode : Obligations.DecodeOfEncode := by
  intro i hi
  cases i with
  | crcByte b =>
    have hs : opcodeMap[2].selects (encode (.crcByte b)) = true := beq_iff_eq.2 (Laws.EncodesItsRow.wordFB_masked 0x02 b)
    exact (decode_of_selects (List.getElem_mem _) hs).trans (congrArg (Except.ok ∘ Instr.crcByte) (arg8_wordFB 0x02 b))
  | crcTx len =>
    have hlen : len ≤ 511 := of_decide_eq_true hi
    have hs : opcodeMap[3].selects (encode (.crcTx len)) = true := beq_iff_eq.2 (Laws.EncodesItsRow.wordFL_masked 0x03 hlen)
    exact (decode_of_selects (List.getElem_mem _) hs).trans (congrArg (Except.ok ∘ Instr.crcTx) (len9_wordFL 0x03 hlen))
  | crcRx len =>
    have hlen : len ≤ 511 := of_decide_eq_true hi
    have hs : opcodeMap[4].selects (encode (.crcRx len)) = true := beq_iff_eq.2 (Laws.EncodesItsRow.wordFL_masked 0x04 hlen)
    exact (decode_of_selects (List.getElem_mem _) hs).trans (congrArg (Except.ok ∘ Instr.crcRx) (len9_wordFL 0x04 hlen))
  | _ => rfl

/-- Settles O2: the row that gave the command determines every bit of the word. -/
theorem encodeOfDecode : Obligations.EncodeOfDecode := by
  intro w i h
  obtain ⟨r, hr, hs, rfl⟩ := decode_ok_row h
  exact encode_instr_of_selects hr hs

/-- Settles O3: OP tells the rows apart, so the first row that a word selects is the only one. -/
theorem decodingIsTotalAndUnambiguous : Obligations.DecodingIsTotalAndUnambiguous :=
  ⟨matchValues_nodup, mask_covers_op, fun w =>
    ⟨selected_length_le_one w, fun _ hr hs => decode_of_selects hr hs, fun h => ⟨_, decode_of_no_row h⟩⟩⟩

/-! ### Illegal words (spec/30_encoding.md R84) -/

/-- What R81 and R83 require of the fields of a command word: OP is listed, w[31:25] is 0, and ARG8 and LEN9 are 0 unless
the format of OP has them. -/
def FieldsLegal (w : Word) : Prop :=
  w.extractLsb' 0 8 ∈ ([0x00, 0x01, 0x02, 0x03, 0x04, 0x10, 0x11, 0x20, 0x21, 0x22, 0x23] : List Byte) ∧
  w.extractLsb' 25 7 = 0 ∧
  (w.extractLsb' 0 8 = 0x02 ∨ w.extractLsb' 8 8 = 0) ∧
  (w.extractLsb' 0 8 = 0x03 ∨ w.extractLsb' 0 8 = 0x04 ∨ w.extractLsb' 16 9 = 0)

theorem fieldsLegal_wordFB (b : Byte) : FieldsLegal (wordFB 0x02 b) := by
  rw [wordFB_eq]
  simp (disch := omega) [FieldsLegal, BitVec.extractLsb'_or, extractLsb'_fieldAt_self, extractLsb'_fieldAt_beside]

theorem fieldsLegal_wordFL {op : Byte} (hop : op = 0x03 ∨ op = 0x04) {len : Nat} (h : len ≤ 511) :
    FieldsLegal (wordFL op len) := by
  rw [wordFL_eq op h]
  rcases hop with rfl | rfl <;>
    simp (disch := omega) [FieldsLegal, BitVec.extractLsb'_or, extractLsb'_fieldAt_self, extractLsb'_fieldAt_beside]

theorem fieldsLegal_encode {i : Instr} (hi : i.wellFormed = true) : FieldsLegal (encode i) := by
  cases i with
  | crcByte b => exact fieldsLegal_wordFB b
  | crcTx len => exact fieldsLegal_wordFL (.inl rfl) (of_decide_eq_true hi)
  | crcRx len => exact fieldsLegal_wordFL (.inr rfl) (of_decide_eq_true hi)
  | _ => unfold FieldsLegal; decide

/-- A word that selects a row is the word of a command, so its fields are legal. -/
theorem fieldsLegal_of_selects {r : OpcodeRow} {w : Word} (hr : r ∈ opcodeMap) (hs : r.selects w = true) :
    FieldsLegal w := by
  obtain ⟨henc, hwf⟩ := encode_instr_of_selects hr hs
  exact henc ▸ fieldsLegal_encode hwf

/-- The step that takes a CMD write of an illegal word writes E_OPCODE to ERR, and nothing else of the block. -/
theorem step_cmd_of_no_row {w : Word} (h : ∀ r ∈ opcodeMap, r.selects w = false) (s : State) (rest : List Input) :
    step (s.facing ⟨32, 0x000, .write w⟩ rest) = .next { s with bus := rest, reply := .done, err := .eOpcode } := by
  refine (step_write (slot := .cmd) rest w trivial).trans ?_
  rw [writeSlot, runCommand, decode_of_no_row h]
  rfl

/-- Settles O5: the fields of a word that selects a row are legal, and a word that selects none does not decode. -/
theorem illegalWordOnlyWritesErr : Obligations.IllegalWordOnlyWritesErr := by
  refine fun w => ⟨fun hill r hr => Bool.eq_false_iff.2 fun hs => ?_, step_cmd_of_no_row⟩
  obtain ⟨hop, htop, harg, hlen⟩ := fieldsLegal_of_selects hr hs
  rcases hill with h | h | ⟨h, h'⟩ | ⟨h, h', h''⟩
  · exact h hop
  · exact h htop
  · exact harg.elim h h'
  · exact hlen.elim h (·.elim h' h'')

/-- Settles O4: each word is the encoding of its command. -/
theorem commandWordsDecode : Obligations.CommandWordsDecode :=
  ⟨decodeOfEncode .nop rfl, decodeOfEncode .crcInit rfl, decodeOfEncode (.crcByte 0x5A) rfl, decodeOfEncode (.crcTx 6) rfl,
    decodeOfEncode (.crcTx 511) rfl, decodeOfEncode (.crcRx 5) rfl, decodeOfEncode .frameBuild rfl,
    decodeOfEncode .frameParse rfl, decodeOfEncode .encRead rfl, decodeOfEncode .encWrite rfl, decodeOfEncode .decRead rfl,
    decodeOfEncode .decWrite rfl⟩

end Sys2Proof.Machine
end

section
/-! PROOF. The CRC function (spec/40_crc.md R100, R101, R108 to R110) and the commands of the CRC16 Engine
(R102 to R106). -/

namespace Sys2Proof.Machine

/-! ### The CRC function as an iteration (spec/40_crc.md R100) -/

theorem crcShifts_eq_iterate (k : Nat) (c : Half) : crcShifts k c = crcShift^[k] c := by
  induction k generalizing c with
  | zero => rfl
  | succ k ih => exact ih (crcShift c)

theorem crcUpdate_eq_iterate (c : Half) (b : Byte) : crcUpdate c b = crcShift^[8] (c ^^^ b.setWidth 16) :=
  crcShifts_eq_iterate 8 _

/-! ### The reflected form (spec/40_crc.md R108) -/

theorem reverse_xor {w : Nat} (x y : BitVec w) : (x ^^^ y).reverse = x.reverse ^^^ y.reverse := by
  apply BitVec.eq_of_getLsbD_eq
  intro i hi
  simp only [BitVec.getLsbD_reverse, BitVec.getLsbD_xor, BitVec.getMsbD_xor]

theorem reverse_shiftLeft {w : Nat} (x : BitVec w) (n : Nat) : (x <<< n).reverse = x.reverse >>> n := by
  apply BitVec.eq_of_getLsbD_eq
  intro i hi
  simp only [BitVec.getLsbD_reverse, BitVec.getLsbD_ushiftRight, BitVec.getMsbD_shiftLeft, Nat.add_comm n i]

/-- One step of the division by 0x8005, high bit first: the mirror image of one iteration of R100. -/
def divShift (c : Half) : Half := if c.getMsbD 0 then c <<< 1 ^^^ 0x8005 else c <<< 1

/-- A byte fed to the division by 0x8005, bit-reversed: the mirror image of `crcUpdate`. -/
def divUpdate (c : Half) (b : Byte) : Half := divShift^[8] (c ^^^ b.reverse.setWidth 16 <<< 8)

theorem crcShift_reverse : Function.Semiconj BitVec.reverse divShift crcShift := by
  intro c
  have hpoly : (0x8005 : Half).reverse = crcPoly := by decide
  rw [divShift, crcShift, BitVec.getLsbD_reverse]
  cases c.getMsbD 0 with
  | true => rw [if_pos rfl, if_pos rfl, reverse_xor, reverse_shiftLeft, hpoly]
  | false => exact reverse_shiftLeft c 1

/-- A reversed byte that enters at the high end enters at the low end in its own order, once all is reversed. -/
theorem reverse_byte_at_top (b : Byte) : (b.reverse.setWidth 16 <<< 8).reverse = b.setWidth 16 := by
  rw [reverse_shiftLeft]
  apply BitVec.eq_of_getLsbD_eq
  intro i hi
  simp only [BitVec.getLsbD_ushiftRight, BitVec.getLsbD_reverse, BitVec.getMsbD_setWidth, BitVec.getMsbD_reverse,
    BitVec.getLsbD_setWidth]
  simp [hi]

theorem crcUpdate_reverse (c : Half) (b : Byte) : crcUpdate c.reverse b = (divUpdate c b).reverse := by
  rw [crcUpdate_eq_iterate, divUpdate, (crcShift_reverse.iterate_right 8).eq, reverse_xor, reverse_byte_at_top]

theorem crc16_eq_reverse_division (bytes : List Byte) : crc16 bytes = (bytes.foldl divUpdate 0xFFFF).reverse :=
  List.foldl_hom (init := 0xFFFF) BitVec.reverse crcUpdate_reverse

/-- Settles O36: reversing the bits turns each step of the one division into a step of the other. -/
theorem crcEqualsUnreflectedDivision : Obligations.CrcEqualsUnreflectedDivision :=
  ⟨crc16_eq_reverse_division, by decide +kernel⟩

/-! ### The residue (spec/40_crc.md R109) -/

/-- Iterations that shift out only zeros are a plain shift. -/
theorem crcShifts_of_low_zeros {k : Nat} {c : Half} (h : ∀ i < k, c.getLsbD i = false) : crcShifts k c = c >>> k := by
  induction k generalizing c with
  | zero => rfl
  | succ k ih =>
    have hshift : crcShift c = c >>> 1 := by
      rw [crcShift, h 0 (Nat.succ_pos k)]
      rfl
    have hlow : ∀ i < k, (c >>> 1).getLsbD i = false := fun i hi => by simpa [Nat.add_comm] using h (i + 1) (by omega)
    rw [crcShifts, hshift, ih hlow, ← BitVec.shiftRight_add, Nat.add_comm]

/-- Feeding a CRC its own low byte clears that byte, so the iterations move its high byte down. -/
theorem crcUpdate_lowByte (k : Half) : crcUpdate k (lowByte k) = (highByte k).setWidth 16 := by
  have hlow : ∀ i < 8, (k ^^^ (lowByte k).setWidth 16).getLsbD i = false := fun i hi => by simp [lowByte, hi]; omega
  rw [crcUpdate, crcShifts_of_low_zeros hlow]
  apply BitVec.eq_of_getLsbD_eq
  intro i hi
  rcases Nat.lt_or_ge i 8 with h8 | h8
  · simp [lowByte, highByte, hi, h8]
  · simp [lowByte, highByte, h8, BitVec.getLsbD_of_ge k (8 + i) (by omega)]

theorem crcUpdate_self (b : Byte) : crcUpdate (b.setWidth 16) b = 0 := by
  rw [crcUpdate, BitVec.xor_self]
  rfl

/-- Settles O37: the first CRC byte leaves the second one in the register, which then cancels it. -/
theorem crcResidueIsZero : Obligations.CrcResidueIsZero := by
  intro m
  calc crc16 (m ++ crcBytes (crc16 m))
    _ = crcFold (crc16 m) (crcBytes (crc16 m)) := crcFold_append _ _ _
    _ = crcUpdate (crcUpdate (crc16 m) (lowByte (crc16 m))) (highByte (crc16 m)) := rfl
    _ = 0 := by rw [crcUpdate_lowByte, crcUpdate_self]

/-! ### Words of the engine's commands (spec/30_encoding.md R81, R84) -/

/-- A word whose fields are not legal does `STATUS.ERR <- E_OPCODE` and nothing else. -/
theorem runCommand_of_illegal_fields {w : Word} (h : ¬ FieldsLegal w) (s : State) :
    runCommand w s = .next { s with err := .eOpcode } := by
  rcases runCommand_cases w s with ⟨i, hi, -⟩ | ⟨_, -, hrun⟩
  · obtain ⟨rfl, hwf⟩ := encodeOfDecode w i hi
    exact absurd (fieldsLegal_encode hwf) h
  · exact hrun

/-- Multiplying by a power of two places a number at that bit. -/
theorem ofNat_mul_two_pow (w n k : Nat) : BitVec.ofNat w (n * 2 ^ k) = BitVec.ofNat w n <<< k := by
  apply BitVec.eq_of_toNat_eq
  simp [Nat.shiftLeft_eq]

/-- The word of a byte operand, in the arithmetic of R103. -/
theorem wordFB_arith (op b : Byte) : op.setWidth 32 ||| BitVec.ofNat 32 (b.toNat * 256) = wordFB op b := by
  rw [wordFB, ← BitVec.ofNat_toNat 32 b]
  exact congrArg (op.setWidth 32 ||| ·) (ofNat_mul_two_pow 32 b.toNat 8)

/-- The word of a byte count, in the arithmetic of R104 and R105. -/
theorem wordFL_arith (op : Byte) (n : Nat) : op.setWidth 32 ||| BitVec.ofNat 32 (n * 0x10000) = wordFL op n :=
  congrArg (op.setWidth 32 ||| ·) (ofNat_mul_two_pow 32 n 16)

theorem decode_crcByte (b : Byte) : decode (0x00000002 ||| BitVec.ofNat 32 (b.toNat * 256)) = .ok (.crcByte b) :=
  (congrArg decode (wordFB_arith 0x02 b)).trans (decodeOfEncode (.crcByte b) rfl)

theorem decode_crcTx {n : Nat} (h : n ≤ 511) : decode (0x00000003 ||| BitVec.ofNat 32 (n * 0x10000)) = .ok (.crcTx n) :=
  (congrArg decode (wordFL_arith 0x03 n)).trans (decodeOfEncode (.crcTx n) (decide_eq_true h))

theorem decode_crcRx {n : Nat} (h : n ≤ 511) : decode (0x00000004 ||| BitVec.ofNat 32 (n * 0x10000)) = .ok (.crcRx n) :=
  (congrArg decode (wordFL_arith 0x04 n)).trans (decodeOfEncode (.crcRx n) (decide_eq_true h))

/-- The fields above ARG8 are 0 in a legal word with a byte operand. -/
theorem FieldsLegal.top_of_crcByte {w : Word} (h : FieldsLegal w) (hop : w.extractLsb' 0 8 = (0x02 : Byte)) :
    w.extractLsb' 16 16 = (0 : Half) := by
  obtain ⟨-, htop, -, hlen⟩ := h
  have hlen9 : w.extractLsb' 16 9 = 0 := by simpa [hop] using hlen
  calc w.extractLsb' 16 16
    _ = w.extractLsb' 25 7 ++ w.extractLsb' 16 9 :=
      (BitVec.extractLsb'_append_extractLsb'_eq_extractLsb' (len₂ := 7) (len₁ := 9) rfl).symm
    _ = 0 := by rw [htop, hlen9]; rfl

/-- The fields beside LEN9 are 0 in a legal word with a byte count. -/
theorem FieldsLegal.beside_len9 {w : Word} (h : FieldsLegal w) (hop : w.extractLsb' 0 8 ≠ (0x02 : Byte)) :
    w.extractLsb' 8 8 = (0 : Byte) ∧ w.extractLsb' 25 7 = (0 : BitVec 7) := by
  obtain ⟨-, htop, harg, -⟩ := h
  exact ⟨harg.resolve_left hop, htop⟩

/-- A word with a byte count is illegal when a field beside LEN9 is nonzero (R104, R105). -/
theorem runCommand_of_nonzero_beside_len9 {w : Word} (hop : w.extractLsb' 0 8 ≠ (0x02 : Byte))
    (h : w.extractLsb' 8 8 ≠ (0 : Byte) ∨ w.extractLsb' 25 7 ≠ (0 : BitVec 7)) (s : State) :
    runCommand w s = .next { s with err := .eOpcode } :=
  runCommand_of_illegal_fields (fun hlegal => not_and_or.2 h (hlegal.beside_len9 hop)) s

/-! ### The commands of the engine (spec/40_crc.md R102 to R106) -/

/-- Settles O29: its word is a literal, and all it does is complete. -/
theorem nopOnlyClearsErr : Obligations.NopOnlyClearsErr := ⟨decodeOfEncode .nop rfl, exec_nop⟩

/-- Settles O30: its word is a literal, and it loads the initial value. -/
theorem crcInitLoadsInitialValue : Obligations.CrcInitLoadsInitialValue := ⟨decodeOfEncode .crcInit rfl, exec_crcInit⟩

/-- Settles O31: w[31:16] is w[31:25] and LEN9, which are 0 in a legal word with this OP. -/
theorem crcByteFeedsOneByte : Obligations.CrcByteFeedsOneByte :=
  ⟨fun b s => ⟨decode_crcByte b, exec_crcByte b s⟩,
    fun _ s hop hne => runCommand_of_illegal_fields (fun hlegal => hne (hlegal.top_of_crcByte hop)) s,
    by decide, by decide, by decide⟩

theorem exec_crcTx (n : Nat) (s : State) : exec (.crcTx n) s = crcSpan n (readTx 0 n) s := rfl

theorem exec_crcRx (n : Nat) (s : State) : exec (.crcRx n) s = crcSpan n (readRx 0 n) s := rfl

section
variable {n : Nat} {bytes : State → Except Fault (List Byte)} {s : State} {b : Buffer} {m : Memory} {bs : List Byte}

theorem crcSpan_of_long (h : 256 < n) : crcSpan n bytes s = .next { s with err := .eRange } := if_pos h

theorem crcSpan_of_holds (hrun : bytes s = readRun b m 0 n) (h : n ≤ 256) (hl : bs.length = n)
    (hbs : Store.Holds 0 bs m) : crcSpan n bytes s = .next { s with crc := crcFold s.crc bs, err := .ok } := by
  rw [crcSpan, if_neg (Nat.not_lt.2 h), hrun, readRun_eq_ok.2 ⟨hl, hbs⟩]
  rfl

theorem crcSpan_of_unwritten (hrun : bytes s = readRun b m 0 n) (h : n ≤ 256) (hu : ∃ i < n, Store.read i m = none) :
    ∃ i < n, Store.read i m = none ∧ crcSpan n bytes s = .fault (.unwritten b i) := by
  obtain ⟨j, hj, hnone⟩ := hu
  obtain ⟨i, -, hi, hread, hstop⟩ := readRun_stops (b := b) (Nat.zero_le j) (by omega : j < 0 + n) hnone
  refine ⟨i, by omega, hread, ?_⟩
  rw [crcSpan, if_neg (Nat.not_lt.2 h), hrun, hstop]

end

/-- Settles O32: CRC_TX is the fold over the run of TXBUF. -/
theorem crcTxFoldsTransmitBuffer : Obligations.CrcTxFoldsTransmitBuffer := by
  refine ⟨fun _ hn => decode_crcTx hn, fun _ s hop h => ?_, by decide +kernel, fun n s => ?_⟩
  · exact runCommand_of_nonzero_beside_len9 (by rw [hop]; decide) h s
  · rw [exec_crcTx]
    exact ⟨crcSpan_of_long, fun _ => crcSpan_of_holds rfl, crcSpan_of_unwritten rfl⟩

/-- Settles O33: CRC_RX is the fold over the run of RXBUF. -/
theorem crcRxFoldsReceiveBuffer : Obligations.CrcRxFoldsReceiveBuffer := by
  refine ⟨fun _ hn => decode_crcRx hn, fun _ s hop h => ?_, by decide +kernel, fun n s => ?_⟩
  · exact runCommand_of_nonzero_beside_len9 (by rw [hop]; decide) h s
  · rw [exec_crcRx]
    exact ⟨crcSpan_of_long, fun _ => crcSpan_of_holds rfl, crcSpan_of_unwritten rfl⟩

/-! ### A CRC in pieces (spec/40_crc.md R110) -/

/-- A program goes on from the state its first command leaves. -/
theorem accesses_cmd {i : Instr} (hi : i.wellFormed = true) {s t : State} (h : exec i (s.setReply .done) = .next t)
    (rest : List Access) : accesses (cmd i :: rest) s = accesses rest t := by
  rw [accesses, access_cmd (decodeOfEncode i hi), h]

/-- CRC_INIT and CRC_TX leave the crc16 of the bytes of TXBUF in CRC, and leave RXBUF. -/
theorem accesses_crc16Tx {bytes : List Byte} (hl : bytes.length ≤ 256) {s : State} (h : Store.Holds 0 bytes s.txbuf)
    (rest : List Access) :
    ∃ t, accesses (crc16Tx bytes.length ++ rest) s = accesses rest t ∧ t.crc = crc16 bytes ∧ t.rxbuf = s.rxbuf := by
  let s₁ := ((s.setReply .done).setCrc crcInitial).setErr .ok
  have hfold : exec (.crcTx bytes.length) (s₁.setReply .done) =
      .next { s₁.setReply .done with crc := crc16 bytes, err := .ok } :=
    crcSpan_of_holds (b := .tx) rfl hl rfl h
  exact ⟨_, (accesses_cmd (i := .crcInit) rfl (exec_crcInit _) _).trans
    (accesses_cmd (i := .crcTx _) (decide_eq_true (by omega)) hfold rest), rfl, rfl⟩

/-- A row of CRC_BYTE folds its bytes into CRC and leaves RXBUF. -/
theorem accesses_crcBytes (bytes : List Byte) (s : State) (rest : List Access) :
    ∃ t, accesses (bytes.map (fun b => cmd (.crcByte b)) ++ rest) s = accesses rest t ∧ t.crc = crcFold s.crc bytes ∧
      t.rxbuf = s.rxbuf := by
  induction bytes generalizing s with
  | nil => exact ⟨s, rfl, rfl, rfl⟩
  | cons b bytes ih =>
    obtain ⟨t, hrun, hcrc, hrx⟩ := ih (((s.setReply .done).setCrc (crcUpdate s.crc b)).setErr .ok)
    exact ⟨t, (accesses_cmd (i := .crcByte b) rfl (exec_crcByte b _) _).trans hrun, hcrc, hrx⟩

/-- CRC_RX folds the bytes of RXBUF into CRC. -/
theorem accesses_crcRx {bytes : List Byte} (hl : bytes.length ≤ 256) {s : State} (h : Store.Holds 0 bytes s.rxbuf) :
    ∃ t, accesses [cmd (.crcRx bytes.length)] s = .next t ∧ t.crc = crcFold s.crc bytes :=
  ⟨_, accesses_cmd (i := .crcRx _) (decide_eq_true (by omega))
    (crcSpan_of_holds (s := s.setReply .done) (b := .rx) rfl hl rfl h) [], rfl⟩

/-- CRC_INIT, CRC_TX, any number of CRC_BYTE and CRC_RX leave the crc16 of their bytes. -/
theorem crc_in_pieces {s : State} {tx rx : List Byte} (mid : List Byte) (htxl : tx.length ≤ 256) (hrxl : rx.length ≤ 256)
    (htx : Store.Holds 0 tx s.txbuf) (hrx : Store.Holds 0 rx s.rxbuf) :
    ∃ t, accesses (crc16Tx tx.length ++ mid.map (fun b => cmd (.crcByte b)) ++ [cmd (.crcRx rx.length)]) s = .next t ∧
      t.crc = crc16 (tx ++ mid ++ rx) := by
  rw [List.append_assoc]
  obtain ⟨t, hrun, hcrc, hbuf⟩ :=
    accesses_crc16Tx htxl htx (mid.map (fun b => cmd (.crcByte b)) ++ [cmd (.crcRx rx.length)])
  obtain ⟨u, hrun', hcrc', hbuf'⟩ := accesses_crcBytes mid t [cmd (.crcRx rx.length)]
  obtain ⟨v, hrun'', hcrc''⟩ := accesses_crcRx hrxl (hbuf'.trans hbuf ▸ hrx)
  refine ⟨v, hrun.trans (hrun'.trans hrun''), ?_⟩
  calc v.crc
    _ = crcFold (crcFold (crc16 tx) mid) rx := by rw [hcrc'', hcrc', hcrc]
    _ = crc16 (tx ++ mid ++ rx) := by rw [crc16, crc16, crcFold_append, crcFold_append]

/-- Settles O34: crc16 is a fold of iterations, and a fold over bytes in a row is a fold over the pieces. -/
theorem crcFollowsTheAlgorithmInPieces : Obligations.CrcFollowsTheAlgorithmInPieces := by
  refine ⟨fun c b => ?_, rfl, fun bytes b => crcFold_append _ bytes [b], fun a b => (crcFold_append _ a b).symm,
    fun _ _ mid _ => crc_in_pieces mid⟩
  rw [BitVec.ofNat_toNat]
  exact crcUpdate_eq_iterate c b

end Sys2Proof.Machine
end

section
/-! PROOF. The framer and parser (spec/41_framer.md R121 to R126): the frame FRAME_BUILD leaves, the verdict FRAME_PARSE
gives, and that the one accepts what the other built. -/

namespace Sys2Proof.Machine

section
variable {s : State} {pdu adu : List Byte}

/-! ### FRAME_BUILD (spec/41_framer.md R121, R122) -/

theorem exec_frameBuild_of_bad_address (h : 247 < s.saddr.toNat) :
    exec .frameBuild s = .next { s with txCount := 0, err := .eAddr } :=
  if_pos ((badServerAddress_eq_true s).2 h)

theorem exec_frameBuild_of_bad_length (ha : s.saddr.toNat ≤ 247) (h : s.wpduLen.toNat = 0 ∨ 253 < s.wpduLen.toNat) :
    exec .frameBuild s = .next { s with txCount := 0, err := .eRange } :=
  (if_neg (by simpa using ha)).trans (if_pos ((badPduLen_eq_true s.wpduLen).2 h))

/-- Past its two checks FRAME_BUILD is `build_adu` of WPDU_LEN bytes. -/
theorem exec_frameBuild_eq_buildAdu (ha : s.saddr.toNat ≤ 247) (h₁ : 1 ≤ s.wpduLen.toNat) (h₂ : s.wpduLen.toNat ≤ 253) :
    exec .frameBuild s = buildAdu s.wpduLen.toNat s :=
  (if_neg (by simpa using ha)).trans (if_neg (by rw [badPduLen_eq_true]; omega))

theorem exec_frameBuild_of_holds (ha : s.saddr.toNat ≤ 247) (h₁ : 1 ≤ s.wpduLen.toNat) (h₂ : s.wpduLen.toNat ≤ 253)
    (hl : pdu.length = s.wpduLen.toNat) (hh : Store.Holds 1 pdu s.txbuf) :
    exec .frameBuild s = .next (built s.wpduLen.toNat pdu s) := by
  rw [exec_frameBuild_eq_buildAdu ha h₁ h₂, ← hl, buildAdu_of_holds hh]

/-- A build around a PDU with an unwritten byte stops at one (R121). -/
theorem buildAdu_of_unwritten {len : Nat} (hu : ∃ i, 1 ≤ i ∧ i ≤ len ∧ Store.read i s.txbuf = none) :
    ∃ i, 1 ≤ i ∧ i ≤ len ∧ Store.read i s.txbuf = none ∧ buildAdu len s = .fault (.unwritten .tx i) := by
  obtain ⟨j, h₁, h₂, hj⟩ := hu
  obtain ⟨i, hi₁, hi₂, hi, hstop⟩ := readRun_stops (b := .tx) h₁ (by omega : j < 1 + len) hj
  exact ⟨i, hi₁, by omega, hi, by rw [buildAdu, readTx, hstop]⟩

/-- A FRAME_BUILD that completes without an error passed its checks and left the frame around a written PDU. -/
theorem built_of_exec_frameBuild {t : State} (h : exec .frameBuild s = .next t) (herr : t.err = .ok) :
    s.saddr.toNat ≤ 247 ∧ 1 ≤ s.wpduLen.toNat ∧ s.wpduLen.toNat ≤ 253 ∧
      ∃ pdu, pdu.length = s.wpduLen.toNat ∧ Store.Holds 1 pdu s.txbuf ∧ t = built s.wpduLen.toNat pdu s := by
  rcases exec_frameBuild_cases s with ⟨_, hx⟩ | ⟨_, _, hx⟩ | ⟨ha, h₁, h₂, hx⟩
  · cases h.symm.trans hx
    cases herr
  · cases h.symm.trans hx
    cases herr
  · refine ⟨ha, h₁, h₂, ?_⟩
    rcases buildAdu_cases s.wpduLen.toNat s with ⟨pdu, hl, hh, hb⟩ | ⟨_, _, _, _, hb⟩
    · exact ⟨pdu, hl, hh, Host.Outcome.next.inj (h.symm.trans (hx.trans hb))⟩
    · cases h.symm.trans (hx.trans hb)

/-! ### The checks of FRAME_PARSE (spec/41_framer.md R124) -/

/-- The operands FRAME_PARSE accepts: it goes on to a verdict. -/
def ParseAdmitted (s : State) : Prop :=
  s.saddr.toNat ≤ 247 ∧ 1 ≤ s.rpduLen.toNat ∧ s.rpduLen.toNat ≤ 253 ∧ s.rxCount.toNat ≤ 256

theorem exec_frameParse_of_bad_address (h : 247 < s.saddr.toNat) :
    exec .frameParse s = .next { s with err := .eAddr } :=
  if_pos ((badServerAddress_eq_true s).2 h)

theorem exec_frameParse_of_bad_length (ha : s.saddr.toNat ≤ 247)
    (h : s.rpduLen.toNat = 0 ∨ 253 < s.rpduLen.toNat ∨ 256 < s.rxCount.toNat) :
    exec .frameParse s = .next { s with err := .eRange } :=
  (if_neg (by simpa using ha)).trans (if_pos (by simpa [or_assoc] using h))

/-- Past its checks FRAME_PARSE records the verdict of `parseFrame`. -/
theorem exec_frameParse_of_ok {v : Verdict} {code : Byte} (h : ParseAdmitted s) (hp : parseFrame s = .ok (v, code)) :
    exec .frameParse s = .next ((s.setVerdict v code).setErr .ok) := by
  obtain ⟨ha, h₁, h₂, h₃⟩ := h
  rcases exec_frameParse_cases s with ⟨ha', _⟩ | ⟨_, hl, _⟩ | ⟨_, _, _, _, ⟨v', code', hp', hx⟩ | ⟨_, hp', _⟩⟩
  · omega
  · omega
  · cases hp.symm.trans hp'
    exact hx
  · cases hp.symm.trans hp'

/-- Past its checks FRAME_PARSE stops where `parseFrame` does. -/
theorem exec_frameParse_of_error {f : Fault} (h : ParseAdmitted s) (hp : parseFrame s = .error f) :
    exec .frameParse s = .fault f := by
  obtain ⟨ha, h₁, h₂, h₃⟩ := h
  rcases exec_frameParse_cases s with ⟨ha', _⟩ | ⟨_, hl, _⟩ | ⟨_, _, _, _, ⟨_, _, hp', _⟩ | ⟨_, hp', _, hx⟩⟩
  · omega
  · omega
  · cases hp.symm.trans hp'
  · cases hp.symm.trans hp'
    exact hx

/-- A verdict other than V_EXCEPTION clears the exception fields (R120). -/
theorem exec_frameParse_verdict {v : Verdict} (hv : v ≠ .vException) (h : ParseAdmitted s)
    (hp : parseFrame s = .ok (v, 0)) :
    exec .frameParse s = .next { s with verdict := v, excCode := 0, excKnown := false, err := .ok } := by
  rw [exec_frameParse_of_ok h hp, State.setVerdict_of_ne hv]
  rfl

/-- V_EXCEPTION comes with its code, and EXC_KNOWN tells whether the source names it (R120). -/
theorem exec_frameParse_exception {code : Byte} (h : ParseAdmitted s) (hp : parseFrame s = .ok (.vException, code)) :
    exec .frameParse s =
      .next { s with
        verdict := .vException, excCode := code, err := .ok
        excKnown := decide (code ∈ ([1, 2, 3, 4, 5, 6, 7, 8, 10, 11] : List Byte)) } := by
  rw [exec_frameParse_of_ok h hp, State.setVerdict_exception, isKnownCode_eq]
  rfl

/-! ### The branches of FRAME_PARSE (spec/41_framer.md R123 to R125) -/

theorem parseFrame_full_of_holds (hc : s.rxCount.toNat = expectedAdu s.rpduLen)
    (hl : adu.length = expectedAdu s.rpduLen) (hh : Store.Holds 0 adu s.rxbuf) :
    parseFrame s = .ok (classifyFull s.saddr adu) := by
  rw [parseFrame_full hc, readRx_eq_ok.2 ⟨hl, hh⟩]

theorem parseFrame_short_of_holds (hc : s.rxCount.toNat = 5) (he : 5 < expectedAdu s.rpduLen) (hl : adu.length = 5)
    (hh : Store.Holds 0 adu s.rxbuf) : parseFrame s = .ok (classifyShort adu) := by
  rw [parseFrame_short hc he, readRx_eq_ok.2 ⟨hl, hh⟩]

/-- Both branches that look at the bytes read all RX_COUNT of them, and stop at an unwritten one (notes 5). -/
theorem parseFrame_of_unwritten
    (hc : s.rxCount.toNat = expectedAdu s.rpduLen ∨ (s.rxCount.toNat = 5 ∧ 5 < expectedAdu s.rpduLen))
    {i : Nat} (hi : i < s.rxCount.toNat) (hu : Store.read i s.rxbuf = none) :
    ∃ j, parseFrame s = .error (.unwritten .rx j) := by
  obtain ⟨j, _, _, _, hstop⟩ := readRun_stops (b := .rx) (Nat.zero_le i) (by omega : i < 0 + s.rxCount.toNat) hu
  refine ⟨j, ?_⟩
  rcases hc with hc | ⟨hc, he⟩
  · rw [parseFrame_full hc, readRx, ← hc, hstop]
  · rw [hc] at hstop
    rw [parseFrame_short hc he, readRx, hstop]

theorem exec_frameParse_of_unwritten (h : ParseAdmitted s)
    (hc : s.rxCount.toNat = expectedAdu s.rpduLen ∨ (s.rxCount.toNat = 5 ∧ 5 < expectedAdu s.rpduLen))
    {i : Nat} (hi : i < s.rxCount.toNat) (hu : Store.read i s.rxbuf = none) :
    ∃ j, exec .frameParse s = .fault (.unwritten .rx j) := by
  obtain ⟨j, hp⟩ := parseFrame_of_unwritten hc hi hu
  exact ⟨j, exec_frameParse_of_error h hp⟩

theorem classifyFull_of_bad_crc (saddr : Byte) (h : ¬ frameCrcOk adu = true) :
    classifyFull saddr adu = (.vCrcError, 0) :=
  if_pos (by simpa using h)

theorem classifyFull_of_other_address {saddr : Byte} (h : frameCrcOk adu = true) (ha : adu[0]? ≠ some saddr) :
    classifyFull saddr adu = (.vAddrMismatch, 0) :=
  (if_neg (by simp [h])).trans (if_pos (by simpa [List.head?_eq_getElem?] using ha))

theorem classifyFull_of_match {saddr : Byte} (h : frameCrcOk adu = true) (ha : adu[0]? = some saddr) :
    classifyFull saddr adu = (.vOk, 0) :=
  (if_neg (by simp [h])).trans (if_neg (by simpa [List.head?_eq_getElem?] using ha))

/-- A frame of five bytes is an exception response by its CRC over three bytes and its function byte above 0x80. -/
theorem classifyShort_five (b0 b1 b2 b3 b4 : Byte) :
    classifyShort [b0, b1, b2, b3, b4] =
      if b3 = lowByte (crc16 [b0, b1, b2]) ∧ b4 = highByte (crc16 [b0, b1, b2]) ∧ 0x80 < b1.toNat then
        (.vException, b2)
      else (.vBadLength, 0) := by
  have hcrc := frameCrcOk_append [b0, b1, b2] b3 b4
  simp only [List.cons_append, List.nil_append] at hcrc
  simp only [classifyShort, Bool.and_eq_true, decide_eq_true_eq, hcrc, and_assoc]

/-- A full-length frame: the CRC is checked before the address, and nothing else is (R124, R125). -/
theorem exec_frameParse_full (h : ParseAdmitted s) (hc : s.rxCount.toNat = expectedAdu s.rpduLen)
    (hl : adu.length = expectedAdu s.rpduLen) (hh : Store.Holds 0 adu s.rxbuf) {v : Verdict} (hv : v ≠ .vException)
    (hcl : classifyFull s.saddr adu = (v, 0)) :
    exec .frameParse s = .next { s with verdict := v, excCode := 0, excKnown := false, err := .ok } :=
  exec_frameParse_verdict hv h (by rw [parseFrame_full_of_holds hc hl hh, hcl])

end

/-! ### The obligations -/

/-- Settles O38: past its checks FRAME_BUILD is `build_adu`, which completes on a written PDU and stops on another. -/
theorem frameBuildCompletesTheAdu : Obligations.FrameBuildCompletesTheAdu := by
  refine ⟨decodeOfEncode .frameBuild rfl, fun s => ⟨exec_frameBuild_of_bad_address, exec_frameBuild_of_bad_length,
    fun pdu ha h₁ h₂ hl hh => ?_, fun ha h₁ h₂ hu => ?_⟩⟩
  · exact ⟨built s.wpduLen.toNat pdu s, exec_frameBuild_of_holds ha h₁ h₂ hl hh, hl ▸ holds_frameAround hh s.saddr _,
      fun _ hj => read_frameAround_beyond hj s.saddr _ s.txbuf, rfl⟩
  · rw [exec_frameBuild_eq_buildAdu ha h₁ h₂]
    exact buildAdu_of_unwritten hu

/-- Settles O39: branch by branch of `parseFrame`; the clauses on unwritten bytes are cases of one. -/
theorem frameParseClassifies : Obligations.FrameParseClassifies := by
  refine ⟨decodeOfEncode .frameParse rfl, fun s => ⟨exec_frameParse_of_bad_address, exec_frameParse_of_bad_length,
    ?empty, ?full, ?short, ?other, ?fullBytes, ?fullLast, ?shortBytes, ?shortLast⟩⟩
  case empty => exact fun h hc => exec_frameParse_verdict (by decide) h (parseFrame_empty hc)
  case full =>
    intro adu h hc hl hh
    have hcrc := frameCrcOk_iff (n := s.rpduLen.toNat + 1) hl
    exact ⟨fun hbad => exec_frameParse_full h hc hl hh (by decide) (classifyFull_of_bad_crc _ (mt hcrc.1 hbad)),
      fun hok ha => exec_frameParse_full h hc hl hh (by decide) (classifyFull_of_other_address (hcrc.2 hok) ha),
      fun hok ha => exec_frameParse_full h hc hl hh (by decide) (classifyFull_of_match (hcrc.2 hok) ha)⟩
  case short =>
    intro b0 b1 b2 b3 b4 h hc he hh
    have hp := parseFrame_short_of_holds hc (hc ▸ he) rfl hh
    rw [classifyShort_five] at hp
    exact ⟨fun hex => exec_frameParse_exception h (hp.trans (congrArg Except.ok (if_pos hex))),
      fun hex => exec_frameParse_verdict (by decide) h (hp.trans (congrArg Except.ok (if_neg hex)))⟩
  case other => exact fun h h₀ h₁ h₂ => exec_frameParse_verdict (by decide) h (parseFrame_other h₀ h₁ h₂)
  case fullBytes => exact fun h hc ⟨i, hi, hu⟩ => exec_frameParse_of_unwritten h (.inl hc) (by omega) hu
  case fullLast => exact fun _ h hc _ _ _ hu => exec_frameParse_of_unwritten h (.inl hc) (by omega) hu
  case shortBytes =>
    exact fun h hc he ⟨i, hi, hu⟩ => exec_frameParse_of_unwritten h (.inr ⟨hc, hc ▸ he⟩) (by omega) hu
  case shortLast =>
    exact fun _ _ _ _ h hc he _ _ hu => exec_frameParse_of_unwritten h (.inr ⟨hc, hc ▸ he⟩) (by omega) hu

/-- Settles O41: the received bytes are the built frame, whose CRC is valid and whose address is SADDR. -/
theorem builtFrameParsesToOk : Obligations.BuiltFrameParsesToOk := by
  intro s t u h herr hsaddr hlen hcount hbytes
  obtain ⟨ha, h₁, h₂, pdu, hl, hh, rfl⟩ := built_of_exec_frameBuild h herr
  have hc : u.rxCount.toNat = s.wpduLen.toNat + 3 := by
    rw [hcount, built, BitVec.toNat_ofNat, Nat.mod_eq_of_lt (by omega)]
  have hadmitted : ParseAdmitted u := ⟨hsaddr ▸ ha, hlen ▸ h₁, hlen ▸ h₂, by omega⟩
  have hexpected : expectedAdu u.rpduLen = s.wpduLen.toNat + 3 := by rw [expectedAdu, hlen]
  have hadu : (s.saddr :: pdu ++ crcBytes (crc16 (s.saddr :: pdu))).length = s.wpduLen.toNat + 3 := by simp [hl]
  have hframe : Store.Holds 0 (s.saddr :: pdu ++ crcBytes (crc16 (s.saddr :: pdu))) u.rxbuf :=
    (holds_frameAround hh s.saddr _).congr fun j _ hj => by
      rw [hbytes j (hj.trans_eq ((Nat.zero_add _).trans hadu)), built, hl]
  exact exec_frameParse_full hadmitted (hc.trans hexpected.symm) (hadu.trans hexpected.symm) hframe (by decide)
    (classifyFull_of_match (frameCrcOk_crcBytes _) (congrArg some hsaddr.symm))

end Sys2Proof.Machine
end

section
/-! PROOF. The register operations (spec/42_register_ops.md R150 to R156): the request an encode command leaves, what the
decode commands accept, and each operation from its request to its decoded response. -/

namespace Sys2Proof.Machine

section
variable {s : State}

/-! ### Encoding a request (spec/42_register_ops.md R150, R154) -/

/-- The frame of a PDU: the server address, the PDU and the CRC over both, low byte first (spec/30_encoding.md R86). -/
def aduAround (saddr : Byte) (pdu : List Byte) : List Byte := saddr :: (pdu ++ crcBytes (crc16 (saddr :: pdu)))

@[simp] theorem aduAround_length (saddr : Byte) (pdu : List Byte) : (aduAround saddr pdu).length = pdu.length + 3 := by
  simp [aduAround]

/-- A frame around a PDU is accepted at full length under its own address (R124). -/
theorem classifyFull_aduAround (saddr : Byte) (pdu : List Byte) : classifyFull saddr (aduAround saddr pdu) = (.vOk, 0) :=
  classifyFull_of_match (frameCrcOk_crcBytes (saddr :: pdu)) rfl

/-- A buffer that holds a frame holds its PDU from byte 1 up. -/
theorem holds_pdu_of_aduAround {saddr : Byte} {pdu : List Byte} {m : Memory}
    (h : Store.Holds 0 (aduAround saddr pdu) m) : Store.Holds 1 pdu m :=
  (Store.holds_append.1 (Store.holds_cons.1 h).2).1

/-- The frame an encode command leaves is the one around its request PDU. -/
theorem holds_encoded (fn : Byte) (a v : Half) (rpduLen : Nat) (s : State) :
    Store.Holds 0 (aduAround s.saddr (requestPdu fn a v)) (encoded fn a v rpduLen s).txbuf :=
  holds_frameAround (Store.holds_writeRun 1 (requestPdu fn a v) s.txbuf) s.saddr _

/-- An encode command touches no byte behind its frame of eight. -/
theorem sameFrom_encoded (fn : Byte) (a v : Half) (rpduLen : Nat) (s : State) :
    Store.SameFrom 8 s.txbuf (encoded fn a v rpduLen s).txbuf := by
  intro j hj
  have hpdu : 1 + (requestPdu fn a v).length ≤ j := by
    rw [requestPdu_length]
    omega
  exact (read_frameAround_beyond (len := 5) hj s.saddr _ _).trans (Store.read_writeRun_outside (.inr hpdu) s.txbuf)

theorem exec_encRead_of_bad_address (h : 247 < s.saddr.toNat) :
    exec .encRead s = .next { s with txCount := 0, err := .eAddr } :=
  if_pos ((badServerAddress_eq_true s).2 h)

theorem exec_encRead_of_bad_count (ha : s.saddr.toNat ≤ 247) (h : s.regCount.toNat < 1 ∨ 125 < s.regCount.toNat) :
    exec .encRead s = .next { s with txCount := 0, err := .eCount } :=
  (if_neg (by simpa using ha)).trans (if_pos ((badRegCount_eq_true s.regCount).2 h))

theorem exec_encRead_of_wrap (ha : s.saddr.toNat ≤ 247) (h₁ : 1 ≤ s.regCount.toNat) (h₂ : s.regCount.toNat ≤ 125)
    (h : 0xFFFF < s.regAddr.toNat + s.regCount.toNat - 1) :
    exec .encRead s = .next { s with txCount := 0, err := .eWrap } :=
  (if_neg (by simpa using ha)).trans ((if_neg (by rw [badRegCount_eq_true]; omega)).trans
    (if_pos ((wrapsPastEnd_eq_true s.regAddr s.regCount).2 h)))

theorem exec_encRead_of_legal (ha : s.saddr.toNat ≤ 247) (h₁ : 1 ≤ s.regCount.toNat) (h₂ : s.regCount.toNat ≤ 125)
    (h : s.regAddr.toNat + s.regCount.toNat - 1 ≤ 0xFFFF) :
    exec .encRead s = .next (encoded 0x03 s.regAddr s.regCount (2 + 2 * s.regCount.toNat) s) := by
  rcases exec_encRead_cases s with ⟨ha', _⟩ | ⟨_, hn, _⟩ | ⟨_, _, _, hw, _⟩ | ⟨_, _, _, _, hx⟩
  · omega
  · omega
  · omega
  · exact hx

theorem exec_encWrite_of_bad_address (h : 247 < s.saddr.toNat) :
    exec .encWrite s = .next { s with txCount := 0, err := .eAddr } :=
  if_pos ((badServerAddress_eq_true s).2 h)

theorem exec_encWrite_of_legal (ha : s.saddr.toNat ≤ 247) :
    exec .encWrite s = .next (encoded 0x06 s.regAddr s.regValue 5 s) := by
  rcases exec_encWrite_cases s with ⟨ha', _⟩ | ⟨_, hx⟩
  · omega
  · exact hx

/-- A framing command that ends with an error leaves TX_COUNT 0 (R151). -/
theorem txCount_of_failed_framing {i : Instr} {t : State} (hi : Instr.framing i) (h : exec i s = .next t)
    (he : t.err ≠ .ok) : t.txCount = 0 := by
  rcases exec_next_cases h with ⟨_, _, hf, _⟩ | ⟨_, _, _, rfl⟩ | ⟨_, rfl⟩ | ⟨_, _, rfl⟩ | ⟨_, _, _, _, _, _, _, rfl⟩ |
    ⟨_, _, _, _, _, _, _, _, rfl⟩ | ⟨_, _, rfl⟩ | ⟨_, _, rfl⟩ | ⟨_, _, _, _, _, rfl⟩
  · exact absurd hi hf
  · rfl
  all_goals exact absurd rfl he

/-! ### Accepted responses (spec/41_framer.md R124, spec/10_state.md R33) -/

/-- Entries of a run that is held are written. -/
theorem Store.Holds.read_ne_none {α : Type} {i j : Nat} {vs : List α} {m : Store α} (h : Store.Holds i vs m)
    (h₁ : i ≤ j) (h₂ : j < i + vs.length) : Store.read j m ≠ none := by
  have hread := h (j - i) (by omega)
  rw [show i + (j - i) = j by omega, List.getElem?_eq_getElem (by omega)] at hread
  simp [hread]

/-- V_OK is the verdict on a full-length frame, all of whose bytes were read. -/
theorem holds_of_parseFrame_vOk {code : Byte} (h : parseFrame s = .ok (.vOk, code)) :
    ∃ adu, adu.length = expectedAdu s.rpduLen ∧ Store.Holds 0 adu s.rxbuf := by
  by_cases h₀ : s.rxCount.toNat = 0
  · cases h.symm.trans (parseFrame_empty h₀)
  by_cases hfull : s.rxCount.toNat = expectedAdu s.rpduLen
  · cases hr : readRx 0 (expectedAdu s.rpduLen) s with
    | ok adu => exact ⟨adu, readRx_eq_ok.1 hr⟩
    | error f =>
      rw [parseFrame_full hfull, hr] at h
      cases h
  by_cases hshort : s.rxCount.toNat = 5 ∧ s.rxCount.toNat < expectedAdu s.rpduLen
  · rw [parseFrame_short hshort.1 (hshort.1 ▸ hshort.2)] at h
    cases hr : readRx 0 5 s with
    | ok adu =>
      simp only [hr, Except.ok.injEq] at h
      rcases classifyShort_cases adu with ⟨_, _, _, _, _, _, _, _, hc⟩ | hc <;> cases h.symm.trans hc
    | error f =>
      rw [hr] at h
      cases h
  · cases h.symm.trans (parseFrame_other h₀ hfull hshort)

/-- Under V_OK a state that meets the invariant has the whole response written (R152). -/
theorem Inv.rx_isSome (hs : Inv s) (hv : s.verdict = .vOk) {i : Nat} (hi : i < s.rpduLen.toNat + 3) :
    (Store.read i s.rxbuf).isSome = true := by
  obtain ⟨_, _, _, hp⟩ := hs.verdict_stands (by simp [hv])
  rw [hv] at hp
  obtain ⟨adu, hl, hh⟩ := holds_of_parseFrame_vOk hp
  exact Option.isSome_iff_ne_none.2 (hh.read_ne_none (Nat.zero_le i) (by rwa [Nat.zero_add, hl]))

/-! ### Decoding registers (spec/42_register_ops.md R152, R153) -/

theorem exec_decRead_of_no_vOk (h : s.verdict ≠ .vOk) : exec .decRead s = .next { s with err := .eFrame } :=
  if_pos h

theorem exec_decRead_of_bad_count (hv : s.verdict = .vOk) (h : s.regCount.toNat < 1 ∨ 125 < s.regCount.toNat) :
    exec .decRead s = .next { s with err := .eCount } :=
  (if_neg (not_not.2 hv)).trans (if_pos ((badRegCount_eq_true s.regCount).2 h))

theorem exec_decRead_of_bad_length (hv : s.verdict = .vOk) (h₁ : 1 ≤ s.regCount.toNat) (h₂ : s.regCount.toNat ≤ 125)
    (h : s.rpduLen.toNat ≠ 2 + 2 * s.regCount.toNat) : exec .decRead s = .next { s with err := .eFrame } :=
  (if_neg (not_not.2 hv)).trans ((if_neg (by rw [badRegCount_eq_true]; omega)).trans (if_pos h))

/-- The state DEC_READ goes on to the response from: V_OK, a legal count and the response length that goes with it. -/
def ReadAccepted (s : State) : Prop :=
  s.verdict = .vOk ∧ 1 ≤ s.regCount.toNat ∧ s.regCount.toNat ≤ 125 ∧ s.rpduLen.toNat = 2 + 2 * s.regCount.toNat

/-- Past its checks DEC_READ goes by the byte count, and then by whether a register byte is unwritten. -/
theorem exec_decRead_cases_of_accepted (h : ReadAccepted s) :
    (Store.read 2 s.rxbuf = none ∧ exec .decRead s = .fault (.unwritten .rx 2)) ∨
    (∃ b, Store.read 2 s.rxbuf = some b ∧ b.toNat ≠ 2 * s.regCount.toNat ∧
      exec .decRead s = .next { s with err := .eByteCount }) ∨
    (∃ b, Store.read 2 s.rxbuf = some b ∧ b.toNat = 2 * s.regCount.toNat ∧
      ((∃ bytes, bytes.length = 2 * s.regCount.toNat ∧ Store.Holds 3 bytes s.rxbuf ∧
          exec .decRead s = .next { s with regdata := Store.writeRun 0 (beHalves bytes) s.regdata, err := .ok }) ∨
        (∃ i, 3 ≤ i ∧ i < 3 + 2 * s.regCount.toNat ∧ Store.read i s.rxbuf = none ∧
          exec .decRead s = .fault (.unwritten .rx i)))) := by
  obtain ⟨hv, h₁, h₂, hl⟩ := h
  rcases exec_decRead_cases s with ⟨hv', _⟩ | ⟨_, hn, _⟩ | ⟨_, _, _, hl', _⟩ | ⟨_, _, _, _, hx⟩
  · exact absurd hv hv'
  · omega
  · exact absurd hl hl'
  · exact hx

theorem exec_decRead_of_unwritten_count (h : ReadAccepted s) (hb : Store.read 2 s.rxbuf = none) :
    exec .decRead s = .fault (.unwritten .rx 2) := by
  rcases exec_decRead_cases_of_accepted h with ⟨_, hx⟩ | ⟨_, hb', _⟩ | ⟨_, hb', _⟩
  · exact hx
  · cases hb.symm.trans hb'
  · cases hb.symm.trans hb'

theorem exec_decRead_of_bad_byteCount {b : Byte} (h : ReadAccepted s) (hb : Store.read 2 s.rxbuf = some b)
    (hne : b.toNat ≠ 2 * s.regCount.toNat) : exec .decRead s = .next { s with err := .eByteCount } := by
  rcases exec_decRead_cases_of_accepted h with ⟨hb', _⟩ | ⟨_, _, _, hx⟩ | ⟨_, hb', heq, _⟩
  · cases hb.symm.trans hb'
  · exact hx
  · cases hb.symm.trans hb'
    exact absurd heq hne

/-- With its byte count right DEC_READ decodes the register bytes, or stops at an unwritten one. -/
theorem exec_decRead_of_byteCount {b : Byte} (h : ReadAccepted s) (hb : Store.read 2 s.rxbuf = some b)
    (heq : b.toNat = 2 * s.regCount.toNat) :
    (∃ bytes, bytes.length = 2 * s.regCount.toNat ∧ Store.Holds 3 bytes s.rxbuf ∧
      exec .decRead s = .next { s with regdata := Store.writeRun 0 (beHalves bytes) s.regdata, err := .ok }) ∨
    (∃ i, 3 ≤ i ∧ i < 3 + 2 * s.regCount.toNat ∧ Store.read i s.rxbuf = none ∧
      exec .decRead s = .fault (.unwritten .rx i)) := by
  rcases exec_decRead_cases_of_accepted h with ⟨hb', _⟩ | ⟨_, hb', hne, _⟩ | ⟨_, _, _, hx⟩
  · cases hb.symm.trans hb'
  · cases hb.symm.trans hb'
    exact absurd heq hne
  · exact hx

/-- DEC_READ with its register bytes written. -/
theorem exec_decRead_of_holds {b : Byte} {bytes : List Byte} (h : ReadAccepted s) (hb : Store.read 2 s.rxbuf = some b)
    (heq : b.toNat = 2 * s.regCount.toNat) (hl : bytes.length = 2 * s.regCount.toNat)
    (hh : Store.Holds 3 bytes s.rxbuf) :
    exec .decRead s = .next { s with regdata := Store.writeRun 0 (beHalves bytes) s.regdata, err := .ok } := by
  rcases exec_decRead_of_byteCount h hb heq with ⟨bytes', hl', hh', hx⟩ | ⟨i, h₁, h₂, hn, _⟩
  · rwa [hh.unique hh' (hl.trans hl'.symm)]
  · exact absurd hn (hh.read_ne_none h₁ (hl ▸ h₂))

/-- The register that two bytes of a held run decode to (R153). -/
theorem beHalves_of_holds {i j : Nat} {bytes : List Byte} {m : Memory} {hi lo : Byte} (h : Store.Holds i bytes m)
    (hj : 2 * j + 1 < bytes.length) (hhi : Store.read (i + 2 * j) m = some hi)
    (hlo : Store.read (i + (2 * j + 1)) m = some lo) : (beHalves bytes)[j]? = some (hi ++ lo) := by
  rw [h (2 * j) (by omega), List.getElem?_eq_getElem (by omega), Option.some.injEq] at hhi
  rw [h (2 * j + 1) hj, List.getElem?_eq_getElem hj, Option.some.injEq] at hlo
  rw [beHalves_getElem? bytes j hj, hhi, hlo, beHalf]

theorem beHalf_highByte_lowByte (v : Half) : beHalf (highByte v) (lowByte v) = v :=
  BitVec.extractLsb'_append_extractLsb'_eq_extractLsb' rfl |>.trans (BitVec.extractLsb'_eq_self)

/-- Decoding undoes the encoding of registers, high byte first (R64, R153). -/
theorem beHalves_flatMap_beBytes (regs : List Half) : beHalves (regs.flatMap beBytes) = regs := by
  induction regs with
  | nil => rfl
  | cons v regs ih =>
    rw [List.flatMap_cons, beBytes, List.cons_append, List.cons_append, List.nil_append, beHalves, ih,
      beHalf_highByte_lowByte]

theorem length_flatMap_beBytes (regs : List Half) : (regs.flatMap beBytes).length = 2 * regs.length := by
  induction regs with
  | nil => rfl
  | cons v regs ih =>
    rw [List.flatMap_cons, List.length_append, ih, List.length_cons, beBytes, List.length_cons, List.length_cons,
      List.length_nil]
    omega

/-- The PDU of a response to a read: the function code, the byte count and the registers (spec/30_encoding.md R88). -/
def readResponsePdu (regs : List Half) : List Byte :=
  0x03 :: BitVec.ofNat 8 (2 * regs.length) :: regs.flatMap beBytes

@[simp] theorem readResponsePdu_length (regs : List Half) : (readResponsePdu regs).length = 2 + 2 * regs.length := by
  rw [readResponsePdu, List.length_cons, List.length_cons, length_flatMap_beBytes]
  omega

/-- DEC_READ of a well-formed response leaves its registers in REGDATA (R152, R153). -/
theorem exec_decRead_of_response {regs : List Half} (hv : s.verdict = .vOk)
    (hn : s.regCount.toNat = regs.length) (h₁ : 1 ≤ regs.length) (h₂ : regs.length ≤ 125)
    (hl : s.rpduLen.toNat = 2 + 2 * regs.length) (hh : Store.Holds 1 (readResponsePdu regs) s.rxbuf) :
    exec .decRead s = .next { s with regdata := Store.writeRun 0 regs s.regdata, err := .ok } := by
  obtain ⟨_, hh⟩ := Store.holds_cons.1 hh
  obtain ⟨hb, hh⟩ := Store.holds_cons.1 hh
  have hcount : (BitVec.ofNat 8 (2 * regs.length)).toNat = 2 * s.regCount.toNat := by
    rw [BitVec.toNat_ofNat, Nat.mod_eq_of_lt (by omega), hn]
  rw [exec_decRead_of_holds ⟨hv, hn ▸ h₁, hn ▸ h₂, hn ▸ hl⟩ hb hcount (hn ▸ length_flatMap_beBytes regs) hh,
    beHalves_flatMap_beBytes]

/-! ### Checking the echo (spec/42_register_ops.md R156) -/

theorem exec_decWrite_of_no_vOk (h : s.verdict ≠ .vOk) : exec .decWrite s = .next { s with err := .eFrame } :=
  if_pos h

theorem exec_decWrite_of_bad_length (hv : s.verdict = .vOk) (h : s.rpduLen.toNat ≠ 5) :
    exec .decWrite s = .next { s with err := .eFrame } :=
  (if_neg (not_not.2 hv)).trans (if_pos h)

/-- On a response of the right length DEC_WRITE reports the comparison. -/
theorem exec_decWrite_of_echoes {same : Bool} (hv : s.verdict = .vOk) (hl : s.rpduLen.toNat = 5)
    (h : echoes s 1 5 = .ok same) : exec .decWrite s = .next { s with err := if same then .ok else .eEcho } := by
  rcases exec_decWrite_cases s with ⟨hv', _⟩ | ⟨_, hl', _⟩ | ⟨_, _, ⟨h', hx⟩ | ⟨h', hx⟩ | ⟨_, h', _⟩⟩
  · exact absurd hv hv'
  · exact absurd hl hl'
  · cases h.symm.trans h'
    exact hx
  · cases h.symm.trans h'
    exact hx
  · cases h.symm.trans h'

/-- DEC_WRITE stops where the comparison does. -/
theorem exec_decWrite_of_error {f : Fault} (hv : s.verdict = .vOk) (hl : s.rpduLen.toNat = 5)
    (h : echoes s 1 5 = .error f) : exec .decWrite s = .fault f := by
  rcases exec_decWrite_cases s with ⟨hv', _⟩ | ⟨_, hl', _⟩ | ⟨_, _, ⟨h', _⟩ | ⟨h', _⟩ | ⟨_, h', hx⟩⟩
  · exact absurd hv hv'
  · exact absurd hl hl'
  · cases h.symm.trans h'
  · cases h.symm.trans h'
  · cases h.symm.trans h'
    exact hx

/-- The comparison ends at a difference. -/
theorem echoes_of_ne {i n : Nat} {r t : Byte} (hr : Store.read i s.rxbuf = some r) (ht : Store.read i s.txbuf = some t)
    (h : r ≠ t) : echoes s i (n + 1) = .ok false := by
  rw [echoes, readEntry_eq_ok.2 hr, readEntry_eq_ok.2 ht]
  exact if_neg h

/-- The comparison stops at a byte that is unwritten in one of the buffers. -/
theorem echoes_of_unwritten {i n : Nat} (h : Store.read i s.rxbuf = none ∨ Store.read i s.txbuf = none) :
    ∃ b, echoes s i (n + 1) = .error (.unwritten b i) := by
  cases hr : Store.read i s.rxbuf with
  | none => exact ⟨.rx, by rw [echoes, readEntry_eq_error.2 ⟨rfl, hr⟩]⟩
  | some r =>
    have ht : Store.read i s.txbuf = none := h.resolve_left (by simp [hr])
    exact ⟨.tx, by rw [echoes, readEntry_eq_ok.2 hr, readEntry_eq_error.2 ⟨rfl, ht⟩]⟩

/-- Past equal bytes the comparison of a PDU goes on at byte i. -/
theorem echoes_pdu_skip {i : Nat} (h₁ : 1 ≤ i) (h₂ : i ≤ 5)
    (h : ∀ j, 1 ≤ j → j < i → ∃ b : Byte, Store.read j s.rxbuf = some b ∧ Store.read j s.txbuf = some b) :
    echoes s 1 5 = echoes s i (5 - i + 1) := by
  have hskip := echoes_skip (s := s) (i := 1) (k := i - 1) (n := 5 - i + 1) fun j hj₁ hj₂ => h j hj₁ (by omega)
  rwa [show i - 1 + (5 - i + 1) = 5 by omega, show 1 + (i - 1) = i by omega] at hskip

/-- The comparison of two written runs of one length decides whether they are equal. -/
theorem echoes_of_holds {i : Nat} {rs ts : List Byte} (hr : Store.Holds i rs s.rxbuf) (ht : Store.Holds i ts s.txbuf)
    (hl : rs.length = ts.length) : echoes s i rs.length = .ok (decide (rs = ts)) := by
  induction rs generalizing i ts with
  | nil => cases ts with
    | nil => rfl
    | cons t ts => cases hl
  | cons r rs ih => cases ts with
    | nil => cases hl
    | cons t ts =>
      obtain ⟨hr₀, hrs⟩ := Store.holds_cons.1 hr
      obtain ⟨ht₀, hts⟩ := Store.holds_cons.1 ht
      by_cases h : r = t
      · subst h
        rw [List.length_cons, Nat.add_comm, echoes_skip fun j h₁ h₂ => ?_, ih hrs hts (Nat.succ.inj hl)]
        · simp
        · obtain rfl : j = i := by omega
          exact ⟨r, hr₀, ht₀⟩
      · rw [List.length_cons, echoes_of_ne hr₀ ht₀ h]
        simp [h]

/-! ### Requests and responses of a host program (spec/30_encoding.md R93) -/

/-- `WR <reg>, <imm32>` and the rest of a program. -/
theorem accesses_wr {slot : Slot} (hm : slot.inMap) {w : Word} {t : State}
    (h : writeSlot slot w (s.setReply .done) = .next t) (rest : List Access) :
    accesses (wr slot w :: rest) s = accesses rest t := by
  rw [accesses, access_wr hm, h]

/-- A 16-bit register keeps a zero-extended half (R39). -/
theorem setWidth_zeroExtended (v : Half) : (v.setWidth 32).setWidth 16 = v := by simp

/-- The state `READREGS` leaves. -/
def readRequested (addr n : Half) (s : State) : State :=
  encoded 0x03 addr n (2 + 2 * n.toNat) { s with regAddr := addr, regCount := n, reply := .done }

/-- `READREGS` of a legal request encodes it. -/
theorem accesses_readRegs {addr n : Half} (ha : s.saddr.toNat ≤ 247) (h₁ : 1 ≤ n.toNat) (h₂ : n.toNat ≤ 125)
    (h : addr.toNat + n.toNat - 1 ≤ 0xFFFF) (rest : List Access) :
    accesses (readRegs addr n ++ rest) s = accesses rest (readRequested addr n s) := by
  have henc : exec .encRead { s with regAddr := addr, regCount := n, reply := .done } =
      .next (readRequested addr n s) := exec_encRead_of_legal ha h₁ h₂ h
  rw [readRegs, List.cons_append, accesses_wr (slot := .regAddr) trivial rfl, List.cons_append,
    accesses_wr (slot := .regCount) trivial rfl, setWidth_zeroExtended, setWidth_zeroExtended]
  exact accesses_cmd (i := .encRead) (s := { s with regAddr := addr, regCount := n, reply := .done }) rfl henc rest

/-- The state `WRITEREG` leaves. -/
def writeRequested (addr value : Half) (s : State) : State :=
  encoded 0x06 addr value 5 { s with regAddr := addr, regValue := value, reply := .done }

/-- `WRITEREG` encodes its request. -/
theorem accesses_writeReg (addr value : Half) (ha : s.saddr.toNat ≤ 247) (rest : List Access) :
    accesses (writeReg addr value ++ rest) s = accesses rest (writeRequested addr value s) := by
  have henc : exec .encWrite { s with regAddr := addr, regValue := value, reply := .done } =
      .next (writeRequested addr value s) := exec_encWrite_of_legal ha
  rw [writeReg, List.cons_append, accesses_wr (slot := .regAddr) trivial rfl, List.cons_append,
    accesses_wr (slot := .regValue) trivial rfl, setWidth_zeroExtended, setWidth_zeroExtended]
  exact accesses_cmd (i := .encWrite) (s := { s with regAddr := addr, regValue := value, reply := .done }) rfl henc rest

/-- The state in which a received response of `count` bytes was accepted. -/
def responseAccepted (m : Memory) (count : Nat) (s : State) : State :=
  { s with
    rxbuf := m, rxCount := BitVec.ofNat 9 count, verdict := .vOk, excCode := 0, excKnown := false, err := .ok
    reply := .done }

/-- `LOADRX` of a frame around a PDU of the expected length, and FRAME_PARSE, which accepts it (R124). -/
theorem accesses_response {pdu : List Byte} (ha : s.saddr.toNat ≤ 247) (hl : pdu.length = s.rpduLen.toNat)
    (h₁ : 1 ≤ pdu.length) (h₂ : pdu.length ≤ 253) (rest : List Access) :
    ∃ m, Store.Holds 0 (aduAround s.saddr pdu) m ∧
      accesses (loadRx (aduAround s.saddr pdu) ++ cmd .frameParse :: rest) s =
        accesses rest (responseAccepted m (aduAround s.saddr pdu).length s) := by
  have hadu : (aduAround s.saddr pdu).length = pdu.length + 3 := aduAround_length s.saddr pdu
  have hexpected : pdu.length + 3 = expectedAdu s.rpduLen := congrArg (· + 3) hl
  have hcount : (BitVec.ofNat 9 (aduAround s.saddr pdu).length).toNat = pdu.length + 3 := by
    rw [hadu, BitVec.toNat_ofNat, Nat.mod_eq_of_lt (by omega)]
  obtain ⟨m, hm, hload⟩ := accesses_loadRx (bytes := aduAround s.saddr pdu) (by omega) s
  refine ⟨m, hm, ?_⟩
  rw [accesses_append, hload]
  exact accesses_cmd (i := .frameParse) rfl
    (exec_frameParse_full (s := State.setReply .done { s with
        rxbuf := m, rxCount := BitVec.ofNat 9 (aduAround s.saddr pdu).length, verdict := .vNone, excCode := 0
        excKnown := false })
      ⟨ha, hl ▸ h₁, hl ▸ h₂, hcount.trans_le (by omega)⟩ (hcount.trans hexpected) (hadu.trans hexpected) hm (by decide)
      (classifyFull_aduAround s.saddr pdu)) rest

end

/-! ### The obligations -/

/-- Settles O42: past its three checks ENC_READ leaves the frame of its own PDU. -/
theorem encReadBuildsTheRequest : Obligations.EncReadBuildsTheRequest := by
  refine ⟨decodeOfEncode .encRead rfl, fun s => ⟨exec_encRead_of_bad_address, exec_encRead_of_bad_count,
    exec_encRead_of_wrap, fun ha h₁ h₂ h => ⟨_, exec_encRead_of_legal ha h₁ h₂ h, ?_, ?_, rfl⟩⟩⟩
  · exact holds_encoded 0x03 s.regAddr s.regCount _ s
  · exact sameFrom_encoded 0x03 s.regAddr s.regCount _ s

/-- Settles O43: past its one check ENC_WRITE leaves the frame of its own PDU, whatever the address and value. -/
theorem encWriteBuildsTheRequest : Obligations.EncWriteBuildsTheRequest := by
  refine ⟨decodeOfEncode .encWrite rfl, fun s => ⟨exec_encWrite_of_bad_address,
    fun ha => ⟨_, exec_encWrite_of_legal ha, ?_, ?_, rfl⟩⟩⟩
  · exact holds_encoded 0x06 s.regAddr s.regValue 5 s
  · exact sameFrom_encoded 0x06 s.regAddr s.regValue 5 s

/-- Settles O44: check by check, then by whether a byte of the response that DEC_READ reads is unwritten. -/
theorem decReadDecodesTheRegisters : Obligations.DecReadDecodesTheRegisters := by
  refine ⟨decodeOfEncode .decRead rfl, fun s hs hv i hi => hs.rx_isSome hv hi, fun s => ⟨exec_decRead_of_no_vOk,
    exec_decRead_of_bad_count, exec_decRead_of_bad_length, fun b => exec_decRead_of_bad_byteCount, ?decoded,
    exec_decRead_of_unwritten_count, ?unwritten⟩⟩
  case decoded =>
    intro b hi lo h hb heq hbytes
    rcases exec_decRead_of_byteCount h hb heq with ⟨bytes, hl, hh, hx⟩ | ⟨i, h₁, h₂, hn, _⟩
    · have hlen : (beHalves bytes).length = s.regCount.toNat := by
        rw [beHalves_length]
        omega
      refine ⟨_, hx, fun j hj => ?_, fun j hj => Store.read_writeRun_outside (.inr (by omega)) s.regdata, rfl⟩
      obtain ⟨hhi, hlo⟩ := hbytes j hj
      have hread := Store.holds_writeRun 0 (beHalves bytes) s.regdata j (by omega)
      rw [Nat.zero_add] at hread
      exact hread.trans (beHalves_of_holds hh (by omega) hhi (by rwa [show 3 + (2 * j + 1) = 4 + 2 * j by omega]))
    · obtain ⟨hhi, hlo⟩ := hbytes ((i - 3) / 2) (by omega)
      rcases (by omega : i = 3 + 2 * ((i - 3) / 2) ∨ i = 4 + 2 * ((i - 3) / 2)) with hi | hi
      · rw [hi, hhi] at hn
        cases hn
      · rw [hi, hlo] at hn
        cases hn
  case unwritten =>
    rintro b h hb heq ⟨i, h₁, h₂, hn⟩
    rcases exec_decRead_of_byteCount h hb heq with ⟨bytes, hl, hh, _⟩ | hstop
    · exact absurd hn (hh.read_ne_none h₁ (hl ▸ h₂))
    · exact hstop

/-- Settles O45: the comparison goes past equal bytes and ends at the first byte that is not. -/
theorem decWriteChecksTheEcho : Obligations.DecWriteChecksTheEcho := by
  refine ⟨decodeOfEncode .decWrite rfl, fun s => ⟨exec_decWrite_of_no_vOk, exec_decWrite_of_bad_length, ?equal, ?differs,
    ?unwritten⟩⟩
  case equal =>
    exact fun ⟨hv, hl⟩ hsame => exec_decWrite_of_echoes hv hl
      (echoes_eq_true.2 fun j h₁ h₂ => hsame j h₁ (Nat.le_of_lt_succ h₂))
  case differs =>
    exact fun i r t ⟨hv, hl⟩ h₁ h₂ hsame hr ht hne => exec_decWrite_of_echoes hv hl
      ((echoes_pdu_skip h₁ h₂ hsame).trans (echoes_of_ne hr ht hne))
  case unwritten =>
    intro i ⟨hv, hl⟩ h₁ h₂ hsame hn
    obtain ⟨b, hstop⟩ := echoes_of_unwritten (n := 5 - i) hn
    exact ⟨b, exec_decWrite_of_error hv hl ((echoes_pdu_skip h₁ h₂ hsame).trans hstop)⟩

/-- Settles O46: a failed encode leaves TX_COUNT 0, which ends a transaction before its first attempt. -/
theorem failedEncodeLeavesNothingToSend : Obligations.FailedEncodeLeavesNothingToSend := by
  intro i s t hi h he
  have hframing : Instr.framing i := by rcases hi with rfl | rfl | rfl <;> simp [Instr.framing]
  have hcount := txCount_of_failed_framing hframing h he
  exact ⟨hcount, fun _ _ _ hblock => if_pos (hblock ▸ hcount)⟩

/-- Settles O48: the bytes of RXBUF that the decode commands read lie in the written response. -/
theorem acceptedResponseNeverFaults : Obligations.AcceptedResponseNeverFaults := by
  intro s hs
  have hwritten : ∀ {i}, s.verdict = .vOk → i < s.rpduLen.toNat + 3 → Store.read i s.rxbuf ≠ none :=
    fun hv hi => Option.isSome_iff_ne_none.1 (hs.rx_isSome hv hi)
  constructor
  · rcases exec_decRead_cases s with ⟨_, hx⟩ | ⟨_, _, hx⟩ | ⟨_, _, _, _, hx⟩ |
      ⟨hv, _, _, hl, ⟨hn, _⟩ | ⟨_, _, _, hx⟩ | ⟨_, _, _, ⟨_, _, _, hx⟩ | ⟨j, _, hj, hn, _⟩⟩⟩
    · exact ⟨_, hx⟩
    · exact ⟨_, hx⟩
    · exact ⟨_, hx⟩
    · exact absurd hn (hwritten hv (by omega))
    · exact ⟨_, hx⟩
    · exact ⟨_, hx⟩
    · exact absurd hn (hwritten hv (by omega))
  · intro i hfault
    rcases exec_decWrite_cases s with ⟨_, hx⟩ | ⟨_, _, hx⟩ | ⟨hv, hl, ⟨_, hx⟩ | ⟨_, hx⟩ | ⟨f, he, hx⟩⟩
    · cases hfault.symm.trans hx
    · cases hfault.symm.trans hx
    · cases hfault.symm.trans hx
    · cases hfault.symm.trans hx
    · cases hfault.symm.trans hx
      obtain ⟨j, _, hj, ⟨hf, hn⟩ | ⟨hf, _⟩⟩ := echoes_error he
      · exact hwritten hv (by omega) hn
      · cases hf

/-- Settles O49: the request fixes REG_COUNT and RPDU_LEN, with which the response is accepted and decoded. -/
theorem readResponseIsDecoded : Obligations.ReadResponseIsDecoded := by
  intro s addr regs ha h₁ h₂ h pdu k response
  have hn : (BitVec.ofNat 16 regs.length).toNat = regs.length := by
    rw [BitVec.toNat_ofNat, Nat.mod_eq_of_lt (by omega)]
  have hlen : (readRequested addr (BitVec.ofNat 16 regs.length) s).rpduLen.toNat = 2 + 2 * regs.length := by
    rw [readRequested, hn]
    exact Nat.mod_eq_of_lt (by omega)
  have hpdu : (readResponsePdu regs).length = 2 + 2 * regs.length := readResponsePdu_length regs
  obtain ⟨m, hm, hresponse⟩ := accesses_response (s := readRequested addr (BitVec.ofNat 16 regs.length) s)
    (pdu := readResponsePdu regs) ha (hpdu.trans hlen.symm) (by omega) (by omega) [cmd .decRead]
  have hdecoded := exec_decRead_of_response
    (s := (responseAccepted m (aduAround s.saddr (readResponsePdu regs)).length
      (readRequested addr (BitVec.ofNat 16 regs.length) s)).setReply .done)
    rfl hn h₁ h₂ hlen (holds_pdu_of_aduAround hm)
  rw [List.append_assoc, accesses_readRegs ha (by omega) (by omega) (by omega)]
  refine ⟨_, hresponse.trans (accesses_cmd (i := .decRead) rfl hdecoded []), rfl, rfl, ?_, ?_⟩
  · exact Store.holds_writeRun 0 regs s.regdata
  · exact fun j hj => Store.read_writeRun_outside (.inr (by omega)) s.regdata

/-- Settles O50: DEC_WRITE compares the accepted response with the request that ENC_WRITE left in TXBUF. -/
theorem writeEchoIsChecked : Obligations.WriteEchoIsChecked := by
  intro s addr value pdu ha hl request k response
  obtain ⟨m, hm, hresponse⟩ := accesses_response (s := writeRequested addr value s) (pdu := pdu) ha hl (by omega)
    (by omega) [cmd .decWrite]
  have hechoes := echoes_of_holds
    (s := (responseAccepted m (aduAround s.saddr pdu).length (writeRequested addr value s)).setReply .done)
    (holds_pdu_of_aduAround hm) (holds_pdu_of_aduAround (holds_encoded 0x06 addr value 5 _)) hl
  rw [hl] at hechoes
  rw [List.append_assoc, accesses_writeReg addr value ha]
  refine ⟨_, hresponse.trans (accesses_cmd (i := .decWrite) rfl (exec_decWrite_of_echoes rfl rfl hechoes) []), rfl,
    if_congr decide_eq_true_iff rfl rfl⟩

end Sys2Proof.Machine
end

section
/-! PROOF. How commands end (spec/60_exceptions.md R181, R182), and the host protocol (R183, R193 to R199): what an
attempt and a transaction do to the block and the engine. -/

namespace Sys2Proof.Machine

/-! ### How a command ends (spec/60_exceptions.md R181, R182) -/

/-- Settles O21: of the ways in which a command ends, those with an error change ERR and at most TX_COUNT. -/
theorem failedCommandChangesNothingElse : Obligations.FailedCommandChangesNothingElse := by
  intro i s t h he
  rcases exec_next_cases h with ⟨_, _, hf, rfl⟩ | ⟨_, _, hf, rfl⟩ | ⟨_, rfl⟩ | ⟨_, _, rfl⟩ |
    ⟨_, _, _, _, _, _, _, rfl⟩ | ⟨_, _, _, _, _, _, _, _, rfl⟩ | ⟨_, _, rfl⟩ | ⟨_, _, rfl⟩ | ⟨_, _, _, _, _, rfl⟩
  · exact (if_neg hf).symm
  · exact (if_pos hf).symm
  all_goals exact absurd rfl he

/-- The outcome is a next state, or `fault UNWRITTEN` on a byte of TXBUF or RXBUF that s has not written (R182). -/
def FaultsOnlyUnwritten (s : State) (o : Host.Outcome State Fault Refusal) : Prop :=
  (∃ t, o = .next t) ∨
  (∃ b j, o = .fault (.unwritten b j) ∧
    ((b = .tx ∧ Store.read j s.txbuf = none) ∨ (b = .rx ∧ Store.read j s.rxbuf = none)))

namespace FaultsOnlyUnwritten

variable {s t : State} {o : Host.Outcome State Fault Refusal} {j : Nat}

theorem of_next (h : o = .next t) : FaultsOnlyUnwritten s o := .inl ⟨t, h⟩

theorem of_tx (hn : Store.read j s.txbuf = none) (h : o = .fault (.unwritten .tx j)) : FaultsOnlyUnwritten s o :=
  .inr ⟨.tx, j, h, .inl ⟨rfl, hn⟩⟩

theorem of_rx (hn : Store.read j s.rxbuf = none) (h : o = .fault (.unwritten .rx j)) : FaultsOnlyUnwritten s o :=
  .inr ⟨.rx, j, h, .inr ⟨rfl, hn⟩⟩

end FaultsOnlyUnwritten

/-- Settles O22: by cases on the outcomes of each command. -/
theorem commandsOnlyFaultOnUnwritten : Obligations.CommandsOnlyFaultOnUnwritten := by
  intro i s
  change FaultsOnlyUnwritten s (exec i s)
  cases i with
  | nop => exact .of_next (exec_nop s)
  | crcInit => exact .of_next (exec_crcInit s)
  | crcByte b => exact .of_next (exec_crcByte b s)
  | crcTx n =>
    rcases exec_crcTx_cases n s with ⟨_, hx⟩ | ⟨_, _, _, _, hx⟩ | ⟨_, _, _, hn, hx⟩
    · exact .of_next hx
    · exact .of_next hx
    · exact .of_tx hn hx
  | crcRx n =>
    rcases exec_crcRx_cases n s with ⟨_, hx⟩ | ⟨_, _, _, _, hx⟩ | ⟨_, _, _, hn, hx⟩
    · exact .of_next hx
    · exact .of_next hx
    · exact .of_rx hn hx
  | frameBuild =>
    rcases exec_frameBuild_cases s with ⟨_, hx⟩ | ⟨_, _, hx⟩ | ⟨_, _, _, hx⟩
    · exact .of_next hx
    · exact .of_next hx
    · rcases buildAdu_cases s.wpduLen.toNat s with ⟨_, _, _, hb⟩ | ⟨_, _, _, hn, hb⟩
      · exact .of_next (hx.trans hb)
      · exact .of_tx hn (hx.trans hb)
  | frameParse =>
    rcases exec_frameParse_cases s with ⟨_, hx⟩ | ⟨_, _, hx⟩ | ⟨_, _, _, _, ⟨_, _, _, hx⟩ | ⟨_, _, hn, hx⟩⟩
    · exact .of_next hx
    · exact .of_next hx
    · exact .of_next hx
    · exact .of_rx hn hx
  | encRead =>
    rcases exec_encRead_cases s with ⟨_, hx⟩ | ⟨_, _, hx⟩ | ⟨_, _, _, _, hx⟩ | ⟨_, _, _, _, hx⟩ <;> exact .of_next hx
  | encWrite =>
    rcases exec_encWrite_cases s with ⟨_, hx⟩ | ⟨_, hx⟩ <;> exact .of_next hx
  | decRead =>
    rcases exec_decRead_cases s with ⟨_, hx⟩ | ⟨_, _, hx⟩ | ⟨_, _, _, _, hx⟩ |
      ⟨_, _, _, _, ⟨hn, hx⟩ | ⟨_, _, _, hx⟩ | ⟨_, _, _, ⟨_, _, _, hx⟩ | ⟨_, _, _, hn, hx⟩⟩⟩
    · exact .of_next hx
    · exact .of_next hx
    · exact .of_next hx
    · exact .of_rx hn hx
    · exact .of_next hx
    · exact .of_next hx
    · exact .of_rx hn hx
  | decWrite =>
    rcases exec_decWrite_cases s with ⟨_, hx⟩ | ⟨_, _, hx⟩ | ⟨_, _, ⟨_, hx⟩ | ⟨_, hx⟩ | ⟨_, he, hx⟩⟩
    · exact .of_next hx
    · exact .of_next hx
    · exact .of_next hx
    · exact .of_next hx
    · obtain ⟨_, _, _, ⟨rfl, hn⟩ | ⟨rfl, hn⟩⟩ := echoes_error he
      · exact .of_rx hn hx
      · exact .of_tx hn hx

/-! ### Exception names (spec/60_exceptions.md R183) -/

/-- The codes with EXC_KNOWN = 1 are the keys of the list of names. -/
theorem isKnownCode_eq_lookup_isSome (code : Byte) :
    isKnownCode code = (listedExceptionNames.lookup code).isSome := by
  have hcodes : knownCodes = listedExceptionNames.map Prod.fst := rfl
  rw [Bool.eq_iff_iff, List.lookup_isSome_iff, isKnownCode, hcodes, List.contains_map, List.any_eq_true]

/-- Settles O54: each listed name is what the lookup of its code finds. -/
theorem exceptionNamesAreTheKnownCodes : Obligations.ExceptionNamesAreTheKnownCodes := by
  refine ⟨fun n => ⟨?_, ?_, ?_, ?_, ?_, ?_, ?_, ?_, ?_, ?_⟩, isKnownCode_eq_lookup_isSome⟩ <;>
  exact exceptionName_of_listed rfl n

/-! ### Acting on a verdict (spec/60_exceptions.md R197) -/

section
variable {k : Nat} {e e' : Engine}

/-- Acting on a verdict drives neither the block nor the channel. -/
theorem actOnVerdict_keeps (k : Nat) (e : Engine) :
    (actOnVerdict k e).2.block = e.block ∧ (actOnVerdict k e).2.sent = e.sent := by
  unfold actOnVerdict
  cases e.block.verdict <;> exact ⟨rfl, rfl⟩

theorem actOnVerdict_noResponse (h : e.block.verdict = .vNoResponse) : actOnVerdict k e = (.fatal, e) := by
  rw [actOnVerdict, h]

theorem actOnVerdict_exception (h : e.block.verdict = .vException) :
    actOnVerdict k e = (.retry, { e with log := e.log ++ [exceptionName e.log.length e.block.excCode] }) := by
  rw [actOnVerdict, h]

theorem actOnVerdict_badLength (h : e.block.verdict = .vBadLength) :
    actOnVerdict k e = (.retry, { e with timeouts := e.timeouts.backoff k }) := by
  rw [actOnVerdict, h]

theorem vOk_of_actOnVerdict_success (h : (actOnVerdict k e).1 = .success) : e.block.verdict = .vOk := by
  unfold actOnVerdict at h
  split at h
  · assumption
  all_goals cases h

/-- BACKOFF raises the constant (R198). -/
theorem Timeouts.constant_lt_backoff (k : Nat) (t : Timeouts) : t.constant < (t.backoff k).constant := by
  change t.constant < t.constant + 1 + Config.backoffExtra k t.constant
  omega

theorem constant_le_actOnVerdict (k : Nat) (e : Engine) :
    e.timeouts.constant ≤ (actOnVerdict k e).2.timeouts.constant := by
  unfold actOnVerdict
  cases e.block.verdict with
  | vBadLength => exact (Timeouts.constant_lt_backoff k e.timeouts).le
  | _ => exact le_refl _

/-! ### Receiving a response (spec/60_exceptions.md R196, R197) -/

variable {r : AttemptEnd} {bytes : List Byte} {received : Option (List Byte)}

/-- FRAME_PARSE leaves the request in TXBUF. -/
theorem exec_frameParse_keeps_request {s t : State} (h : exec .frameParse s = .next t) :
    t.txbuf = s.txbuf ∧ t.txCount = s.txCount := by
  rcases exec_frameParse_cases s with ⟨_, hx⟩ | ⟨_, _, hx⟩ | ⟨_, _, _, _, ⟨_, _, _, hx⟩ | ⟨_, _, _, hx⟩⟩ <;>
  cases h.symm.trans hx <;> simp

/-- Receiving leaves the request; then the host acts on the verdict of a parse without an error, or a failed parse is
fatal and leaves no verdict. -/
theorem receive_some_effects (h : receive k (some bytes) e = .next (r, e')) :
    e'.block.txbuf = e.block.txbuf ∧ e'.block.txCount = e.block.txCount ∧
      ((e'.block.err = .ok ∧ (r, e') = actOnVerdict k { e with block := e'.block }) ∨
        (e'.block.verdict = .vNone ∧ r = .fatal ∧ e' = { e with block := e'.block })) := by
  obtain ⟨s, v, _, htx, hcount, _, _, hparse, hend⟩ := receive_some_cases h
  obtain ⟨hvtx, hvcount⟩ := exec_frameParse_keeps_request hparse
  rcases hend with ⟨hok, hact⟩ | ⟨_, hnone, rfl, rfl⟩
  · have hblock : e'.block = v := (congrArg (·.2.block) hact).trans (actOnVerdict_keeps k _).1
    rw [hblock]
    exact ⟨hvtx.trans htx, hvcount.trans hcount, .inl ⟨hok, hact⟩⟩
  · exact ⟨hvtx.trans htx, hvcount.trans hcount, .inr ⟨hnone, rfl, rfl⟩⟩

/-- The host acted on a verdict that stands after receiving. -/
theorem receive_acts_on_verdict (h : receive k (some bytes) e = .next (r, e')) (hv : e'.block.verdict ≠ .vNone) :
    (r, e') = actOnVerdict k { e with block := e'.block } := by
  obtain ⟨_, _, ⟨_, hact⟩ | ⟨hnone, _⟩⟩ := receive_some_effects h
  · exact hact
  · exact absurd hnone hv

/-- Receiving that ends in success leaves V_OK and ERR 0. -/
theorem vOk_of_receive_success (h : receive k received e = .next (.success, e')) :
    e'.block.verdict = .vOk ∧ e'.block.err = .ok := by
  cases received with
  | none => cases h
  | some bytes =>
    obtain ⟨_, _, ⟨hok, hact⟩ | ⟨_, hfatal, _⟩⟩ := receive_some_effects h
    · exact ⟨vOk_of_actOnVerdict_success (e := { e with block := e'.block }) (congrArg Prod.fst hact).symm, hok⟩
    · cases hfatal

/-- Receiving leaves the request and the frames sent, and never lowers the read timeout constant. -/
theorem receive_keeps (h : receive k received e = .next (r, e')) :
    e'.block.txbuf = e.block.txbuf ∧ e'.block.txCount = e.block.txCount ∧ e'.sent = e.sent ∧
      e.timeouts.constant ≤ e'.timeouts.constant := by
  cases received with
  | none =>
    cases h
    exact ⟨rfl, rfl, rfl, le_refl _⟩
  | some bytes =>
    obtain ⟨htx, hcount, hend⟩ := receive_some_effects h
    refine ⟨htx, hcount, ?_⟩
    rcases hend with ⟨_, hact⟩ | ⟨_, _, he⟩
    · have he : e' = (actOnVerdict k { e with block := e'.block }).2 := congrArg Prod.snd hact
      rw [he]
      exact ⟨(actOnVerdict_keeps k _).2, constant_le_actOnVerdict k { e with block := e'.block }⟩
    · rw [he]
      exact ⟨rfl, le_refl _⟩

/-- Loading no bytes and parsing them finds V_NO_RESPONSE. -/
theorem accesses_no_response {s : State} (ha : s.saddr.toNat ≤ 247) (h₁ : 1 ≤ s.rpduLen.toNat)
    (h₂ : s.rpduLen.toNat ≤ 253) :
    ∃ t, accesses (loadRx [] ++ [cmd .frameParse]) s = .next t ∧ t.err = .ok ∧ t.verdict = .vNoResponse := by
  obtain ⟨m, _, hload⟩ := accesses_loadRx (bytes := []) (Nat.zero_le 256) s
  rw [accesses_append, hload]
  refine ⟨_, accesses_cmd (i := .frameParse) rfl (exec_frameParse_of_ok ?_ (parseFrame_empty ?_)) [], ?_, ?_⟩
  · exact ⟨ha, h₁, h₂, Nat.zero_le 256⟩
  all_goals rfl

/-- Receiving no bytes is fatal, with V_NO_RESPONSE. -/
theorem receive_no_bytes (ha : e.block.saddr.toNat ≤ 247) (h₁ : 1 ≤ e.block.rpduLen.toNat)
    (h₂ : e.block.rpduLen.toNat ≤ 253) :
    ∃ e', receive k (some []) e = .next (.fatal, e') ∧ e'.block.verdict = .vNoResponse ∧ e'.sent = e.sent := by
  obtain ⟨t, hrun, hok, hv⟩ := accesses_no_response ha h₁ h₂
  refine ⟨{ e with block := t }, ?_, hv, rfl⟩
  simp only [receive, List.take_nil, hrun, if_pos hok]
  rw [actOnVerdict_noResponse hv]

/-! ### Attempts (spec/60_exceptions.md R194 to R199) -/

variable {left n : Nat} {ch : ChannelAttempt} {chs : List ChannelAttempt}

/-- An attempt that goes on sends TX[0..TX_COUNT), and then receives or ends without touching the block. -/
theorem attempt_next_cases (h : attempt k ch e = .next (r, e')) :
    ∃ frame, readTx 0 e.block.txCount.toNat e.block = .ok frame ∧
      (receive k ch.received { e with sent := e.sent ++ [frame] } = .next (r, e') ∨
        (r ≠ .success ∧ e' = { e with sent := e.sent ++ [frame] })) := by
  unfold attempt at h
  cases hread : readTx 0 e.block.txCount.toNat e.block with
  | error f =>
    rw [hread] at h
    cases h
  | ok frame =>
    refine ⟨frame, rfl, ?_⟩
    simp only [hread] at h
    split_ifs at h
    · cases h
      exact .inr ⟨by decide, rfl⟩
    · exact .inl h
    · cases h
      exact .inr ⟨by decide, rfl⟩

/-- The attempt that receives: the frame is sent whole and the channel's read buffer is cleared. -/
theorem attempt_eq_receive {frame : List Byte} (hread : readTx 0 e.block.txCount.toNat e.block = .ok frame)
    (hw : ch.written = frame.length) (hclear : ch.clearOk = true) :
    attempt k ch e = receive k ch.received { e with sent := e.sent ++ [frame] } := by
  simp [attempt, hread, hw, hclear]

/-- An attempt that succeeds leaves V_OK and ERR 0. -/
theorem vOk_of_attempt_success (h : attempt k ch e = .next (.success, e')) :
    e'.block.verdict = .vOk ∧ e'.block.err = .ok := by
  obtain ⟨frame, _, hr | ⟨hne, _⟩⟩ := attempt_next_cases h
  · exact vOk_of_receive_success hr
  · exact absurd rfl hne

/-- What n attempts do: the request stays in TXBUF, each sends the same frame of it, and the read timeout constant does
not fall. -/
structure Attempted (n : Nat) (e e' : Engine) : Prop where
  txbuf : e'.block.txbuf = e.block.txbuf
  txCount : e'.block.txCount = e.block.txCount
  sent : ∃ frame, (n = 0 ∨ readTx 0 e.block.txCount.toNat e.block = .ok frame) ∧
    e'.sent = e.sent ++ List.replicate n frame
  constant : e.timeouts.constant ≤ e'.timeouts.constant

theorem Attempted.refl (e : Engine) : Attempted 0 e e := ⟨rfl, rfl, ⟨[], .inl rfl, by simp⟩, le_refl _⟩

/-- One attempt more in front: its request is the one the attempts after it read. -/
theorem Attempted.cons {e₁ : Engine} (h : Attempted 1 e e₁) (h' : Attempted n e₁ e') : Attempted (n + 1) e e' := by
  obtain ⟨frame, hread | hread, hsent⟩ := h.sent
  · cases hread
  obtain ⟨frame', hread', hsent'⟩ := h'.sent
  refine ⟨h'.txbuf.trans h.txbuf, h'.txCount.trans h.txCount, ⟨frame, .inr hread, ?_⟩, h.constant.trans h'.constant⟩
  have hsame : List.replicate n frame' = List.replicate n frame := by
    rcases hread' with rfl | hread'
    · rfl
    · rw [readTx, h.txCount, h.txbuf] at hread'
      rw [Except.ok.inj (hread'.symm.trans hread)]
  rw [hsent', hsent, hsame, List.append_assoc, ← List.replicate_add, Nat.add_comm]

theorem attempted_one (h : attempt k ch e = .next (r, e')) : Attempted 1 e e' := by
  obtain ⟨frame, hread, hr | ⟨_, rfl⟩⟩ := attempt_next_cases h
  · obtain ⟨htx, hcount, hsent, hconst⟩ := receive_keeps hr
    exact ⟨htx, hcount, ⟨frame, .inr hread, hsent⟩, hconst⟩
  · exact ⟨rfl, rfl, ⟨frame, .inr hread, rfl⟩, le_refl _⟩

variable {o : TransactionEnd}

/-- Attempts that go on: the first one ends the transaction, or it is retried and the others follow. -/
theorem attempts_next_cases (h : attempts (left + 1) k (ch :: chs) e = .next (o, e')) :
    (attempt k ch e = .next (.success, e') ∧ o = .success) ∨
    (attempt k ch e = .next (.fatal, e') ∧ o = .failed) ∨
    (∃ e₁, attempt k ch e = .next (.retry, e₁) ∧ attempts left (k + 1) chs e₁ = .next (o, e')) := by
  unfold attempts at h
  split at h
  · cases h
  · cases h
  · cases h
    exact .inl ⟨‹_›, rfl⟩
  · cases h
    exact .inr (.inl ⟨‹_›, rfl⟩)
  · exact .inr (.inr ⟨_, ‹_›, h⟩)

theorem attempts_attempted (h : attempts left k chs e = .next (o, e')) : ∃ n ≤ left, Attempted n e e' := by
  induction left generalizing k chs e with
  | zero =>
    cases h
    exact ⟨0, le_refl 0, .refl _⟩
  | succ left ih =>
    cases chs with
    | nil =>
      cases h
      exact ⟨0, Nat.zero_le _, .refl _⟩
    | cons ch chs =>
      rcases attempts_next_cases h with ⟨hx, _⟩ | ⟨hx, _⟩ | ⟨e₁, hx, hrest⟩
      · exact ⟨1, by omega, attempted_one hx⟩
      · exact ⟨1, by omega, attempted_one hx⟩
      · obtain ⟨n, hn, hrest⟩ := ih hrest
        exact ⟨n + 1, by omega, (attempted_one hx).cons hrest⟩

theorem vOk_of_attempts_success (h : attempts left k chs e = .next (.success, e')) :
    e'.block.verdict = .vOk ∧ e'.block.err = .ok := by
  induction left generalizing k chs e with
  | zero => cases h
  | succ left ih =>
    cases chs with
    | nil => cases h
    | cons ch chs =>
      rcases attempts_next_cases h with ⟨hx, _⟩ | ⟨_, hend⟩ | ⟨e₁, _, hrest⟩
      · exact vOk_of_attempt_success hx
      · cases hend
      · exact ih hrest

/-- A transaction makes no attempt, or makes attempts within its budget (R193, R199). -/
theorem transaction_attempted {budget : Int} (h : transaction budget chs e = .next (o, e')) :
    ∃ n ≤ attemptBudget budget, Attempted n e e' := by
  unfold transaction at h
  split at h
  · cases h
    exact ⟨0, Nat.zero_le _, .refl _⟩
  · exact attempts_attempted h

end

/-! ### The obligations on the host protocol -/

/-- Settles O55: the host acts on V_EXCEPTION by writing its log alone. -/
theorem exceptionResponseIsLoggedAndRetried : Obligations.ExceptionResponseIsLoggedAndRetried := by
  intro k bytes e e' r h hv
  have hact := receive_acts_on_verdict h (by simp [hv])
  rw [actOnVerdict_exception (e := { e with block := e'.block }) hv] at hact
  obtain ⟨rfl, he⟩ := Prod.mk.inj hact
  exact ⟨rfl, congrArg Engine.log he, (congrArg Engine.timeouts he).trans rfl, (congrArg Engine.sent he).trans rfl⟩

/-- Settles O56: the first attempt receives no bytes, and its fatal end is the end of the transaction. -/
theorem noResponseEndsTheTransaction : Obligations.NoResponseEndsTheTransaction := by
  intro left k ch chs e frame hread hw hclear hreceived ha h₁ h₂
  obtain ⟨e', hr, hv, hsent⟩ := receive_no_bytes (k := k) (e := { e with sent := e.sent ++ [frame] }) ha h₁ h₂
  refine ⟨e', ?_, hv, hsent⟩
  rw [attempts, attempt_eq_receive hread hw hclear, hreceived, hr]

/-- Settles O57: by induction on the budget, each attempt leaves the request and sends it once. -/
theorem attemptsAreBoundedAndResendTheFrame : Obligations.AttemptsAreBoundedAndResendTheFrame := by
  intro budget chs e e' r h
  obtain ⟨n, hn, hdone⟩ := transaction_attempted h
  obtain ⟨frame, hread, hsent⟩ := hdone.sent
  exact ⟨hdone.txbuf, hdone.txCount, n, frame, hn, hread, hsent⟩

/-- Settles O58: no attempt lowers the constant, and the host acts on V_BAD_LENGTH by BACKOFF. -/
theorem timeoutConstantOnlyGrows : Obligations.TimeoutConstantOnlyGrows := by
  refine ⟨fun budget chs e e' r h => ?_, fun k bytes e e' r h hv => ?_⟩
  · obtain ⟨_, _, hdone⟩ := transaction_attempted h
    exact hdone.constant
  · have hact := receive_acts_on_verdict h (by simp [hv])
    rw [actOnVerdict_badLength (e := { e with block := e'.block }) hv] at hact
    obtain ⟨rfl, he⟩ := Prod.mk.inj hact
    exact ⟨rfl, he ▸ Timeouts.constant_lt_backoff k e.timeouts⟩

/-- Settles O59: success is the end of an attempt whose verdict was V_OK. -/
theorem successfulTransactionIsAccepted : Obligations.SuccessfulTransactionIsAccepted := by
  intro budget chs e e' h
  unfold transaction at h
  split at h
  · cases h
  · exact vOk_of_attempts_success h

end Sys2Proof.Machine
end

section
/-! PROOF. Reset and hazards (spec/70_reset_and_hazards.md R220, R221, R227): the invariant and the CRC right after reset,
and decoding after a write to an input of the parse. -/

namespace Sys2Proof.Machine

/-- Settles O51: every memory is empty, no frame is ready and no verdict stands. -/
theorem resetMeetsTheInvariant : Obligations.ResetMeetsTheInvariant := inv_reset

/-- Settles O35: each command folds its bytes into CRC, and a fold from the reset value is crc16. -/
theorem crcStartsAtInitialValueAfterReset : Obligations.CrcStartsAtInitialValueAfterReset := by
  refine ⟨rfl, fun s hcrc => ?_⟩
  have hfold : ∀ bs, crcFold s.crc bs = crc16 bs := fun _ => by rw [hcrc]; rfl
  refine ⟨fun b => ?_, fun bs hl hbs => ?_, fun bs hl hbs => ?_⟩
  · rw [exec_crcByte, ← hfold [b]]
    rfl
  · rw [exec_crcTx, crcSpan_of_holds rfl hl rfl hbs, hfold]
  · rw [exec_crcRx, crcSpan_of_holds rfl hl rfl hbs, hfold]

/-- A program that runs no FRAME_PARSE leaves no verdict where none stands (R227). -/
theorem accesses_keeps_vNone {program : List Access} {s t : State} (hv : s.verdict = .vNone)
    (hp : ∀ a ∈ program, a.parses = false) (h : accesses program s = .next t) : t.verdict = .vNone := by
  induction program generalizing s with
  | nil =>
    obtain rfl := Host.Outcome.next.inj h
    exact hv
  | cons a program ih =>
    obtain ⟨ha, hrest⟩ := List.forall_mem_cons.1 hp
    rw [accesses] at h
    split at h
    case h_1 u hu =>
      refine ih ?_ hrest h
      rcases access_verdict_cases hu with hk | hc | ⟨hparses, _⟩
      · exact (congrArg Prod.fst hk).trans hv
      · exact congrArg Prod.fst hc
      · simp [ha] at hparses
    all_goals cases h

/-- Settles O47: the write clears the verdict, the program sets none, and decoding needs V_OK. -/
theorem staleVerdictRefusesDecoding : Obligations.StaleVerdictRefusesDecoding := by
  intro program s t u rest a w hop hoff hstep hp hrun
  obtain ⟨_, _, hclear, _⟩ := onlyFrameParseSetsAVerdict
  have ht : t.verdict = .vNone := hclear a s t rest w hop hoff hstep
  have hu : u.verdict ≠ .vOk := by simp [accesses_keeps_vNone ht hp hrun]
  exact ⟨ht, exec_decRead_of_no_vOk hu, exec_decWrite_of_no_vOk hu⟩

end Sys2Proof.Machine
end

section
/-! PROOF. What the spec leaves to the model: the bytes FRAME_PARSE reads (spec/41_framer.md R124), the steps that take no
access (spec/00_scope.md R8, spec/70_reset_and_hazards.md R220) and the window on the bus (spec/20_memory.md R60). -/

namespace Sys2Proof.Machine

/-! ### The bytes FRAME_PARSE reads (spec/41_framer.md R124) -/

/-- Both branches that look at the bytes read RX[0..RX_COUNT), and stop where that read stops (notes 5). -/
theorem parseFrame_of_readRx_error {s : State} {f : Fault}
    (hc : s.rxCount.toNat = expectedAdu s.rpduLen ∨ (s.rxCount.toNat = 5 ∧ 5 < expectedAdu s.rpduLen))
    (h : readRx 0 s.rxCount.toNat s = .error f) : parseFrame s = .error f := by
  rcases hc with hc | ⟨hc, he⟩ <;> rw [hc] at h
  · rw [parseFrame_full hc, h]
  · rw [parseFrame_short hc he, h]

/-! ### Steps that take no access (spec/00_scope.md R8, spec/70_reset_and_hazards.md R220) -/

theorem step_of_idle {s : State} (h : s.bus = []) : step s = .next s := by
  rw [step, h]

theorem step_of_reset {s : State} {rest : List Input} (h : s.bus = .reset :: rest) :
    step s = .next { State.reset with bus := rest } := by
  rw [step, h]
  rfl

theorem statusWord_reset : statusWord State.reset = 0x00000000 := by decide

/-! ### The window on the bus (spec/20_memory.md R60) -/

theorem Config.base_mod : Config.base % 0x1000 = 0 := Nat.mul_mod_right _ _

/-- An address of the window is BASE plus its offset. -/
theorem windowOffset_base_add (off : Offset) : windowOffset (Config.base + off.toNat) = some off := by
  have hoff : off.toNat < 0x1000 := off.isLt
  rw [windowOffset, if_pos (by omega), Nat.add_sub_cancel_left, BitVec.ofNat_toNat, BitVec.setWidth_eq]

theorem windowOffset_outside {addr : Nat} (h : addr < Config.base ∨ Config.base + 0x1000 ≤ addr) :
    windowOffset addr = none := if_neg (by omega)

/-- A host access at the bus address of an access waits as that access. -/
theorem State.request_address (a : Access) (s : State) :
    s.request a.bits a.address a.op = { s with bus := s.bus ++ [.access a] } := by
  rw [State.request, Access.address, windowOffset_base_add]

/-! ### The obligations -/

/-- Settles O40: the read of RX[0..RX_COUNT) stops at an unwritten byte, and the parse stops with it. -/
theorem frameParseReadsTheWholeFrame : Obligations.FrameParseReadsTheWholeFrame := by
  intro s i ha h₁ h₂ hc hi hu
  obtain ⟨j, _, hj, hn, hstop⟩ := readRun_stops (b := .rx) (Nat.zero_le i) (by omega : i < 0 + s.rxCount.toNat) hu
  have hadmitted : ParseAdmitted s := ⟨ha, h₁, h₂, by omega⟩
  exact ⟨j, by omega, hn, exec_frameParse_of_error hadmitted (parseFrame_of_readRx_error hc hstop)⟩

/-- Settles O7: the model's choice for a step with nothing to take (notes 1). -/
theorem idleStepChangesNothing : Obligations.IdleStepChangesNothing := fun _ => step_of_idle

/-- Settles O8: the step answers the reset state, whose fields and empty memories are those of R220. -/
theorem resetStepRestoresResetValues : Obligations.ResetStepRestoresResetValues := by
  intro s rest h
  exact ⟨_, step_of_reset h, rfl, statusWord_reset, rfl, rfl, rfl, rfl, rfl, rfl, rfl, rfl, rfl, rfl, rfl, rfl, rfl,
    Store.read_nil, Store.read_nil, Store.read_nil⟩

/-- Settles O11: BASE counts whole windows, an offset is below 0x1000, and an access carries its offset (notes 1, 7). -/
theorem windowIsFourKiBAtBase : Obligations.WindowIsFourKiBAtBase :=
  ⟨Config.base_mod, windowOffset_base_add, fun _ => windowOffset_outside, State.request_address⟩

end Sys2Proof.Machine
end
